-- ==== Sys2Proof/Word.lean ====
section
/-! DEFINITION. The word types of sim68k (spec/00_scope.md R8): a byte is 8 bits, a word 16 bits, a long 32 bits.
All three are what the spec treats as bits: contents of registers and memory, addresses, opcode words. -/

namespace Sys2Proof

/-- A "byte" (R8): one addressable unit of memory. -/
abbrev Byte := BitVec 8

/-- A "word" (R8): 2 bytes; an opcode, an extension word, a memory address. -/
abbrev Word := BitVec 16

/-- A "long" (R8): 4 bytes; the width of the data and address registers. -/
abbrev Long := BitVec 32

end Sys2Proof
end

