-- ==== Sys2Proof/Syntax.lean ====
section
/-! DEFINITION. The instructions of sim68k as data. Every one of the 65536 opcode words names one of the 32 instructions
(spec/30_encoding.md R91) and may still be invalid, so a constructor carries the opcode's size field and P bit as they
stand and an operand may carry an unassigned mode: such a term is ill-formed (WellFormed.lean) and its meaning is the
error the spec names for it. -/

namespace Sys2Proof

/-- The three operand sizes (spec/00_scope.md R6). -/
inductive Size
  | b
  | w
  | l
  deriving DecidableEq, Repr

/-- `bits(sz)` of spec/00_scope.md R9. -/
abbrev Size.bits : Size → Nat
  | .b => 8
  | .w => 16
  | .l => 32

/-- `bytes(sz)` of spec/00_scope.md R9. -/
def Size.bytes : Size → Nat
  | .b => 1
  | .w => 2
  | .l => 4

/-- A register number, the N bit of an operand reference (spec/30_encoding.md R85): D0 or D1, A0 or A1. -/
inductive RegNo
  | r0
  | r1
  deriving DecidableEq, Repr

/-- The two mode values that name no addressing mode (spec/30_encoding.md R84). -/
inductive NoMode
  | m010
  | m101
  deriving DecidableEq, Repr

/-- An ordinary operand (spec/30_encoding.md R84 to R86). The N bit beside mode 011 is not considered (R85) and is not
kept. -/
inductive Operand
  /-- 000: data register direct -/
  | dreg (n : RegNo)
  /-- 001: address register direct -/
  | areg (n : RegNo)
  /-- 011: relative/absolute, with the address its extension word holds -/
  | abs (addr : Word)
  /-- 011, where memory ends before the extension word: the operand's address cannot be fetched (R127) -/
  | absTruncated
  /-- 100: address register indirect -/
  | ind (n : RegNo)
  /-- 110: address register indirect with post-increment -/
  | postInc (n : RegNo)
  /-- 111: address register indirect with pre-decrement -/
  | preDec (n : RegNo)
  /-- 010 and 101: no addressing mode -/
  | noMode (m : NoMode) (n : RegNo)
  deriving DecidableEq, Repr

/-- The two fields every opcode has beside its name (spec/30_encoding.md R83): the size field DS and the P bit. -/
structure OpInfo where
  ds : BitVec 2
  p : Bool
  deriving DecidableEq, Repr

/-- The 32 instructions, in the order of spec/30_encoding.md R90. Two-operand F1 instructions carry operand-1 and
operand-2, one-operand F1 instructions operand-1, F2 instructions the immediate Data and operand-2 (R88). -/
inductive Instr
  | add (info : OpInfo) (src dst : Operand)
  | addq (info : OpInfo) (data : BitVec 4) (dst : Operand)
  | sub (info : OpInfo) (src dst : Operand)
  | subq (info : OpInfo) (data : BitVec 4) (dst : Operand)
  | muls (info : OpInfo) (src dst : Operand)
  | divs (info : OpInfo) (src dst : Operand)
  | neg (info : OpInfo) (dst : Operand)
  | clr (info : OpInfo) (dst : Operand)
  | not (info : OpInfo) (dst : Operand)
  | and (info : OpInfo) (src dst : Operand)
  | or (info : OpInfo) (src dst : Operand)
  | eor (info : OpInfo) (src dst : Operand)
  | asl (info : OpInfo) (data : BitVec 4) (dst : Operand)
  | asr (info : OpInfo) (data : BitVec 4) (dst : Operand)
  | rol (info : OpInfo) (data : BitVec 4) (dst : Operand)
  | ror (info : OpInfo) (data : BitVec 4) (dst : Operand)
  | cmp (info : OpInfo) (src dst : Operand)
  | tst (info : OpInfo) (dst : Operand)
  | bra (info : OpInfo) (target : Operand)
  | bvs (info : OpInfo) (target : Operand)
  | beq (info : OpInfo) (target : Operand)
  | bcs (info : OpInfo) (target : Operand)
  | bge (info : OpInfo) (target : Operand)
  | ble (info : OpInfo) (target : Operand)
  | move (info : OpInfo) (src dst : Operand)
  | moveq (info : OpInfo) (data : BitVec 4) (dst : Operand)
  | exg (info : OpInfo) (src dst : Operand)
  | movea (info : OpInfo) (src dst : Operand)
  | inp (info : OpInfo) (dst : Operand)
  | dsp (info : OpInfo) (src : Operand)
  | dsr (info : OpInfo)
  | hlt (info : OpInfo)
  deriving DecidableEq, Repr

/-- The mnemonics, which an Error event names (spec/60_exceptions.md R240). -/
inductive Mnemonic
  | ADD | ADDQ | SUB | SUBQ | MULS | DIVS | NEG | CLR
  | NOT | AND | OR | EOR | ASL | ASR | ROL | ROR
  | CMP | TST | BRA | BVS | BEQ | BCS | BGE | BLE
  | MOVE | MOVEQ | EXG | MOVEA | INP | DSP | DSR | HLT
  deriving DecidableEq, Repr

/-- The five errors of spec/60_exceptions.md R240, in its order. -/
inductive ErrorKind
  | invalidNbOperands
  | invalidDataSize
  | invalidAddressingMode
  | divisionByZero
  | addressOutOfRange
  deriving DecidableEq, Repr

/-- The mnemonic of an instruction (spec/30_encoding.md R90). -/
def Instr.mnemonic : Instr → Mnemonic
  | .add .. => .ADD | .addq .. => .ADDQ | .sub .. => .SUB | .subq .. => .SUBQ
  | .muls .. => .MULS | .divs .. => .DIVS | .neg .. => .NEG | .clr .. => .CLR
  | .not .. => .NOT | .and .. => .AND | .or .. => .OR | .eor .. => .EOR
  | .asl .. => .ASL | .asr .. => .ASR | .rol .. => .ROL | .ror .. => .ROR
  | .cmp .. => .CMP | .tst .. => .TST | .bra .. => .BRA | .bvs .. => .BVS
  | .beq .. => .BEQ | .bcs .. => .BCS | .bge .. => .BGE | .ble .. => .BLE
  | .move .. => .MOVE | .moveq .. => .MOVEQ | .exg .. => .EXG | .movea .. => .MOVEA
  | .inp .. => .INP | .dsp .. => .DSP | .dsr .. => .DSR | .hlt .. => .HLT

/-- The size field and P bit of an instruction. -/
def Instr.info : Instr → OpInfo
  | .add i .. | .addq i .. | .sub i .. | .subq i .. | .muls i .. | .divs i .. | .neg i .. | .clr i .. => i
  | .not i .. | .and i .. | .or i .. | .eor i .. | .asl i .. | .asr i .. | .rol i .. | .ror i .. => i
  | .cmp i .. | .tst i .. | .bra i .. | .bvs i .. | .beq i .. | .bcs i .. | .bge i .. | .ble i .. => i
  | .move i .. | .moveq i .. | .exg i .. | .movea i .. | .inp i .. | .dsp i .. | .dsr i .. | .hlt i .. => i

/-- Operand-1 of an instruction, where it has one (spec/30_encoding.md R88). -/
def Instr.op1 : Instr → Option Operand
  | .add _ s _ | .sub _ s _ | .muls _ s _ | .divs _ s _ | .and _ s _ | .or _ s _ | .eor _ s _ => some s
  | .cmp _ s _ | .move _ s _ | .exg _ s _ | .movea _ s _ => some s
  | .neg _ d | .clr _ d | .not _ d | .tst _ d | .inp _ d | .dsp _ d => some d
  | .bra _ t | .bvs _ t | .beq _ t | .bcs _ t | .bge _ t | .ble _ t => some t
  | .addq .. | .subq .. | .asl .. | .asr .. | .rol .. | .ror .. | .moveq .. | .dsr .. | .hlt .. => none

/-- Operand-2 of an instruction, where it has one (spec/30_encoding.md R88). -/
def Instr.op2 : Instr → Option Operand
  | .add _ _ d | .sub _ _ d | .muls _ _ d | .divs _ _ d | .and _ _ d | .or _ _ d | .eor _ _ d => some d
  | .cmp _ _ d | .move _ _ d | .exg _ _ d | .movea _ _ d => some d
  | .addq _ _ d | .subq _ _ d | .asl _ _ d | .asr _ _ d | .rol _ _ d | .ror _ _ d | .moveq _ _ d => some d
  | .neg .. | .clr .. | .not .. | .tst .. | .inp .. | .dsp .. | .dsr .. | .hlt .. => none
  | .bra .. | .bvs .. | .beq .. | .bcs .. | .bge .. | .ble .. => none

end Sys2Proof
end

