-- ==== Sys2Proof/Decode.lean ====
section
/-! DEFINITION. Decode_Instruction (spec/40_cycle_and_addressing.md R123): the opcode's fields, the three validity checks,
the decoder from bytes, and after it the encoder, all from the same tables of spec/30_encoding.md. -/

namespace Sys2Proof

/-! ### The opcode map (R90) -/

/-- The 5-bit OpName O of each instruction (spec/30_encoding.md R90). -/
def Mnemonic.opName : Mnemonic → BitVec 5
  | .ADD => 0b00000
  | .ADDQ => 0b00001
  | .SUB => 0b00010
  | .SUBQ => 0b00011
  | .MULS => 0b00100
  | .DIVS => 0b00101
  | .NEG => 0b00110
  | .CLR => 0b00111
  | .NOT => 0b01000
  | .AND => 0b01001
  | .OR => 0b01010
  | .EOR => 0b01011
  | .ASL => 0b01100
  | .ASR => 0b01101
  | .ROL => 0b01110
  | .ROR => 0b01111
  | .CMP => 0b10000
  | .TST => 0b10001
  | .BRA => 0b10010
  | .BVS => 0b10011
  | .BEQ => 0b10100
  | .BCS => 0b10101
  | .BGE => 0b10110
  | .BLE => 0b10111
  | .MOVE => 0b11000
  | .MOVEQ => 0b11001
  | .EXG => 0b11010
  | .MOVEA => 0b11011
  | .INP => 0b11100
  | .DSP => 0b11101
  | .DSR => 0b11110
  | .HLT => 0b11111

/-- The instruction an OpName selects: all 32 values are taken (spec/30_encoding.md R90). -/
def Mnemonic.ofOpName (o : BitVec 5) : Mnemonic :=
  match o.toNat with
  | 0 => .ADD
  | 1 => .ADDQ
  | 2 => .SUB
  | 3 => .SUBQ
  | 4 => .MULS
  | 5 => .DIVS
  | 6 => .NEG
  | 7 => .CLR
  | 8 => .NOT
  | 9 => .AND
  | 10 => .OR
  | 11 => .EOR
  | 12 => .ASL
  | 13 => .ASR
  | 14 => .ROL
  | 15 => .ROR
  | 16 => .CMP
  | 17 => .TST
  | 18 => .BRA
  | 19 => .BVS
  | 20 => .BEQ
  | 21 => .BCS
  | 22 => .BGE
  | 23 => .BLE
  | 24 => .MOVE
  | 25 => .MOVEQ
  | 26 => .EXG
  | 27 => .MOVEA
  | 28 => .INP
  | 29 => .DSP
  | 30 => .DSR
  | _ => .HLT

/-- The P bit an instruction requires (spec/30_encoding.md R90, column P). -/
def Mnemonic.requiredP : Mnemonic → Bool
  | .ADD | .SUB | .MULS | .DIVS | .AND | .OR | .EOR | .CMP | .MOVE | .EXG | .MOVEA => true
  | .ADDQ | .SUBQ | .NEG | .CLR | .NOT | .ASL | .ASR | .ROL | .ROR | .TST => false
  | .BRA | .BVS | .BEQ | .BCS | .BGE | .BLE | .MOVEQ | .INP | .DSP | .DSR | .HLT => false

/-- The sizes an instruction allows (spec/30_encoding.md R90, column sizes; R93). -/
def Mnemonic.allowedSizes : Mnemonic → List Size
  | .MULS | .BRA | .BVS | .BEQ | .BCS | .BGE | .BLE | .MOVEA => [.w]
  | .DIVS | .EXG => [.l]
  | .DSR | .HLT => [.b]
  | .ADD | .ADDQ | .SUB | .SUBQ | .NEG | .CLR | .NOT | .AND | .OR | .EOR => [.b, .w, .l]
  | .ASL | .ASR | .ROL | .ROR | .CMP | .TST | .MOVE | .MOVEQ | .INP | .DSP => [.b, .w, .l]

/-- The six addressing modes (spec/30_encoding.md R84). -/
def everyMode : List (BitVec 3) := [0b000, 0b001, 0b011, 0b100, 0b110, 0b111]

/-- The modes allowed for operand-1 (spec/30_encoding.md R94). -/
def Mnemonic.allowedModes1 : Mnemonic → List (BitVec 3)
  | .BRA | .BVS | .BEQ | .BCS | .BGE | .BLE | .MOVEA => [0b011]
  | .EXG => [0b000, 0b001]
  | .ADD | .SUB | .MULS | .DIVS | .AND | .OR | .EOR | .CMP | .MOVE => everyMode
  | .NEG | .CLR | .NOT | .TST | .INP | .DSP => everyMode
  | .ADDQ | .SUBQ | .ASL | .ASR | .ROL | .ROR | .MOVEQ | .DSR | .HLT => []

/-- The modes allowed for operand-2 (spec/30_encoding.md R94). -/
def Mnemonic.allowedModes2 : Mnemonic → List (BitVec 3)
  | .MOVEA => [0b001]
  | .EXG => [0b000, 0b001]
  | .ADD | .SUB | .MULS | .DIVS | .AND | .OR | .EOR | .CMP | .MOVE => everyMode
  | .ADDQ | .SUBQ | .ASL | .ASR | .ROL | .ROR | .MOVEQ => everyMode
  | .NEG | .CLR | .NOT | .TST | .INP | .DSP | .DSR | .HLT => []
  | .BRA | .BVS | .BEQ | .BCS | .BGE | .BLE => []

/-! ### Fields -/

/-- The size a DS field names; 11 names none (spec/30_encoding.md R83, R93). -/
def Size.ofCode (ds : BitVec 2) : Option Size :=
  match ds.toNat with
  | 0 => some .b
  | 1 => some .w
  | 2 => some .l
  | _ => none

/-- The DS code of a size (spec/30_encoding.md R83, spec/10_state.md R28). -/
def Size.code : Size → BitVec 2
  | .b => 0b00
  | .w => 0b01
  | .l => 0b10

/-- The register an N bit names (spec/30_encoding.md R85). -/
def RegNo.ofBit (n : BitVec 1) : RegNo := if n = 1 then .r1 else .r0

/-- The N bit of a register (spec/30_encoding.md R85). -/
def RegNo.bit : RegNo → BitVec 1
  | .r0 => 0
  | .r1 => 1

/-- The mode field of an operand (spec/30_encoding.md R84). -/
def Operand.mode : Operand → BitVec 3
  | .dreg _ => 0b000
  | .areg _ => 0b001
  | .noMode .m010 _ => 0b010
  | .abs _ | .absTruncated => 0b011
  | .ind _ => 0b100
  | .noMode .m101 _ => 0b101
  | .postInc _ => 0b110
  | .preDec _ => 0b111

/-- The register bit of an operand; 0 beside mode 011, where it is not considered (spec/30_encoding.md R85, R89). -/
def Operand.regBit : Operand → BitVec 1
  | .dreg n | .areg n | .ind n | .postInc n | .preDec n | .noMode _ n => n.bit
  | .abs _ | .absTruncated => 0

/-- The DS field and the P bit of an opcode word (spec/30_encoding.md R81, R82; conflict C1). -/
def opInfo (w : Word) : OpInfo := ⟨w.extractLsb' 9 2, w.getLsbD 8⟩

/-! ### The three checks (R91 to R94) -/

/-- An operand that exists carries an allowed mode (spec/30_encoding.md R94). -/
def modeAllowed (allowed : List (BitVec 3)) : Option Operand → Bool
  | none => true
  | some op => decide (op.mode ∈ allowed)

/-- Decode_Instruction's checks in their order: operand count, data size, addressing modes (spec/30_encoding.md R91 to
R94, decision D14). Answers the size, or the first failing check's error. -/
def checkOpcode (m : Mnemonic) (info : OpInfo) (op1 op2 : Option Operand) : Except ErrorKind Size :=
  if info.p = m.requiredP then
    match Size.ofCode info.ds with
    | none => .error .invalidDataSize
    | some sz =>
      if sz ∈ m.allowedSizes then
        if modeAllowed m.allowedModes1 op1 && modeAllowed m.allowedModes2 op2 then .ok sz
        else .error .invalidAddressingMode
      else .error .invalidDataSize
  else .error .invalidNbOperands

/-- The checks of an instruction as a whole. -/
def Instr.check (i : Instr) : Except ErrorKind Size := checkOpcode i.mnemonic i.info i.op1 i.op2

/-! ### The decoder -/

/-- Why bytes are no instruction. -/
inductive DecodeRefusal
  /-- fewer than the two bytes of an opcode word -/
  | truncatedOpcode
  deriving DecidableEq, Repr

/-- One operand from its mode and register fields; mode 011 takes its extension word, big-endian, from the bytes that
follow (spec/30_encoding.md R84 to R86). Answers the operand and the bytes left. -/
def readOperand (m : BitVec 3) (n : BitVec 1) (rest : List Byte) : Operand × List Byte :=
  match m.toNat with
  | 0 => (.dreg (.ofBit n), rest)
  | 1 => (.areg (.ofBit n), rest)
  | 2 => (.noMode .m010 (.ofBit n), rest)
  | 3 =>
    match rest with
    | hi :: lo :: rest => (.abs (hi ++ lo), rest)
    | rest => (.absTruncated, rest)
  | 4 => (.ind (.ofBit n), rest)
  | 5 => (.noMode .m101 (.ofBit n), rest)
  | 6 => (.postInc (.ofBit n), rest)
  | _ => (.preDec (.ofBit n), rest)

/-- Operand-1 of an F1 opcode: M1 = bits 7..5, N1 = bit 4 (spec/30_encoding.md R81). -/
def readOp1 (w : Word) (rest : List Byte) : Operand × List Byte :=
  readOperand (w.extractLsb' 5 3) (w.extractLsb' 4 1) rest

/-- Operand-2: M2 = bits 3..1, N2 = bit 0 (spec/30_encoding.md R81, R82). -/
def readOp2 (w : Word) (rest : List Byte) : Operand × List Byte :=
  readOperand (w.extractLsb' 1 3) (w.extractLsb' 0 1) rest

/-- A two-operand F1 instruction: operand-1's extension word comes first (spec/30_encoding.md R86, R88). -/
def readTwo (mk : OpInfo → Operand → Operand → Instr) (w : Word) (rest : List Byte) : Instr × List Byte :=
  let (o1, rest) := readOp1 w rest
  let (o2, rest) := readOp2 w rest
  (mk (opInfo w) o1 o2, rest)

/-- A one-operand F1 instruction: M2 and N2 are ignored (spec/30_encoding.md R88, R89). -/
def readOne (mk : OpInfo → Operand → Instr) (w : Word) (rest : List Byte) : Instr × List Byte :=
  let (o1, rest) := readOp1 w rest
  (mk (opInfo w) o1, rest)

/-- An F2 instruction: Data = bits 7..4 and operand-2 (spec/30_encoding.md R82, R88). -/
def readQuick (mk : OpInfo → BitVec 4 → Operand → Instr) (w : Word) (rest : List Byte) : Instr × List Byte :=
  let (o2, rest) := readOp2 w rest
  (mk (opInfo w) (w.extractLsb' 4 4) o2, rest)

/-- The instruction an opcode word names, with the bytes after it: total, since every opcode word names an instruction
(spec/30_encoding.md R91). DSR and HLT ignore all their operand fields (R89). -/
def decodeOpcode (w : Word) (rest : List Byte) : Instr × List Byte :=
  match Mnemonic.ofOpName (w.extractLsb' 11 5) with
  | .ADD => readTwo .add w rest
  | .ADDQ => readQuick .addq w rest
  | .SUB => readTwo .sub w rest
  | .SUBQ => readQuick .subq w rest
  | .MULS => readTwo .muls w rest
  | .DIVS => readTwo .divs w rest
  | .NEG => readOne .neg w rest
  | .CLR => readOne .clr w rest
  | .NOT => readOne .not w rest
  | .AND => readTwo .and w rest
  | .OR => readTwo .or w rest
  | .EOR => readTwo .eor w rest
  | .ASL => readQuick .asl w rest
  | .ASR => readQuick .asr w rest
  | .ROL => readQuick .rol w rest
  | .ROR => readQuick .ror w rest
  | .CMP => readTwo .cmp w rest
  | .TST => readOne .tst w rest
  | .BRA => readOne .bra w rest
  | .BVS => readOne .bvs w rest
  | .BEQ => readOne .beq w rest
  | .BCS => readOne .bcs w rest
  | .BGE => readOne .bge w rest
  | .BLE => readOne .ble w rest
  | .MOVE => readTwo .move w rest
  | .MOVEQ => readQuick .moveq w rest
  | .EXG => readTwo .exg w rest
  | .MOVEA => readTwo .movea w rest
  | .INP => readOne .inp w rest
  | .DSP => readOne .dsp w rest
  | .DSR => (.dsr (opInfo w), rest)
  | .HLT => (.hlt (opInfo w), rest)

/-- The instruction at the head of a list of bytes, and the bytes after it. The opcode word is big-endian
(spec/20_memory.md R50); its O field is bits 15..11. -/
def decode : List Byte → Except DecodeRefusal (Instr × List Byte)
  | hi :: lo :: rest => .ok (decodeOpcode (hi ++ lo) rest)
  | _ => .error .truncatedOpcode

/-! ### The encoder -/

/-- An operand reference: three mode bits and the register bit (spec/30_encoding.md R81). -/
def Operand.field (op : Operand) : BitVec 4 := op.mode ++ op.regBit

/-- The extension word of an operand of mode 011 (spec/30_encoding.md R86). -/
def Operand.extWords : Operand → List Word
  | .abs a => [a]
  | _ => []

/-- Bits 7..0 of an opcode word; unused fields are zeros (spec/30_encoding.md R81, R82, R89). -/
def Instr.operandField : Instr → BitVec 8
  | .add _ o1 o2 => o1.field ++ o2.field
  | .addq _ data o2 => data ++ o2.field
  | .sub _ o1 o2 => o1.field ++ o2.field
  | .subq _ data o2 => data ++ o2.field
  | .muls _ o1 o2 => o1.field ++ o2.field
  | .divs _ o1 o2 => o1.field ++ o2.field
  | .neg _ o1 => o1.field ++ (0 : BitVec 4)
  | .clr _ o1 => o1.field ++ (0 : BitVec 4)
  | .not _ o1 => o1.field ++ (0 : BitVec 4)
  | .and _ o1 o2 => o1.field ++ o2.field
  | .or _ o1 o2 => o1.field ++ o2.field
  | .eor _ o1 o2 => o1.field ++ o2.field
  | .asl _ data o2 => data ++ o2.field
  | .asr _ data o2 => data ++ o2.field
  | .rol _ data o2 => data ++ o2.field
  | .ror _ data o2 => data ++ o2.field
  | .cmp _ o1 o2 => o1.field ++ o2.field
  | .tst _ o1 => o1.field ++ (0 : BitVec 4)
  | .bra _ o1 => o1.field ++ (0 : BitVec 4)
  | .bvs _ o1 => o1.field ++ (0 : BitVec 4)
  | .beq _ o1 => o1.field ++ (0 : BitVec 4)
  | .bcs _ o1 => o1.field ++ (0 : BitVec 4)
  | .bge _ o1 => o1.field ++ (0 : BitVec 4)
  | .ble _ o1 => o1.field ++ (0 : BitVec 4)
  | .move _ o1 o2 => o1.field ++ o2.field
  | .moveq _ data o2 => data ++ o2.field
  | .exg _ o1 o2 => o1.field ++ o2.field
  | .movea _ o1 o2 => o1.field ++ o2.field
  | .inp _ o1 => o1.field ++ (0 : BitVec 4)
  | .dsp _ o1 => o1.field ++ (0 : BitVec 4)
  | .dsr _ => 0
  | .hlt _ => 0

/-- The opcode word: O, DS, P, then the operand fields (spec/30_encoding.md R81, R82). -/
def Instr.opcode (i : Instr) : Word :=
  i.mnemonic.opName ++ i.info.ds ++ BitVec.ofBool i.info.p ++ i.operandField

/-- The extension words of an operand an instruction may have. -/
def extWordsOf : Option Operand → List Word
  | none => []
  | some op => op.extWords

/-- The words of an instruction: the opcode, then operand-1's extension word, then operand-2's
(spec/30_encoding.md R86). -/
def encode (i : Instr) : List Word := i.opcode :: (extWordsOf i.op1 ++ extWordsOf i.op2)

/-- A word as it lies in memory, most significant byte first (spec/20_memory.md R50). -/
def wordBytes (w : Word) : List Byte := [w.extractLsb' 8 8, w.extractLsb' 0 8]

/-- Words as they lie in memory. -/
def wordsBytes (ws : List Word) : List Byte := ws.flatMap wordBytes

/-- The bytes an operand an instruction may have adds to its length: two where its mode field is 011, whether or not the
extension word is there to be read (spec/30_encoding.md R96). -/
def extBytes : Option Operand → Nat
  | none => 0
  | some op => if op.mode = 0b011 then 2 else 0

/-- The length of an instruction in bytes, from its opcode word alone: two, and two for each existing operand of mode 011
(spec/30_encoding.md R96). -/
def Instr.length (i : Instr) : Nat := 2 + extBytes i.op1 + extBytes i.op2

/-! ### The opcode table's words -/

/-- The six bytes of an instruction whose bits are `w`, numbered as spec/opcode_table.json numbers them: 16-bit words, the
first in bits 15..0, each stored big-endian; bits from `nbits` up are zero. -/
def tableBytes (nbits w : Nat) : List Byte :=
  let w := w % 2 ^ nbits
  wordsBytes [BitVec.ofNat 16 w, BitVec.ofNat 16 (w / 0x10000), BitVec.ofNat 16 (w / 0x100000000)]

/-- The instruction the decoder reads from an instruction whose bits are `w`. -/
def decodeTableWord (nbits w : Nat) : Option Instr :=
  match decode (tableBytes nbits w) with
  | .ok (i, _) => some i
  | .error _ => none

end Sys2Proof
end

