-- ==== Sys2Proof/Config.lean ====
section
/-! DEFINITION. What is fixed for the machine, and the values the spec leaves open. A constant declared opaque has no
body: nothing in Lean can evaluate it or prove what it is, so a theorem about it holds for every value. -/

namespace Sys2Proof

/-- The highest memory address, `MEM_TOP` = $1000, inclusive (spec/00_scope.md R6, spec/10_state.md R33). -/
def Config.memTop : Nat := 0x1000

/-- What a byte of memory that nothing has written reads as. DESIGN CHOICE (log 19), unsafe: the spec leaves the content
of unloaded memory open (spec/10_state.md R34, decision D20) and gives all zero as one example of its parameter. -/
def Config.unwrittenByte : Byte := 0

/-- How a byte sits in a 32-bit ALU buffer whose content was `old`: "not stated and nothing observes it"
(spec/10_state.md R30). Free (log 21). -/
opaque Config.bufferByte (old : Long) (v : Byte) : Long

/-- How a word sits in a 32-bit ALU buffer whose content was `old` (spec/10_state.md R30). Free (log 21). -/
opaque Config.bufferWord (old : Long) (v : Word) : Long

/-- The destination DIVS leaves at its `k`-th division overflow: any 32-bit value (spec/93_implementation_defined.md U3,
decision D12). Free (log 11). -/
opaque Config.divsOverflowResult (k : Nat) : Long

/-- N after the `k`-th division overflow: any value (U3, D12). Free (log 11). -/
opaque Config.divsOverflowN (k : Nat) : Bool

/-- Z after the `k`-th division overflow: any value (U3, D12). Free (log 11). -/
opaque Config.divsOverflowZ (k : Nat) : Bool

/-- What the host supplies for the `k`-th INP of a run when no draw is listed in the state: any value
(spec/47_io_and_halt.md R231, U5, decision D18). Free (log 17). -/
opaque Config.hostDraw (k : Nat) : Long

end Sys2Proof
end

