-- ==== Sys2Proof/Machine/State.lean ====
section
/-! DEFINITION. The state of a sim68k machine (spec/10_state.md section 1), as plain data, its reset, and the reasons a
step can stop. -/

namespace Sys2Proof.Machine

/-- Memory: the bytes that differ from what an unlisted address reads as, by rising address (spec/10_state.md R33). -/
abbrev Memory := List Host.Cell

/-- The canonical form of memory: addresses strictly rising, every address inside $0000..$1000, and no entry equal to what
an unlisted address reads as. -/
abbrev Memory.wf (m : Memory) : Prop :=
  m.Pairwise (fun x y => x.1 < y.1) ∧ ∀ c ∈ m, c.1 ≤ Config.memTop ∧ c.2 ≠ Config.unwrittenByte

/-- The general registers (spec/10_state.md R20, R21). -/
structure Regs where
  d0 : Long
  d1 : Long
  a0 : Long
  a1 : Long
  deriving DecidableEq, Repr

/-- The five status bits (spec/10_state.md R26): independent Booleans, not fields of a register. -/
structure Status where
  h : Bool
  n : Bool
  z : Bool
  v : Bool
  c : Bool
  deriving DecidableEq, Repr

/-- The internal registers (spec/10_state.md R28, R29, R30): the memory interface, the instruction registers and the ALU
buffers. No instruction can name one (R31). -/
structure Internal where
  mar : Word
  mdr : Long
  rw : Bool
  ds : BitVec 2
  opCode : Word
  opAddr1 : Word
  opAddr2 : Word
  tmps : Long
  tmpd : Long
  tmpr : Long
  deriving DecidableEq, Repr

/-- What a Display event names as its source: a register, or the effective address (spec/47_io_and_halt.md R233). -/
inductive DisplayRef
  | dreg (n : RegNo)
  | areg (n : RegNo)
  | mem (addr : Word)
  deriving DecidableEq, Repr

/-- An event of the output trace (spec/47_io_and_halt.md R230). -/
inductive Event
  /-- appended by DSP: the source named, its size, and its content, an n-bit value held in the low bits of a long -/
  | display (source : DisplayRef) (sz : Size) (value : Long)
  /-- appended by DSR: the five status bits, in this order -/
  | status (h n z v c : Bool)
  /-- appended by an error: its kind, the mnemonic if the opcode was decoded, and the address of the opcode
  (spec/60_exceptions.md R240) -/
  | error (kind : ErrorKind) (mnemonic : Option Mnemonic) (address : Word)
  deriving DecidableEq, Repr

/-- The whole state of the machine (spec/10_state.md section 1). The last two fields are the model's own counters. -/
structure State where
  regs : Regs
  /-- the address of the next instruction (R24) -/
  pc : Word
  status : Status
  mem : Memory
  internal : Internal
  /-- the output trace, oldest event first (spec/47_io_and_halt.md R230) -/
  trace : List Event
  /-- the draws the host has supplied and INP has not yet taken (spec/47_io_and_halt.md R231) -/
  input : List Long
  /-- the model's own: how many draws INP has taken (log 17) -/
  drawn : Nat
  /-- the model's own: how many division overflows have happened (log 11) -/
  free : Nat
  deriving DecidableEq, Repr

/-- Why a machine stops with a fault. The spec's five errors are NOT here: each has a next state (R245). -/
inductive Fault
  /-- raised by `step` on a state with H = TRUE, from which no step is taken (spec/40_cycle_and_addressing.md R120,
  spec/60_exceptions.md R257); safe: the machine is halted and has no successor (log 23) -/
  | halted
  deriving DecidableEq, Repr

/-- Why the model gives no meaning. -/
inductive Refusal
  /-- raised by an arm of `exec` whose instruction has no meaning yet; safe. No arm raises it in this model. -/
  | notModelled (mnemonic : String)
  /-- raised by `State.load`, never by a step, on a program file that does not fit in memory
  (spec/70_reset_and_hazards.md R271, U16); safe (log 4) -/
  | programTooLong
  deriving DecidableEq, Repr

/-- The internal registers after initialisation: unspecified and never read before written (spec/10_state.md R34).
DESIGN CHOICE (log 20). -/
def Internal.reset : Internal := ⟨0, 0, false, 0, 0, 0, 0, 0, 0, 0⟩

/-- The state after initialisation (spec/10_state.md R34, spec/70_reset_and_hazards.md R270), with everything the spec
leaves open as a parameter: D0, D1, A0, A1 (`INIT_REGS`), the content of memory (`INIT_MEM` and the loaded program), the
internal registers, the host's draws and the model's counters. -/
def State.initial (regs : Regs) (mem : Memory) (internal : Internal) (input : List Long) (drawn free : Nat) : State :=
  { regs, pc := 0, status := ⟨false, false, false, false, false⟩, mem, internal, trace := [], input, drawn, free }

/-- The machine right after reset: PC = $0000, the status bits FALSE, the output trace empty (spec/10_state.md R34). The
values the spec leaves open are taken all zero (DESIGN CHOICE, log 17 to 20). -/
def State.reset : State := State.initial ⟨0, 0, 0, 0⟩ [] Internal.reset [] 0 0

end Sys2Proof.Machine
end

