-- ==== Sys2Proof/Machine/Ops.lean ====
section
/-! DEFINITION. The named operations over registers, memory and the host's two streams, and the error action, which is the
whole of sim68k's exception model (spec/60_exceptions.md R245). There is no return from an error (R250), so none is
defined. -/

namespace Sys2Proof.Machine

/-! ### The outcome of a part of an instruction -/

/-- A part of an instruction either is done, with a value, or has raised an error in a state
(spec/40_cycle_and_addressing.md R121: "Every raise ends the step at once"). -/
inductive Result (α : Type) where
  | ok (a : α) (s : State)
  | raised (k : ErrorKind) (s : State)

/-- Go on with `f` unless an error was raised. -/
def Result.andThen {α β : Type} (r : Result α) (f : α → State → Result β) : Result β :=
  match r with
  | .ok a s => f a s
  | .raised k s => .raised k s

/-! ### Registers -/

/-- A write of the low bits(sz) bits of a 32-bit register: the bits above are unchanged (spec/10_state.md R23, D8, D9). -/
def setLow (sz : Size) (old : Long) (v : BitVec sz.bits) : Long :=
  match sz, v with
  | .b, v => old.extractLsb' 8 24 ++ v
  | .w, v => old.extractLsb' 16 16 ++ v
  | .l, v => v

/-- `D[n]` (spec/00_scope.md R10). -/
def State.dreg (s : State) : RegNo → Long
  | .r0 => s.regs.d0
  | .r1 => s.regs.d1

/-- `A[n]` (spec/00_scope.md R10). -/
def State.areg (s : State) : RegNo → Long
  | .r0 => s.regs.a0
  | .r1 => s.regs.a1

/-- `D[n] <- v`. -/
def State.setD (n : RegNo) (v : Long) (s : State) : State :=
  match n with
  | .r0 => { s with regs := { s.regs with d0 := v } }
  | .r1 => { s with regs := { s.regs with d1 := v } }

/-- `A[n] <- v`. -/
def State.setA (n : RegNo) (v : Long) (s : State) : State :=
  match n with
  | .r0 => { s with regs := { s.regs with a0 := v } }
  | .r1 => { s with regs := { s.regs with a1 := v } }

/-- `PC <- v`. -/
def State.setPC (v : Word) (s : State) : State := { s with pc := v }

/-- `N <- n; Z <- z; V <- v; C <- c`; H is left alone. -/
def State.setNZVC (n z v c : Bool) (s : State) : State :=
  { s with status := { s.status with n := n, z := z, v := v, c := c } }

/-- `H <- 1` (spec/40_cycle_and_addressing.md R136). -/
def State.setH (s : State) : State := { s with status := { s.status with h := true } }

/-! ### Internal registers (spec/10_state.md R28 to R30) -/

/-- A change of the internal registers only. -/
def State.updInternal (f : Internal → Internal) (s : State) : State := { s with internal := f s.internal }

/-- `DS <- ds` (spec/40_cycle_and_addressing.md R123). -/
def State.loadDS (ds : BitVec 2) (s : State) : State := s.updInternal fun i => { i with ds := ds }

/-- The two operand positions of an instruction. -/
inductive Slot
  | first
  | second
  deriving DecidableEq, Repr

/-- OpAddr1 or OpAddr2 (spec/10_state.md R29). -/
def State.opAddr (s : State) : Slot → Word
  | .first => s.internal.opAddr1
  | .second => s.internal.opAddr2

/-- `OpAddrk <- a`. -/
def State.setOpAddr (k : Slot) (a : Word) (s : State) : State :=
  match k with
  | .first => s.updInternal fun i => { i with opAddr1 := a }
  | .second => s.updInternal fun i => { i with opAddr2 := a }

/-- What a memory access of size sz at `addr` leaves in MAR, DS, RW and MDR: the datum sits in MDR's low bits, the others
are not written (spec/20_memory.md R52, R53; log 22). -/
def State.latch (sz : Size) (addr : Word) (read : Bool) (v : BitVec sz.bits) (s : State) : State :=
  s.updInternal fun i => { i with mar := addr, ds := sz.code, rw := read, mdr := setLow sz i.mdr v }

/-- How a value sits in an ALU buffer that held `old`: a long fills it; for a byte or a word it "is not stated"
(spec/10_state.md R30; log 21). -/
def bufferFill (sz : Size) (old : Long) (v : BitVec sz.bits) : Long :=
  match sz, v with
  | .b, v => Config.bufferByte old v
  | .w, v => Config.bufferWord old v
  | .l, v => v

/-- Fill TMPS (spec/40_cycle_and_addressing.md R125). -/
def State.fillS (sz : Size) (v : BitVec sz.bits) (s : State) : State :=
  s.updInternal fun i => { i with tmps := bufferFill sz i.tmps v }

/-- Fill TMPD (spec/40_cycle_and_addressing.md R125). -/
def State.fillD (sz : Size) (v : BitVec sz.bits) (s : State) : State :=
  s.updInternal fun i => { i with tmpd := bufferFill sz i.tmpd v }

/-- Put the result in TMPR (spec/40_cycle_and_addressing.md R125). -/
def State.fillR (sz : Size) (v : BitVec sz.bits) (s : State) : State :=
  s.updInternal fun i => { i with tmpr := bufferFill sz i.tmpr v }

/-! ### Memory -/

/-- The byte at address `a` (spec/10_state.md R33); an unlisted address reads as the one value log 19 names. -/
def Memory.read : Memory → Nat → Byte
  | [], _ => Config.unwrittenByte
  | (x, b) :: m, a => if x = a then b else Memory.read m a

/-- The cell of address `a` with byte `b` put before `m`, or nothing where `b` is what an unlisted address reads as. -/
def Memory.cons (a : Nat) (b : Byte) (m : Memory) : Memory :=
  if b = Config.unwrittenByte then m else (a, b) :: m

/-- `Mem[a] <- b` (spec/20_memory.md R53), keeping the canonical form. -/
def Memory.write : Memory → Nat → Byte → Memory
  | [], a, b => Memory.cons a b []
  | (x, c) :: m, a, b =>
    if a < x then Memory.cons a b ((x, c) :: m)
    else if a = x then Memory.cons a b m
    else (x, c) :: Memory.write m a b

/-- Bytes written at `a`, `a + 1`, and so on. -/
def Memory.writeBytes (m : Memory) (a : Nat) : List Byte → Memory
  | [] => m
  | b :: bs => Memory.writeBytes (Memory.write m a b) (a + 1) bs

/-- The value of size sz at address `a`, most significant byte at the lowest address (spec/20_memory.md R50, R52). -/
def Memory.value (sz : Size) (m : Memory) (a : Nat) : BitVec sz.bits :=
  match sz with
  | .b => Memory.read m a
  | .w => Memory.read m a ++ Memory.read m (a + 1)
  | .l => Memory.read m a ++ Memory.read m (a + 1) ++ Memory.read m (a + 2) ++ Memory.read m (a + 3)

/-- The bytes of a value of size sz, most significant first (spec/20_memory.md R50, R53). -/
def bytesOf (sz : Size) (v : BitVec sz.bits) : List Byte :=
  match sz, v with
  | .b, v => [v]
  | .w, v => [v.extractLsb' 8 8, v.extractLsb' 0 8]
  | .l, v => [v.extractLsb' 24 8, v.extractLsb' 16 8, v.extractLsb' 8 8, v.extractLsb' 0 8]

/-- The byte of memory at address `a` in a state. -/
def State.byteAt (s : State) (a : Nat) : Byte := Memory.read s.mem a

/-- An access of size sz at `a` lies wholly inside $0000..$1000 (spec/20_memory.md R56). -/
def inMemory (sz : Size) (a : Nat) : Bool := decide (a + sz.bytes ≤ Config.memTop + 1)

/-- `MemRead(addr, bytes(sz))` (spec/20_memory.md R52). -/
def memRead (sz : Size) (addr : Word) (s : State) : Result (BitVec sz.bits) :=
  if inMemory sz addr.toNat then
    let v := Memory.value sz s.mem addr.toNat
    .ok v (s.latch sz addr true v)
  else .raised .addressOutOfRange s

/-- A store of a value of size sz at `addr`: its bytes, and nothing else of memory. -/
def State.store (sz : Size) (addr : Word) (v : BitVec sz.bits) (s : State) : State :=
  { s with mem := Memory.writeBytes s.mem addr.toNat (bytesOf sz v) }

/-- `MemWrite(addr, bytes(sz), v)` (spec/20_memory.md R53): a write that raises changes no byte. -/
def memWrite (sz : Size) (addr : Word) (v : BitVec sz.bits) (s : State) : Result Unit :=
  if inMemory sz addr.toNat then .ok () ((s.latch sz addr false v).store sz addr v)
  else .raised .addressOutOfRange s

/-! ### The host's two streams (spec/47_io_and_halt.md R230, R231) -/

/-- Append an event to the output trace. -/
def State.emit (e : Event) (s : State) : State := { s with trace := s.trace ++ [e] }

/-- The next draw: the first one the host has supplied, else a free value (log 17). -/
def State.nextDraw (s : State) : Long :=
  match s.input with
  | [] => Config.hostDraw s.drawn
  | v :: _ => v

/-- The state after a draw is taken. -/
def State.dropDraw (s : State) : State := { s with input := s.input.tail, drawn := s.drawn + 1 }

/-- Count a division overflow, so that the next one has free values of its own (log 11). -/
def State.bumpFree (s : State) : State := { s with free := s.free + 1 }

/-! ### The error action -/

/-- `raise E(mnemonic, a)`: append the Error event, set H (spec/60_exceptions.md R245). The same for all five kinds; it
saves nothing else and transfers control nowhere (R249). -/
def raiseError (k : ErrorKind) (m : Option Mnemonic) (a : Word) (s : State) : State :=
  (s.emit (.error k m a)).setH

/-- The end of an instruction: its state, or the error action of what it raised, with its mnemonic and its opcode's
address `a` (spec/60_exceptions.md R240, R245). -/
def Result.finish (m : Mnemonic) (a : Word) (r : Result Unit) : Host.Outcome State Fault Refusal :=
  match r with
  | .ok _ s => .next s
  | .raised k s => .next (raiseError k (some m) a s)

/-! ### Loading a program (outside the step) -/

/-- The host's loading of a program before the run: byte i of the file goes to address $0000 + i; a file that does not fit
is refused (spec/70_reset_and_hazards.md R271, U16; log 4). -/
def State.load (bytes : List Byte) (s : State) : Host.Outcome State Fault Refusal :=
  if bytes.length ≤ Config.memTop + 1 then .next { s with mem := Memory.writeBytes s.mem 0 bytes }
  else .refused .programTooLong

end Sys2Proof.Machine
end

