-- ==== Sys2Proof/Machine/Flags.lean ====
section
/-! DEFINITION. What the ALU computes: each operation's result with its V and C, at any width, from the source's formulas
on the sign bits (spec/00_scope.md R11). N and Z follow from the result by the one rule `*` (`State.setFlags`). In every
formula D is the destination's old value (spec/40_cycle_and_addressing.md R125). -/

namespace Sys2Proof.Machine

/-- A result R with the V and C it comes with. -/
structure AluOut (w : Nat) where
  r : BitVec w
  v : Bool
  c : Bool

/-- The `*` rule with V and C: N = Rm, Z = (R = 0) at the result's width (spec/40_cycle_and_addressing.md R135). -/
def State.setFlags {w : Nat} (o : AluOut w) (s : State) : State := s.setNZVC o.r.msb (o.r == 0) o.v o.c

/-- V of an addition: Sm.Dm.Rm' + Sm'.Dm'.Rm (spec/41_arithmetic.md R160). -/
def addV (sm dm rm : Bool) : Bool := (sm && dm && !rm) || (!sm && !dm && rm)

/-- C of an addition: Sm.Dm + Rm'.Dm + Sm.Rm' (spec/41_arithmetic.md R160). -/
def addC (sm dm rm : Bool) : Bool := (sm && dm) || (!rm && dm) || (sm && !rm)

/-- V of a subtraction D - S: Sm'.Dm.Rm' + Sm.Dm'.Rm (spec/41_arithmetic.md R162). -/
def subV (sm dm rm : Bool) : Bool := (!sm && dm && !rm) || (sm && !dm && rm)

/-- C of a subtraction D - S: Sm.Dm' + Rm.Dm' + Sm.Rm (spec/41_arithmetic.md R162). -/
def subC (sm dm rm : Bool) : Bool := (sm && !dm) || (rm && !dm) || (sm && rm)

/-- D + S (spec/41_arithmetic.md R160, R161). -/
def aluAdd {w : Nat} (s d : BitVec w) : AluOut w :=
  let r := d + s
  ⟨r, addV s.msb d.msb r.msb, addC s.msb d.msb r.msb⟩

/-- D - S (spec/41_arithmetic.md R162, R163; spec/44_compare.md R200). -/
def aluSub {w : Nat} (s d : BitVec w) : AluOut w :=
  let r := d - s
  ⟨r, subV s.msb d.msb r.msb, subC s.msb d.msb r.msb⟩

/-- 0 - D, with V = Dm.Rm and C = Dm + Rm (spec/41_arithmetic.md R167). -/
def aluNeg {w : Nat} (d : BitVec w) : AluOut w :=
  let r := 0 - d
  ⟨r, d.msb && r.msb, d.msb || r.msb⟩

/-- A result with V and C cleared (patterns `-**00`). -/
def aluMove {w : Nat} (r : BitVec w) : AluOut w := ⟨r, false, false⟩

/-- NOT D (spec/42_logic.md R181). -/
def aluNot {w : Nat} (d : BitVec w) : AluOut w := aluMove (~~~d)

/-- D AND S (spec/42_logic.md R182). -/
def aluAnd {w : Nat} (s d : BitVec w) : AluOut w := aluMove (d &&& s)

/-- D OR S (spec/42_logic.md R183). -/
def aluOr {w : Nat} (s d : BitVec w) : AluOut w := aluMove (d ||| s)

/-- D XOR S (spec/42_logic.md R184). -/
def aluEor {w : Nat} (s d : BitVec w) : AluOut w := aluMove (d ^^^ s)

/-- D SHL r: zeros enter; V = Dm.Rm' + Dm'.Rm; C = D(m-r+1), the last bit shifted out, 0 for r = 0 and where the index
would be negative (spec/43_shift_rotate.md R191, R195, D13). -/
def aluAsl {w : Nat} (r : Nat) (d : BitVec w) : AluOut w :=
  let res := d <<< r
  ⟨res, (d.msb && !res.msb) || (!d.msb && res.msb), if r = 0 then false else if r ≤ w then d.getLsbD (w - r) else false⟩

/-- D SHR r with copies of the sign entering; C = D(r-1), 0 for r = 0 and the sign where the index exceeds m
(spec/43_shift_rotate.md R192, R195, D13). -/
def aluAsr {w : Nat} (r : Nat) (d : BitVec w) : AluOut w :=
  ⟨d.sshiftRight r, false, if r = 0 then false else if r ≤ w then d.getLsbD (r - 1) else d.msb⟩

/-- D ROL r, by r mod w places; C = D((m-r+1) mod w), 0 for r = 0 (spec/43_shift_rotate.md R193, R195, D13). -/
def aluRol {w : Nat} (r : Nat) (d : BitVec w) : AluOut w :=
  let k := r % w
  ⟨(d <<< k) ||| (d >>> (w - k)), false, if r = 0 then false else d.getLsbD ((w - k) % w)⟩

/-- D ROR r, by r mod w places; C = D((r-1) mod w), 0 for r = 0 (spec/43_shift_rotate.md R194, R195, D13). -/
def aluRor {w : Nat} (r : Nat) (d : BitVec w) : AluOut w :=
  let k := r % w
  ⟨(d >>> k) ||| (d <<< (w - k)), false, if r = 0 then false else d.getLsbD ((r - 1) % w)⟩

/-- The signed product of two words, a long: V and C cleared, N and Z from all 32 bits (spec/41_arithmetic.md R165, D10). -/
def aluMuls (s d : Word) : AluOut 32 := aluMove (BitVec.ofInt 32 (d.toInt * s.toInt))

/-- DIV: the quotient, rounded toward zero (spec/41_arithmetic.md R166, D11). -/
def divQuotient (s : Word) (d : Long) : Int := d.toInt.tdiv s.toInt

/-- MOD: what is left of the dividend (spec/41_arithmetic.md R166). -/
def divRemainder (s : Word) (d : Long) : Int := d.toInt - divQuotient s d * s.toInt

/-- Division overflow: the quotient does not fit a signed word (spec/41_arithmetic.md R166, D12). -/
def divOverflows (s : Word) (d : Long) : Bool := decide (divQuotient s d < -32768 ∨ 32767 < divQuotient s d)

/-- Remainder in the upper word, quotient in the lower; V and C cleared (spec/41_arithmetic.md R166). -/
def aluDivs (s : Word) (d : Long) : AluOut 32 :=
  aluMove (BitVec.ofInt 16 (divRemainder s d) ++ BitVec.ofInt 16 (divQuotient s d))

end Sys2Proof.Machine
end

