-- ==== Sys2Proof/Machine/Operands.lean ====
section
/-! DEFINITION. Fetch_Operands and the six addressing modes (spec/40_cycle_and_addressing.md R124 to R134): where an
operand is, its value, and a write to it. -/

namespace Sys2Proof.Machine

/-! ### Locating an operand -/

/-- `EA(v)` succeeds: the whole 32-bit value is the address and does not exceed $1000
(spec/40_cycle_and_addressing.md R129, D6). -/
def eaOk (v : Long) : Bool := decide (v.toNat ≤ Config.memTop)

/-- `OpAddrk <- EA(v)` (spec/40_cycle_and_addressing.md R129). -/
def captureEA (k : Slot) (v : Long) (s : State) : Result Unit :=
  if eaOk v then .ok () (s.setOpAddr k (v.extractLsb' 0 16)) else .raised .addressOutOfRange s

/-- The amount of a post-increment or a pre-decrement: bytes(sz) (spec/40_cycle_and_addressing.md R128, D7). -/
def stepOf (sz : Size) : Long := BitVec.ofNat 32 sz.bytes

/-- `OpAddrk <- MemRead(PC, 2); PC <- PC + 2`, where the extension word holds `a`
(spec/40_cycle_and_addressing.md R127). -/
def fetchExtension (k : Slot) (a : Word) (s : State) : State :=
  ((s.latch .w s.pc true a).setPC (s.pc + 2)).setOpAddr k a

/-- What Fetch_Operands does for operand `k` (spec/40_cycle_and_addressing.md R126 to R130). An extension word beyond the
end of memory raises AddressOutOfRange (R127); an unassigned mode never comes here (R94), and raises. -/
def locate (k : Slot) (sz : Size) (op : Operand) (s : State) : Result Unit :=
  match op with
  | .dreg _ => .ok () s
  | .areg _ => .ok () s
  | .abs a => .ok () (fetchExtension k a s)
  | .absTruncated => .raised .addressOutOfRange s
  | .ind n => captureEA k (s.areg n) s
  | .postInc n => (captureEA k (s.areg n) s).andThen fun _ t => .ok () (t.setA n (t.areg n + stepOf sz))
  | .preDec n =>
    let t := s.setA n (s.areg n - stepOf sz)
    captureEA k (t.areg n) t
  | .noMode _ _ => .raised .invalidAddressingMode s

/-- The same for an operand an instruction may have. -/
def locateOpt (k : Slot) (sz : Size) (op : Option Operand) (s : State) : Result Unit :=
  match op with
  | none => .ok () s
  | some op => locate k sz op s

/-- Fetch_Operands: operand-1 completely, then operand-2 (spec/40_cycle_and_addressing.md R124, D7). -/
def fetchOperands (sz : Size) (op1 op2 : Option Operand) (s : State) : Result Unit :=
  (locateOpt .first sz op1 s).andThen fun _ t => locateOpt .second sz op2 t

/-! ### Reading and writing an operand -/

/-- The value of operand `k` at size sz: the low bits of its register, or the bytes at OpAddrk
(spec/40_cycle_and_addressing.md R131, spec/10_state.md R23). -/
def operandValue (k : Slot) (sz : Size) (op : Operand) (s : State) : BitVec sz.bits :=
  match op with
  | .dreg n => (s.dreg n).setWidth sz.bits
  | .areg n => (s.areg n).setWidth sz.bits
  | _ => Memory.value sz s.mem (s.opAddr k).toNat

/-- The operand is a register. -/
def isReg : Operand → Bool
  | .dreg _ | .areg _ => true
  | _ => false

/-- An access of size sz to operand `k` raises nothing: it is a register, or wholly inside memory
(spec/20_memory.md R56). -/
def operandInRange (k : Slot) (sz : Size) (op : Operand) (s : State) : Bool :=
  isReg op || inMemory sz (s.opAddr k).toNat

/-- `ReadOp(k, sz)` (spec/40_cycle_and_addressing.md R131). -/
def readOp (k : Slot) (sz : Size) (op : Operand) (s : State) : Result (BitVec sz.bits) :=
  match op with
  | .dreg n => .ok ((s.dreg n).setWidth sz.bits) s
  | .areg n => .ok ((s.areg n).setWidth sz.bits) s
  | _ => memRead sz (s.opAddr k) s

/-- `WriteOp(k, sz, v)` (spec/40_cycle_and_addressing.md R132). -/
def writeOp (k : Slot) (sz : Size) (op : Operand) (v : BitVec sz.bits) (s : State) : Result Unit :=
  match op with
  | .dreg n => .ok () (s.setD n (setLow sz (s.dreg n) v))
  | .areg n => .ok () (s.setA n (setLow sz (s.areg n) v))
  | _ => memWrite sz (s.opAddr k) v s

/-- What a Display event names for operand `k` (spec/47_io_and_halt.md R233). -/
def displayRef (k : Slot) (op : Operand) (s : State) : DisplayRef :=
  match op with
  | .dreg n => .dreg n
  | .areg n => .areg n
  | _ => .mem (s.opAddr k)

end Sys2Proof.Machine
end

