-- ==== Sys2Proof/Machine/Execute.lean ====
section
/-! DEFINITION. What all instructions share: the frame of a step from Decode_Instruction on
(spec/40_cycle_and_addressing.md R121, R123 to R125) and the shapes of Execute_Instruction that several instructions have.
A meaning runs on the state Fetch_OpCode left: OpCode loaded and PC past the opcode word. -/

namespace Sys2Proof.Machine

/-- The address of the opcode being executed, in the state Fetch_OpCode left (spec/40_cycle_and_addressing.md R122). -/
def opcodeAddress (s : State) : Word := s.pc - 2

/-- One instruction after Fetch_OpCode: load DS and make the three checks, locate the operands, execute; an error at any
point ends the step with the error action (spec/40_cycle_and_addressing.md R121, spec/60_exceptions.md R245, R248). -/
def instruction (m : Mnemonic) (info : OpInfo) (op1 op2 : Option Operand) (execute : Size → State → Result Unit)
    (s : State) : Host.Outcome State Fault Refusal :=
  match checkOpcode m info op1 op2 with
  | .error k => .next (raiseError k (some m) (opcodeAddress s) (s.loadDS info.ds))
  | .ok sz =>
    ((fetchOperands sz op1 op2 (s.loadDS info.ds)).andThen fun _ t => execute sz t).finish m (opcodeAddress s)

/-- Put a result in TMPR, store it in operand `k`, and update N, Z, V, C once the store has succeeded
(spec/40_cycle_and_addressing.md R125, spec/60_exceptions.md R245: an error changes no flag). -/
def storeResult (k : Slot) (sz : Size) (dst : Operand) (o : AluOut sz.bits) (s : State) : Result Unit :=
  (writeOp k sz dst o.r (s.fillR sz o.r)).andThen fun _ t => .ok () (t.setFlags o)

/-- Read a source into TMPS (spec/40_cycle_and_addressing.md R125). -/
def readSource (k : Slot) (sz : Size) (op : Operand) (s : State) : Result (BitVec sz.bits) :=
  (readOp k sz op s).andThen fun v t => .ok v (t.fillS sz v)

/-- Read a destination's old value into TMPD (spec/40_cycle_and_addressing.md R125). -/
def readDest (k : Slot) (sz : Size) (op : Operand) (s : State) : Result (BitVec sz.bits) :=
  (readOp k sz op s).andThen fun v t => .ok v (t.fillD sz v)

/-- The immediate at size sz: Data zero-extended (spec/30_encoding.md R87). -/
def immediate (sz : Size) (data : BitVec 4) : BitVec sz.bits := data.setWidth sz.bits

/-- `S <- ReadOp(1); D <- ReadOp(2); R <- f(S, D); flags; WriteOp(2, R)`. -/
def runTwo (f : (sz : Size) → BitVec sz.bits → BitVec sz.bits → AluOut sz.bits) (src dst : Operand) (sz : Size)
    (s : State) : Result Unit :=
  (readSource .first sz src s).andThen fun sv t =>
    (readDest .second sz dst t).andThen fun dv u => storeResult .second sz dst (f sz sv dv) u

/-- `S <- zext(Data); D <- ReadOp(2); R <- f(S, D); flags; WriteOp(2, R)`. -/
def runQuick (f : (sz : Size) → BitVec sz.bits → BitVec sz.bits → AluOut sz.bits) (data : BitVec 4) (dst : Operand)
    (sz : Size) (s : State) : Result Unit :=
  (readDest .second sz dst (s.fillS sz (immediate sz data))).andThen fun dv u =>
    storeResult .second sz dst (f sz (immediate sz data) dv) u

/-- `D <- ReadOp(1); R <- f(D); flags; WriteOp(1, R)`. That TMPS keeps its content is the model's choice (log 21). -/
def runOne (f : (sz : Size) → BitVec sz.bits → AluOut sz.bits) (dst : Operand) (sz : Size) (s : State) : Result Unit :=
  (readDest .first sz dst s).andThen fun dv t => storeResult .first sz dst (f sz dv) t

/-- `r <- Data; D <- ReadOp(2); R <- f(r, D); flags; WriteOp(2, R)` (spec/43_shift_rotate.md R190). That the count r
goes to no buffer is the model's choice (log 21). -/
def runShift (f : (sz : Size) → Nat → BitVec sz.bits → AluOut sz.bits) (data : BitVec 4) (dst : Operand) (sz : Size)
    (s : State) : Result Unit :=
  (readDest .second sz dst s).andThen fun dv t => storeResult .second sz dst (f sz data.toNat dv) t

/-- `if cond then PC <- OpAddr1` (spec/45_branch.md R210). That no buffer is filled is the model's choice (log 21). -/
def runBranch (cond : Status → Bool) (s : State) : Result Unit :=
  .ok () (if cond s.status then s.setPC (s.opAddr .first) else s)

end Sys2Proof.Machine
end

