-- ==== Sys2Proof/Machine/Arithmetic.lean ====
section
/-! DEFINITION. ADD, ADDQ, SUB, SUBQ, MULS, DIVS, NEG, CLR (spec/41_arithmetic.md). -/

namespace Sys2Proof.Machine

/-- ADD S, D: D := D + S (spec/41_arithmetic.md R160). -/
def execAdd (info : OpInfo) (src dst : Operand) (s : State) : Host.Outcome State Fault Refusal :=
  instruction .ADD info (some src) (some dst) (runTwo (fun _ => aluAdd) src dst) s

/-- ADDQ data, D: D := D + data (spec/41_arithmetic.md R161). -/
def execAddq (info : OpInfo) (data : BitVec 4) (dst : Operand) (s : State) : Host.Outcome State Fault Refusal :=
  instruction .ADDQ info none (some dst) (runQuick (fun _ => aluAdd) data dst) s

/-- SUB S, D: D := D - S (spec/41_arithmetic.md R162). -/
def execSub (info : OpInfo) (src dst : Operand) (s : State) : Host.Outcome State Fault Refusal :=
  instruction .SUB info (some src) (some dst) (runTwo (fun _ => aluSub) src dst) s

/-- SUBQ data, D: D := D - data (spec/41_arithmetic.md R163). -/
def execSubq (info : OpInfo) (data : BitVec 4) (dst : Operand) (s : State) : Host.Outcome State Fault Refusal :=
  instruction .SUBQ info none (some dst) (runQuick (fun _ => aluSub) data dst) s

/-- MULS's Execute: both operands read as words, the product written as a long (spec/41_arithmetic.md R165, D10). -/
def runMuls (src dst : Operand) (s : State) : Result Unit :=
  (readSource .first .w src s).andThen fun sv t =>
    (readDest .second .w dst t).andThen fun dv u => storeResult .second .l dst (aluMuls sv dv) u

/-- MULS S, D: D.L := D.W * S.W (spec/41_arithmetic.md R165). -/
def execMuls (info : OpInfo) (src dst : Operand) (s : State) : Host.Outcome State Fault Refusal :=
  instruction .MULS info (some src) (some dst) (fun _ => runMuls src dst) s

/-- What DIVS leaves on a division overflow: V = 1, C = 0, and free values for the destination, N and Z
(spec/41_arithmetic.md R166, D12, U3; log 11). The run continues. That TMPR takes the free destination is the model's choice
(log 21). -/
def storeOverflow (dst : Operand) (s : State) : Result Unit :=
  let r := Config.divsOverflowResult s.free
  (writeOp .second .l dst r (s.fillR .l r)).andThen fun _ t =>
    .ok () (t.setNZVC (Config.divsOverflowN s.free) (Config.divsOverflowZ s.free) true false).bumpFree

/-- DIVS's Execute: both operands read as longs, the divisor is the low word of the source; a zero divisor raises, a
quotient that does not fit overflows (spec/41_arithmetic.md R166, spec/60_exceptions.md R246, D11, D12, D23). That TMPS holds
the whole long read, not the divisor, is the model's choice (log 21). -/
def runDivs (src dst : Operand) (s : State) : Result Unit :=
  (readSource .first .l src s).andThen fun sl t =>
    (readDest .second .l dst t).andThen fun dv u =>
      let sv : Word := sl.extractLsb' 0 16
      if sv = 0 then .raised .divisionByZero u
      else if divOverflows sv dv then storeOverflow dst u
      else storeResult .second .l dst (aluDivs sv dv) u

/-- DIVS S, D: LSW(D) := D.L DIV S.W; MSW(D) := D.L MOD S.W (spec/41_arithmetic.md R166). -/
def execDivs (info : OpInfo) (src dst : Operand) (s : State) : Host.Outcome State Fault Refusal :=
  instruction .DIVS info (some src) (some dst) (fun _ => runDivs src dst) s

/-- NEG D: D := 2's complement of D (spec/41_arithmetic.md R167). -/
def execNeg (info : OpInfo) (dst : Operand) (s : State) : Host.Outcome State Fault Refusal :=
  instruction .NEG info (some dst) none (runOne (fun _ => aluNeg) dst) s

/-- CLR D: D := 0; the destination is not read (spec/41_arithmetic.md R168, spec/20_memory.md R55). That
TMPS and TMPD keep their content is the model's choice (log 21). -/
def execClr (info : OpInfo) (dst : Operand) (s : State) : Host.Outcome State Fault Refusal :=
  instruction .CLR info (some dst) none (fun sz => storeResult .first sz dst (aluMove 0)) s

end Sys2Proof.Machine
end

