-- ==== Sys2Proof/Machine/Branch.lean ====
section
/-! DEFINITION. BRA, BVS, BEQ, BCS, BGE, BLE (spec/45_branch.md). The target is the extension word itself, in OpAddr1; it is
neither read from memory nor checked (R210, D24). -/

namespace Sys2Proof.Machine

/-- BRA address (spec/45_branch.md R211). -/
def execBra (info : OpInfo) (target : Operand) (s : State) : Host.Outcome State Fault Refusal :=
  instruction .BRA info (some target) none (fun _ => runBranch fun _ => true) s

/-- BVS address: if V (spec/45_branch.md R212). -/
def execBvs (info : OpInfo) (target : Operand) (s : State) : Host.Outcome State Fault Refusal :=
  instruction .BVS info (some target) none (fun _ => runBranch fun b => b.v) s

/-- BEQ address: if Z (spec/45_branch.md R213). -/
def execBeq (info : OpInfo) (target : Operand) (s : State) : Host.Outcome State Fault Refusal :=
  instruction .BEQ info (some target) none (fun _ => runBranch fun b => b.z) s

/-- BCS address: if C (spec/45_branch.md R214). -/
def execBcs (info : OpInfo) (target : Operand) (s : State) : Host.Outcome State Fault Refusal :=
  instruction .BCS info (some target) none (fun _ => runBranch fun b => b.c) s

/-- BGE address: if (N XOR V)' (spec/45_branch.md R215). -/
def execBge (info : OpInfo) (target : Operand) (s : State) : Host.Outcome State Fault Refusal :=
  instruction .BGE info (some target) none (fun _ => runBranch fun b => !(b.n ^^ b.v)) s

/-- BLE address: if (N XOR V) OR Z (spec/45_branch.md R216). -/
def execBle (info : OpInfo) (target : Operand) (s : State) : Host.Outcome State Fault Refusal :=
  instruction .BLE info (some target) none (fun _ => runBranch fun b => (b.n ^^ b.v) || b.z) s

end Sys2Proof.Machine
end

