-- ==== Sys2Proof/Machine/Compare.lean ====
section
/-! DEFINITION. CMP, TST (spec/44_compare.md). -/

namespace Sys2Proof.Machine

/-- CMP's Execute: the flags of D - S; the result goes no further than TMPR (spec/44_compare.md R200). -/
def runCmp (src dst : Operand) (sz : Size) (s : State) : Result Unit :=
  (readSource .first sz src s).andThen fun sv t =>
    (readDest .second sz dst t).andThen fun dv u =>
      .ok () ((u.fillR sz (aluSub sv dv).r).setFlags (aluSub sv dv))

/-- CMP S, D (spec/44_compare.md R200; H is not changed, conflict C3). -/
def execCmp (info : OpInfo) (src dst : Operand) (s : State) : Host.Outcome State Fault Refusal :=
  instruction .CMP info (some src) (some dst) (runCmp src dst) s

/-- TST's Execute: the flags of D (spec/44_compare.md R201). That D goes to TMPD and TMPR keeps its content is the model's
choice (log 21). -/
def runTst (dst : Operand) (sz : Size) (s : State) : Result Unit :=
  (readDest .first sz dst s).andThen fun dv t => .ok () (t.setFlags (aluMove dv))

/-- TST D (spec/44_compare.md R201; H is not changed, conflict C3). -/
def execTst (info : OpInfo) (dst : Operand) (s : State) : Host.Outcome State Fault Refusal :=
  instruction .TST info (some dst) none (runTst dst) s

end Sys2Proof.Machine
end

