-- ==== Sys2Proof/Machine/InputOutput.lean ====
section
/-! DEFINITION. INP, DSP, DSR, HLT (spec/47_io_and_halt.md). -/

namespace Sys2Proof.Machine

/-- INP's Execute: a draw of bits(sz) bits, consumed before the store; the destination is not read
(spec/47_io_and_halt.md R231, R232, conflict C8). That the draw goes to TMPR alone is the model's choice (log 21). -/
def runInp (dst : Operand) (sz : Size) (s : State) : Result Unit :=
  storeResult .first sz dst (aluMove (s.nextDraw.setWidth sz.bits)) s.dropDraw

/-- INP D: input from keyboard (spec/47_io_and_halt.md R232). -/
def execInp (info : OpInfo) (dst : Operand) (s : State) : Host.Outcome State Fault Refusal :=
  instruction .INP info (some dst) none (runInp dst) s

/-- DSP's Execute: the source and its content go to the output trace; no flag changes (spec/47_io_and_halt.md R233).
That the content passes through TMPS is the model's choice (log 21). -/
def runDsp (src : Operand) (sz : Size) (s : State) : Result Unit :=
  (readSource .first sz src s).andThen fun sv t =>
    .ok () (t.emit (.display (displayRef .first src t) sz (sv.setWidth 32)))

/-- DSP S: display the source and its content (spec/47_io_and_halt.md R233). -/
def execDsp (info : OpInfo) (src : Operand) (s : State) : Host.Outcome State Fault Refusal :=
  instruction .DSP info (some src) none (runDsp src) s

/-- DSR's Execute: the five status bits go to the output trace (spec/47_io_and_halt.md R234). -/
def runDsr (s : State) : Result Unit :=
  .ok () (s.emit (.status s.status.h s.status.n s.status.z s.status.v s.status.c))

/-- DSR: display the status bits (spec/47_io_and_halt.md R234). -/
def execDsr (info : OpInfo) (s : State) : Host.Outcome State Fault Refusal :=
  instruction .DSR info none none (fun _ => runDsr) s

/-- HLT: H := True (spec/47_io_and_halt.md R235). -/
def execHlt (info : OpInfo) (s : State) : Host.Outcome State Fault Refusal :=
  instruction .HLT info none none (fun _ t => .ok () t.setH) s

end Sys2Proof.Machine
end

