-- ==== Sys2Proof/Machine/Logic.lean ====
section
/-! DEFINITION. NOT, AND, OR, EOR (spec/42_logic.md). -/

namespace Sys2Proof.Machine

/-- NOT D: D := NOT(D) (spec/42_logic.md R181). -/
def execNot (info : OpInfo) (dst : Operand) (s : State) : Host.Outcome State Fault Refusal :=
  instruction .NOT info (some dst) none (runOne (fun _ => aluNot) dst) s

/-- AND S, D: D := D AND S (spec/42_logic.md R182). -/
def execAnd (info : OpInfo) (src dst : Operand) (s : State) : Host.Outcome State Fault Refusal :=
  instruction .AND info (some src) (some dst) (runTwo (fun _ => aluAnd) src dst) s

/-- OR S, D: D := D OR S (spec/42_logic.md R183). -/
def execOr (info : OpInfo) (src dst : Operand) (s : State) : Host.Outcome State Fault Refusal :=
  instruction .OR info (some src) (some dst) (runTwo (fun _ => aluOr) src dst) s

/-- EOR S, D: D := D XOR S (spec/42_logic.md R184). -/
def execEor (info : OpInfo) (src dst : Operand) (s : State) : Host.Outcome State Fault Refusal :=
  instruction .EOR info (some src) (some dst) (runTwo (fun _ => aluEor) src dst) s

end Sys2Proof.Machine
end

