-- ==== Sys2Proof/Machine/Shift.lean ====
section
/-! DEFINITION. ASL, ASR, ROL, ROR (spec/43_shift_rotate.md). -/

namespace Sys2Proof.Machine

/-- ASL data, D: D := D SHL data (spec/43_shift_rotate.md R191). -/
def execAsl (info : OpInfo) (data : BitVec 4) (dst : Operand) (s : State) : Host.Outcome State Fault Refusal :=
  instruction .ASL info none (some dst) (runShift (fun _ => aluAsl) data dst) s

/-- ASR data, D: D := D SHR data with the sign kept (spec/43_shift_rotate.md R192). -/
def execAsr (info : OpInfo) (data : BitVec 4) (dst : Operand) (s : State) : Host.Outcome State Fault Refusal :=
  instruction .ASR info none (some dst) (runShift (fun _ => aluAsr) data dst) s

/-- ROL data, D: D := D ROL data (spec/43_shift_rotate.md R193). -/
def execRol (info : OpInfo) (data : BitVec 4) (dst : Operand) (s : State) : Host.Outcome State Fault Refusal :=
  instruction .ROL info none (some dst) (runShift (fun _ => aluRol) data dst) s

/-- ROR data, D: D := D ROR data (spec/43_shift_rotate.md R194). -/
def execRor (info : OpInfo) (data : BitVec 4) (dst : Operand) (s : State) : Host.Outcome State Fault Refusal :=
  instruction .ROR info none (some dst) (runShift (fun _ => aluRor) data dst) s

end Sys2Proof.Machine
end

