-- ==== Sys2Proof/Machine/Transfer.lean ====
section
/-! DEFINITION. MOVE, MOVEQ, EXG, MOVEA (spec/46_transfer.md). -/

namespace Sys2Proof.Machine

/-- MOVE's Execute: the destination is not read (spec/46_transfer.md R220, spec/20_memory.md R55).
That TMPD then keeps its content is the model's choice (log 21). -/
def runMove (src dst : Operand) (sz : Size) (s : State) : Result Unit :=
  (readSource .first sz src s).andThen fun sv t => storeResult .second sz dst (aluMove sv) t

/-- MOVE S, D: D := S (spec/46_transfer.md R220). -/
def execMove (info : OpInfo) (src dst : Operand) (s : State) : Host.Outcome State Fault Refusal :=
  instruction .MOVE info (some src) (some dst) (runMove src dst) s

/-- MOVEQ data, D: D := data (spec/46_transfer.md R221). -/
def execMoveq (info : OpInfo) (data : BitVec 4) (dst : Operand) (s : State) : Host.Outcome State Fault Refusal :=
  instruction .MOVEQ info none (some dst)
    (fun sz t => storeResult .second sz dst (aluMove (immediate sz data)) (t.fillS sz (immediate sz data))) s

/-- EXG's Execute: both registers read whole, then written crosswise; V and C cleared, N, Z and H left alone
(spec/46_transfer.md R222). That operand-1 goes to TMPS, operand-2 to TMPD and TMPR keeps its content is the model's choice
(log 21). -/
def runExg (src dst : Operand) (s : State) : Result Unit :=
  (readSource .first .l src s).andThen fun x t =>
    (readDest .second .l dst t).andThen fun y u =>
      (writeOp .first .l src y u).andThen fun _ p =>
        (writeOp .second .l dst x p).andThen fun _ q =>
          .ok () (q.setNZVC q.status.n q.status.z false false)

/-- EXG S, D: S <--> D (spec/46_transfer.md R222). -/
def execExg (info : OpInfo) (src dst : Operand) (s : State) : Host.Outcome State Fault Refusal :=
  instruction .EXG info (some src) (some dst) (fun _ => runExg src dst) s

/-- MOVEA's Execute: the address itself, in OpAddr1, is written as a word; memory is not read (spec/46_transfer.md R223,
D16, D24). That the address goes to TMPR alone and TMPS keeps its content is the model's choice: R125 fills TMPS "if
necessary" (log 21). -/
def runMovea (dst : Operand) (s : State) : Result Unit :=
  storeResult .second .w dst (aluMove (s.opAddr .first)) s

/-- MOVEA address, Ai: Ai := address (spec/46_transfer.md R223). -/
def execMovea (info : OpInfo) (src dst : Operand) (s : State) : Host.Outcome State Fault Refusal :=
  instruction .MOVEA info (some src) (some dst) (fun _ => runMovea dst) s

end Sys2Proof.Machine
end

