-- ==== Sys2Proof/Machine/Dispatch.lean ====
section
/-! DEFINITION. The meaning of each instruction, one arm per constructor, in the order of spec/30_encoding.md R90. An
instruction runs on the state Fetch_OpCode left (spec/40_cycle_and_addressing.md R121). -/

namespace Sys2Proof.Machine

def exec (i : Instr) (s : State) : Host.Outcome State Fault Refusal :=
  match i with
  | .add info src dst => Sys2Proof.Machine.execAdd info src dst s
  | .addq info data dst => Sys2Proof.Machine.execAddq info data dst s
  | .sub info src dst => Sys2Proof.Machine.execSub info src dst s
  | .subq info data dst => Sys2Proof.Machine.execSubq info data dst s
  | .muls info src dst => Sys2Proof.Machine.execMuls info src dst s
  | .divs info src dst => Sys2Proof.Machine.execDivs info src dst s
  | .neg info dst => Sys2Proof.Machine.execNeg info dst s
  | .clr info dst => Sys2Proof.Machine.execClr info dst s
  | .not info dst => Sys2Proof.Machine.execNot info dst s
  | .and info src dst => Sys2Proof.Machine.execAnd info src dst s
  | .or info src dst => Sys2Proof.Machine.execOr info src dst s
  | .eor info src dst => Sys2Proof.Machine.execEor info src dst s
  | .asl info data dst => Sys2Proof.Machine.execAsl info data dst s
  | .asr info data dst => Sys2Proof.Machine.execAsr info data dst s
  | .rol info data dst => Sys2Proof.Machine.execRol info data dst s
  | .ror info data dst => Sys2Proof.Machine.execRor info data dst s
  | .cmp info src dst => Sys2Proof.Machine.execCmp info src dst s
  | .tst info dst => Sys2Proof.Machine.execTst info dst s
  | .bra info target => Sys2Proof.Machine.execBra info target s
  | .bvs info target => Sys2Proof.Machine.execBvs info target s
  | .beq info target => Sys2Proof.Machine.execBeq info target s
  | .bcs info target => Sys2Proof.Machine.execBcs info target s
  | .bge info target => Sys2Proof.Machine.execBge info target s
  | .ble info target => Sys2Proof.Machine.execBle info target s
  | .move info src dst => Sys2Proof.Machine.execMove info src dst s
  | .moveq info data dst => Sys2Proof.Machine.execMoveq info data dst s
  | .exg info src dst => Sys2Proof.Machine.execExg info src dst s
  | .movea info src dst => Sys2Proof.Machine.execMovea info src dst s
  | .inp info dst => Sys2Proof.Machine.execInp info dst s
  | .dsp info src => Sys2Proof.Machine.execDsp info src s
  | .dsr info => Sys2Proof.Machine.execDsr info s
  | .hlt info => Sys2Proof.Machine.execHlt info s

end Sys2Proof.Machine
end

