-- ==== Sys2Proof/Machine/Fetch.lean ====
section
/-! DEFINITION. Fetching an instruction's bytes (spec/40_cycle_and_addressing.md R122, R127) and storing an instruction
where the next fetch finds it. -/

namespace Sys2Proof.Machine

/-- The bytes of memory at PC, PC + 1, ..., PC + 5, as far as memory goes: an opcode and at most two extension words
(spec/30_encoding.md R80). A byte beyond $1000 does not exist (spec/20_memory.md R56). -/
def codeBytes (s : State) : List Byte :=
  (([0, 1, 2, 3, 4, 5].map (s.pc.toNat + ·)).filter (· ≤ Config.memTop)).map s.byteAt

/-- Fetch_OpCode: `OpCode <- MemRead(PC, 2); PC <- PC + 2` (spec/40_cycle_and_addressing.md R122), where both bytes are in
memory. -/
def fetchOpCode (s : State) : State :=
  let w := Memory.value .w s.mem s.pc.toNat
  ((s.latch .w s.pc true w).updInternal fun i => { i with opCode := w }).setPC (s.pc + 2)

/-- Bytes stored from address `a` on, as far as memory goes. -/
def storeCode (m : Memory) (a : Nat) : List Byte → Memory
  | [] => m
  | b :: bs => storeCode (if a ≤ Config.memTop then Memory.write m a b else m) (a + 1) bs

end Sys2Proof.Machine
end

