-- ==== Sys2Proof/Machine/Step.lean ====
section
/-! DEFINITION. One step of the machine (spec/40_cycle_and_addressing.md R120, R121), and the state in which the next step
fetches a given instruction. -/

namespace Sys2Proof.Machine

/-- One pass of the cycle. No step is taken from a halted state (R120). Where the opcode word is not wholly inside memory,
the fetch raises AddressOutOfRange with no mnemonic and PC stays (spec/60_exceptions.md R240, R245); else the opcode is
fetched, decoded and its instruction run. -/
def step (s : State) : Host.Outcome State Fault Refusal :=
  if s.status.h then .fault .halted
  else
    match decode (codeBytes s) with
    | .error .truncatedOpcode => .next (raiseError .addressOutOfRange none s.pc s)
    | .ok (i, _) => exec i (fetchOpCode s)

/-- `s` with the instruction whose bits are `w` (its six bytes, as spec/opcode_table.json numbers them) stored at PC, where
`step` fetches its next instruction; nothing else changes (log 4). -/
def State.withFetchWord (s : State) (nbits w : Nat) : State :=
  { s with mem := storeCode s.mem s.pc.toNat (tableBytes nbits w) }

end Sys2Proof.Machine
end

