-- ==== Sys2Proof/Safety.lean ====
section
/-! DEFINITION. What counts as a run's end, in the terms the claims use (spec/70_reset_and_hazards.md R273,
spec/60_exceptions.md R250). -/

namespace Sys2Proof.Machine

/-- The event reports an error. -/
def Event.isError : Event → Bool
  | .error _ _ _ => true
  | .display _ _ _ => false
  | .status _ _ _ _ _ => false

/-- The trace holds an Error event. -/
def hasError (trace : List Event) : Bool := trace.any Event.isError

/-- A run has ended: H = TRUE (spec/70_reset_and_hazards.md R273). -/
def State.halted (s : State) : Bool := s.status.h

/-- A normal end: halted, with no Error event in the trace (spec/60_exceptions.md R250). -/
def State.endedNormally (s : State) : Bool := s.status.h && !hasError s.trace

/-- An abnormal end: halted, with an Error event in the trace (spec/60_exceptions.md R250). -/
def State.endedInError (s : State) : Bool := s.status.h && hasError s.trace

/-- An Error event stands at most once, and last, in the trace (spec/60_exceptions.md R250). -/
def errorOnlyLast : List Event → Bool
  | [] => true
  | [_] => true
  | e :: es => !e.isError && errorOnlyLast es

/-- What spec/60_exceptions.md R250 says of every run: an Error event is the last of the trace, and once there is one the
machine is halted. -/
def State.traceOk (s : State) : Bool := errorOnlyLast s.trace && (!hasError s.trace || s.status.h)

/-- A state from which a run can go on or has ended as the spec says: canonical memory and a trace as R250 has it. -/
abbrev State.Sound (s : State) : Prop := s.mem.wf ∧ s.traceOk = true

end Sys2Proof.Machine
end

