-- ==== Sys2Proof/WellFormed.lean ====
section
/-! DEFINITION. Which instructions are well-formed: the valid opcodes of spec/30_encoding.md R91, each with the extension
words its operands need. Each of the four conditions has a name of its own; the first three are the checks of R92, R93 and
R94, over the tables of Decode.lean. -/

namespace Sys2Proof

/-- R92: the P bit is the one the instruction requires. -/
def Instr.nbOperandsOk (i : Instr) : Bool := i.info.p == i.mnemonic.requiredP

/-- R93: the size field names a size the instruction allows. -/
def Instr.dataSizeOk (i : Instr) : Bool :=
  match Size.ofCode i.info.ds with
  | none => false
  | some sz => decide (sz ∈ i.mnemonic.allowedSizes)

/-- R94: each operand the instruction has carries an allowed mode. -/
def Instr.modesOk (i : Instr) : Bool :=
  modeAllowed i.mnemonic.allowedModes1 i.op1 && modeAllowed i.mnemonic.allowedModes2 i.op2

/-- An operand that exists has the extension word its mode asks for. -/
def extWordPresent : Option Operand → Bool
  | some .absTruncated => false
  | _ => true

/-- R86: every extension word is there. -/
def Instr.extWordsPresent (i : Instr) : Bool := extWordPresent i.op1 && extWordPresent i.op2

/-- A well-formed instruction: a valid opcode (R91) with its extension words. -/
def Instr.wellFormed (i : Instr) : Bool :=
  i.nbOperandsOk && i.dataSizeOk && i.modesOk && i.extWordsPresent

end Sys2Proof
end

