-- ==== Sys2Proof/Certificates/Slice0/Obligations.lean ====
section
/-! DEFINITION. The statements for the provers. First the vocabulary they share (namespace Sys2Proof.Claims), then one
definition per statement. An instruction's meaning runs on the state Fetch_OpCode left, so that in every statement about
`exec i s` the opcode's address is `s.pc - 2` (spec/40_cycle_and_addressing.md R122). -/

namespace Sys2Proof.Claims

open Sys2Proof.Machine

/-- The opcode of `i` is valid at size `sz`, and Fetch_Operands takes `s` to `e`, the state in which Execute_Instruction
begins (spec/40_cycle_and_addressing.md R121, R137). What Fetch_Operands does is stated by `FetchOperandsEffect` and
`FetchOperandsSucceedsIff`. -/
structure Begins (i : Instr) (sz : Size) (s e : State) : Prop where
  valid : i.check = .ok sz
  located : fetchOperands sz i.op1 i.op2 (s.loadDS i.info.ds) = .ok () e

/-- N, Z, V, C of a state. -/
structure Flags (t : State) (n z v c : Bool) : Prop where
  n : t.status.n = n
  z : t.status.z = z
  v : t.status.v = v
  c : t.status.c = c

/-- The four flags are those of `e`. -/
def FlagsKept (e t : State) : Prop := Flags t e.status.n e.status.z e.status.v e.status.c

/-- Neither the host's draws nor the model's counters changed. -/
structure HostKept (e t : State) : Prop where
  input : t.input = e.input
  drawn : t.drawn = e.drawn
  free : t.free = e.free

/-- Registers, memory, PC, H and the output trace are those of `e`. -/
structure DataKept (e t : State) : Prop where
  d : ∀ n, t.dreg n = e.dreg n
  a : ∀ n, t.areg n = e.areg n
  byte : ∀ x, t.byteAt x = e.byteAt x
  pc : t.pc = e.pc
  h : t.status.h = e.status.h
  trace : t.trace = e.trace

/-- From `e` to `t`, operand `k` receives `v` at size `sz` and nothing else of registers, memory, PC, H and the output trace
changes: the upper bits of a register destination, every other register, and every byte of memory outside the stored ones
are as in `e`. Where the operand is in memory the address stored to is OpAddrk of `e`. That a register's upper bits stay is
the spec's decisions D8 and D9 (log 8), the byte order of an operand in memory its decision D1 (log 1): every statement about
an instruction that writes an operand rests on them. -/
structure Puts (k : Slot) (sz : Size) (op : Operand) (v : BitVec sz.bits) (e t : State) : Prop where
  value : operandValue k sz op t = v
  slot : t.opAddr k = e.opAddr k
  upperD : ∀ n j, op = .dreg n → sz.bits ≤ j → (t.dreg n).getLsbD j = (e.dreg n).getLsbD j
  upperA : ∀ n j, op = .areg n → sz.bits ≤ j → (t.areg n).getLsbD j = (e.areg n).getLsbD j
  otherD : ∀ n, op ≠ .dreg n → t.dreg n = e.dreg n
  otherA : ∀ n, op ≠ .areg n → t.areg n = e.areg n
  byte : ∀ x, isReg op = true ∨ x < (e.opAddr k).toNat ∨ (e.opAddr k).toNat + sz.bytes ≤ x → t.byteAt x = e.byteAt x
  pc : t.pc = e.pc
  h : t.status.h = e.status.h
  trace : t.trace = e.trace

/-- `t` is what the error action leaves of `u` (spec/60_exceptions.md R245): one Error event more, H set, and everything
else a program can see as in `u`. -/
structure ErrorAction (k : ErrorKind) (m : Option Mnemonic) (a : Word) (u t : State) : Prop where
  trace : t.trace = u.trace ++ [.error k m a]
  h : t.status.h = true
  flags : FlagsKept u t
  d : ∀ n, t.dreg n = u.dreg n
  a : ∀ n, t.areg n = u.areg n
  mem : t.mem = u.mem
  pc : t.pc = u.pc
  free : t.free = u.free

/-! ### Shapes of an instruction's effect -/

/-- `S, D`: D := result S D, with V and C as given from the sign bits of S, D and R. -/
def TwoOperandEffect (mk : OpInfo → Operand → Operand → Instr) (result : (w : Nat) → BitVec w → BitVec w → BitVec w)
    (v c : Bool → Bool → Bool → Bool) : Prop :=
  ∀ info src dst sz s e, Begins (mk info src dst) sz s e → s.mem.wf →
    operandInRange .first sz src e = true → operandInRange .second sz dst e = true →
    ∃ t, exec (mk info src dst) s = .next t ∧
      let S := operandValue .first sz src e
      let D := operandValue .second sz dst e
      let R := result sz.bits S D
      Puts .second sz dst R e t ∧ Flags t R.msb (R == 0) (v S.msb D.msb R.msb) (c S.msb D.msb R.msb) ∧ HostKept e t

/-- `data, D`: as `TwoOperandEffect` with S the immediate, zero-extended (spec/30_encoding.md R87). -/
def QuickEffect (mk : OpInfo → BitVec 4 → Operand → Instr) (result : (w : Nat) → BitVec w → BitVec w → BitVec w)
    (v c : Bool → Bool → Bool → Bool) : Prop :=
  ∀ info data dst sz s e, Begins (mk info data dst) sz s e → s.mem.wf → operandInRange .second sz dst e = true →
    ∃ t, exec (mk info data dst) s = .next t ∧
      let S : BitVec sz.bits := BitVec.ofNat sz.bits data.toNat
      let D := operandValue .second sz dst e
      let R := result sz.bits S D
      Puts .second sz dst R e t ∧ Flags t R.msb (R == 0) (v S.msb D.msb R.msb) (c S.msb D.msb R.msb) ∧ HostKept e t

/-- `data, D` with r = data a count: R is related to D by `result`, V is `v`, C is `c`. -/
def ShiftEffect (mk : OpInfo → BitVec 4 → Operand → Instr) (result : (w : Nat) → Nat → BitVec w → BitVec w → Prop)
    (v : Bool → Bool → Bool) (c : (w : Nat) → Nat → BitVec w → Bool) : Prop :=
  ∀ info data dst sz s e, Begins (mk info data dst) sz s e → s.mem.wf → operandInRange .second sz dst e = true →
    ∃ t R, exec (mk info data dst) s = .next t ∧
      let D := operandValue .second sz dst e
      result sz.bits data.toNat D R ∧ Puts .second sz dst R e t ∧
        Flags t R.msb (R == 0) (v D.msb R.msb) (c sz.bits data.toNat D) ∧ HostKept e t

/-- A branch: PC takes the target when `cond` holds of N, Z, V, C, else it is past the extension word; nothing else a program
can see changes. -/
def BranchEffect (mk : OpInfo → Operand → Instr) (opcode : Word) (cond : Bool → Bool → Bool → Bool → Bool) : Prop :=
  ∀ target s,
    encode (mk ⟨0b01, false⟩ (.abs target)) = [opcode, target] ∧
    ∃ t, exec (mk ⟨0b01, false⟩ (.abs target)) s = .next t ∧
      t.pc = (if cond s.status.n s.status.z s.status.v s.status.c then target else s.pc + 2) ∧
      t.status = s.status ∧ t.regs = s.regs ∧ t.mem = s.mem ∧ t.trace = s.trace ∧ HostKept s t

/-! ### Where Fetch_Operands puts the operands -/

/-- The step an operand makes to address register `n` (spec/40_cycle_and_addressing.md R128). -/
def stepBy (sz : Size) (op : Option Operand) (n : RegNo) : Long :=
  match op with
  | some (.postInc m) => if m = n then BitVec.ofNat 32 sz.bytes else 0
  | some (.preDec m) => if m = n then -BitVec.ofNat 32 sz.bytes else 0
  | _ => 0

/-- The 32-bit address an operand of mode 100, 110 or 111 forms, when the address registers hold `A`
(spec/40_cycle_and_addressing.md R126). -/
def formedAddress (sz : Size) (op : Option Operand) (A : RegNo → Long) : Option Long :=
  match op with
  | some (.ind n) => some (A n)
  | some (.postInc n) => some (A n)
  | some (.preDec n) => some (A n - BitVec.ofNat 32 sz.bytes)
  | _ => none

/-- The operand can be located when the address registers hold `A` (spec/40_cycle_and_addressing.md R126, R127, R129). -/
def Locatable (sz : Size) (op : Option Operand) (A : RegNo → Long) : Prop :=
  op ≠ some .absTruncated ∧ (∀ m n, op ≠ some (.noMode m n)) ∧
    ∀ x, formedAddress sz op A = some x → x.toNat ≤ 0x1000

/-- OpAddrk after operand `k` is located with the address registers at `A`. -/
def AddressOf (sz : Size) (op : Option Operand) (A : RegNo → Long) (a : Word) : Prop :=
  (∀ x, op = some (.abs x) → a = x) ∧ (∀ x, formedAddress sz op A = some x → a = x.extractLsb' 0 16)

/-- What locating an operand has done to address register `n` when its address then failed: only a pre-decrement steps before
the address is captured (spec/40_cycle_and_addressing.md R128, spec/60_exceptions.md R245). -/
def failedStep (sz : Size) (op : Option Operand) (n : RegNo) : Long :=
  match op with
  | some (.preDec m) => if m = n then -BitVec.ofNat 32 sz.bytes else 0
  | _ => 0

/-- How far PC moves past an operand that was located: past its extension word (spec/40_cycle_and_addressing.md R127). -/
def pastExtension : Option Operand → Word
  | some (.abs _) => 2
  | _ => 0

/-- What an operand of mode 011 is when its extension word stands at address `x`: the big-endian word there, or no word where
it is not wholly inside $0000..$1000 (spec/30_encoding.md R86; the term for that is the model's, log 26). -/
def extensionAt (s : State) (x : Nat) : Operand :=
  if x + 1 ≤ 0x1000 then .abs (s.byteAt x ++ s.byteAt (x + 1)) else .absTruncated

/-! ### Which fields an instruction has -/

/-- The instructions with an operand-1 (spec/30_encoding.md R88, spec/40_cycle_and_addressing.md R124). -/
def withOperand1 : List Mnemonic :=
  [.ADD, .SUB, .MULS, .DIVS, .AND, .OR, .EOR, .CMP, .MOVE, .EXG, .MOVEA,
    .NEG, .CLR, .NOT, .TST, .BRA, .BVS, .BEQ, .BCS, .BGE, .BLE, .INP, .DSP]

/-- The instructions with an immediate, those of format F2 (spec/30_encoding.md R80). -/
def withData : List Mnemonic := [.ADDQ, .SUBQ, .ASL, .ASR, .ROL, .ROR, .MOVEQ]

/-- The instructions with an operand-2 (spec/30_encoding.md R88, spec/40_cycle_and_addressing.md R124). -/
def withOperand2 : List Mnemonic := [.ADD, .SUB, .MULS, .DIVS, .AND, .OR, .EOR, .CMP, .MOVE, .EXG, .MOVEA] ++ withData

/-- The immediate of an instruction that has one. -/
def immediateOf : Instr → Option (BitVec 4)
  | .addq _ data _ | .subq _ data _ | .asl _ data _ | .asr _ data _ | .rol _ data _ | .ror _ data _ | .moveq _ data _ =>
    some data
  | _ => none

/-! ### What an instruction accesses and writes -/

/-- The operand accesses of an instruction's Execute, in order (spec/20_memory.md R55, spec/60_exceptions.md R248). -/
def accesses (i : Instr) (sz : Size) : List (Slot × Size × Operand) :=
  match i with
  | .add _ x y | .sub _ x y | .and _ x y | .or _ x y | .eor _ x y | .cmp _ x y | .move _ x y | .divs _ x y | .exg _ x y =>
    [(.first, sz, x), (.second, sz, y)]
  | .muls _ x y => [(.first, .w, x), (.second, .w, y), (.second, .l, y)]
  | .addq _ _ y | .subq _ _ y | .asl _ _ y | .asr _ _ y | .rol _ _ y | .ror _ _ y | .moveq _ _ y => [(.second, sz, y)]
  | .neg _ x | .clr _ x | .not _ x | .tst _ x | .inp _ x | .dsp _ x => [(.first, sz, x)]
  | .movea _ _ _ | .bra _ _ | .bvs _ _ | .beq _ _ | .bcs _ _ | .bge _ _ | .ble _ _ | .dsr _ | .hlt _ => []

/-- The operands an instruction writes, with the size of the write (spec/20_memory.md R55). -/
def destinations (i : Instr) (sz : Size) : List (Slot × Size × Operand) :=
  match i with
  | .add _ _ y | .sub _ _ y | .and _ _ y | .or _ _ y | .eor _ _ y | .move _ _ y | .divs _ _ y | .movea _ _ y =>
    [(.second, sz, y)]
  | .muls _ _ y => [(.second, .l, y)]
  | .addq _ _ y | .subq _ _ y | .asl _ _ y | .asr _ _ y | .rol _ _ y | .ror _ _ y | .moveq _ _ y => [(.second, sz, y)]
  | .neg _ x | .clr _ x | .not _ x | .inp _ x => [(.first, sz, x)]
  | .exg _ x y => [(.first, .l, x), (.second, .l, y)]
  | .cmp _ _ _ | .tst _ _ | .dsp _ _ | .bra _ _ | .bvs _ _ | .beq _ _ | .bcs _ _ | .bge _ _ | .ble _ _ | .dsr _ | .hlt _ => []

/-- The instruction updates no flag (pattern `-----` or `1----` of spec/30_encoding.md R90). -/
def leavesFlags : Instr → Bool
  | .bra .. | .bvs .. | .beq .. | .bcs .. | .bge .. | .ble .. | .dsp .. | .dsr .. | .hlt .. => true
  | _ => false

/-- The divisor of a DIVS is zero: the low word of its source (spec/60_exceptions.md R246). -/
def zeroDivisor (i : Instr) (e : State) : Prop :=
  match i with
  | .divs _ src _ => (operandValue .first .l src e).extractLsb' 0 16 = (0 : Word)
  | _ => False

/-- The instruction ended with an Error event. -/
def EndsInError (s t : State) : Prop := ∃ k m a, t.trace = s.trace ++ [.error k m a]

/-- Two states agree on everything but the internal registers (spec/10_state.md R31). -/
def SameButInternal (s t : State) : Prop := { s with internal := t.internal } = t

end Sys2Proof.Claims

section

open Sys2Proof Sys2Proof.Machine Sys2Proof.Claims

/-! ### Reset and the cycle -/

/-- spec/10_state.md R34: after initialisation PC = $0000, the five status bits are FALSE and the output trace is empty,
whatever the registers, memory, internal registers and host draws are; `State.reset` is one such state. -/
def Obligations.InitialStateIsAsTheSpecSays : Prop :=
  (∀ regs mem internal input drawn free,
    let s := State.initial regs mem internal input drawn free
    s.pc = 0x0000 ∧ s.status = ⟨false, false, false, false, false⟩ ∧ s.trace = [] ∧
      s.regs = regs ∧ s.mem = mem ∧ s.internal = internal) ∧
  ∃ regs mem internal input drawn free, State.reset = State.initial regs mem internal input drawn free

/-- The reset state has canonical memory and a trace as spec/60_exceptions.md R250 says. -/
def Obligations.ResetIsSound : Prop := State.reset.Sound

/-- No step is taken from a halted state; from every other state a step answers a next state, whatever lies in memory. That a
halted machine answers a fault is the model's choice (log 23). -/
def Obligations.StepAnswersUnlessHalted : Prop :=
  ∀ s : State, (s.status.h = true → step s = .fault .halted) ∧ (s.status.h = false → ∃ t, step s = .next t)

/-- Every instruction, well-formed or not, has a next state in every state: nothing is refused and nothing faults. That an
invalid opcode is a term of `Instr` is the model's choice (log 26). -/
def Obligations.EveryInstructionHasANextState : Prop := ∀ (i : Instr) (s : State), ∃ t, exec i s = .next t

/-- The decoder is given the bytes at PC, PC + 1, ... as far as $1000, six at most; and a step runs the instruction they decode
to, on the state Fetch_OpCode leaves: OpCode holds the word at PC, PC is past it, and everything else a program can see is as
before (spec/40_cycle_and_addressing.md R121, R122). That the decoder sees the extension words too is the model's form
(log 26). -/
def Obligations.StepRunsTheDecodedInstruction : Prop :=
  (∀ s : State, (codeBytes s).length = min 6 (0x1001 - s.pc.toNat) ∧
    ∀ k, k < (codeBytes s).length → (codeBytes s)[k]? = some (s.byteAt (s.pc.toNat + k))) ∧
  ∀ s i rest, s.status.h = false → decode (codeBytes s) = .ok (i, rest) →
    step s = exec i (fetchOpCode s) ∧
    (fetchOpCode s).pc = s.pc + 2 ∧
    (fetchOpCode s).internal.opCode = s.byteAt s.pc.toNat ++ s.byteAt (s.pc.toNat + 1) ∧
    SameButInternal { s with pc := s.pc + 2 } (fetchOpCode s)

/-- The opcode fetch raises AddressOutOfRange exactly when PC > $0FFF: no mnemonic, PC stays at the opcode's address, and
everything else is as before (spec/60_exceptions.md R245, decision D5; log 5). -/
def Obligations.OpcodeFetchBeyondMemory : Prop :=
  ∀ s : State, s.status.h = false →
    (0x0FFF < s.pc.toNat → ∃ t, step s = .next t ∧ ErrorAction .addressOutOfRange none s.pc s t ∧ HostKept s t) ∧
    (s.pc.toNat ≤ 0x0FFF → ∃ i rest, decode (codeBytes s) = .ok (i, rest))

/-- The host's word runs: where six bytes fit at PC, the step from `withFetchWord` runs what the decoder reads from it. Where
the word is placed is the model's choice (log 4). -/
def Obligations.FetchWordRuns : Prop :=
  ∀ (s : State) nbits w i, s.status.h = false → s.mem.wf → s.pc.toNat ≤ 0x0FFB → decodeTableWord nbits w = some i →
    step (s.withFetchWord nbits w) = exec i (fetchOpCode (s.withFetchWord nbits w))

/-- The loader places byte i of a file at address i and touches no other byte; a file longer than memory is refused
(spec/70_reset_and_hazards.md R271, decision D4; log 4). -/
def Obligations.LoaderPlacesTheProgram : Prop :=
  ∀ (s : State) (bytes : List Byte), s.mem.wf →
    (bytes.length ≤ 4097 → ∃ t, s.load bytes = .next t ∧ t.mem.wf ∧ (∀ i (h : i < bytes.length), t.byteAt i = bytes[i]) ∧
      (∀ x, bytes.length ≤ x → t.byteAt x = s.byteAt x) ∧ { t with mem := s.mem } = s) ∧
    (4097 < bytes.length → s.load bytes = .refused .programTooLong)

/-! ### Encoding -/

/-- A few opcode words, written out from spec/30_encoding.md's fields, decode to the instructions they stand for. -/
def Obligations.KnownWordsDecode : Prop :=
  decode [0x03, 0x01] = .ok (.add ⟨0b01, true⟩ (.dreg .r0) (.dreg .r1), []) ∧
  decode [0x08, 0x50] = .ok (.addq ⟨0b00, false⟩ 5 (.dreg .r0), []) ∧
  decode [0x92, 0x60, 0x00, 0x10] = .ok (.bra ⟨0b01, false⟩ (.abs 0x0010), []) ∧
  decode [0xC5, 0xCF] = .ok (.move ⟨0b10, true⟩ (.postInc .r0) (.preDec .r1), []) ∧
  decode [0xC3, 0x66, 0x01, 0x00, 0x01, 0x02] = .ok (.move ⟨0b01, true⟩ (.abs 0x0100) (.abs 0x0102), []) ∧
  decode [0xDB, 0x62, 0x02, 0x00] = .ok (.movea ⟨0b01, true⟩ (.abs 0x0200) (.areg .r0), [])

/-- Decode and encode agree for every well-formed instruction, whatever bytes follow. -/
def Obligations.DecodeOfEncode : Prop :=
  ∀ (i : Instr) (rest : List Byte), i.wellFormed = true → decode (wordsBytes (encode i) ++ rest) = .ok (i, rest)

/-- Every opcode word names an instruction, and each field is read from its bits: O from 15..11, DS from 10..9, P from 8; M1
from 7..5, N1 from 4 where there is an operand-1; Data from 7..4 where there is an immediate; M2 from 3..1, N2 from 0 where
there is an operand-2; N only beside a mode other than 011 (spec/30_encoding.md R81, R82, R85, R91). Which of the three an
instruction has is R88's; its length follows from the word alone (R96, decision D3; log 3). -/
def Obligations.EveryOpcodeWordDecodes : Prop :=
  ∀ (w : Word) (rest : List Byte), ∃ i rest', decode (w.extractLsb' 8 8 :: w.extractLsb' 0 8 :: rest) = .ok (i, rest') ∧
    i.mnemonic.opName = w.extractLsb' 11 5 ∧ i.info.ds = w.extractLsb' 9 2 ∧ i.info.p = w.getLsbD 8 ∧
    (i.op1 ≠ none ↔ i.mnemonic ∈ withOperand1) ∧ (immediateOf i ≠ none ↔ i.mnemonic ∈ withData) ∧
    (i.op2 ≠ none ↔ i.mnemonic ∈ withOperand2) ∧
    (∀ op, i.op1 = some op → op.mode = w.extractLsb' 5 3 ∧ (op.mode ≠ 0b011 → op.regBit = w.extractLsb' 4 1)) ∧
    (∀ data, immediateOf i = some data → data = w.extractLsb' 4 4) ∧
    (∀ op, i.op2 = some op → op.mode = w.extractLsb' 1 3 ∧ (op.mode ≠ 0b011 → op.regBit = w.extractLsb' 0 1)) ∧
    i.length = 2 + (if i.mnemonic ∈ withOperand1 ∧ w.extractLsb' 5 3 = (0b011 : BitVec 3) then 2 else 0) +
      (if i.mnemonic ∈ withOperand2 ∧ w.extractLsb' 1 3 = (0b011 : BitVec 3) then 2 else 0)

/-- The fields an instruction does not use change nothing (decision D15, log 14): all of bits 7..0 for DSR and HLT, bits 3..0
for a one-operand F1 instruction, the N bit beside mode 011. -/
def Obligations.UnusedFieldsAreIgnored : Prop :=
  (∀ (w u : Word) rest, w.extractLsb' 8 8 = u.extractLsb' 8 8 → w.extractLsb' 12 4 = (0b1111 : BitVec 4) →
    decodeOpcode w rest = decodeOpcode u rest) ∧
  (∀ (w u : Word) rest i r, w.extractLsb' 4 12 = u.extractLsb' 4 12 → decodeOpcode w rest = (i, r) → i.op2 = none →
    i.op1 ≠ none → decodeOpcode u rest = (i, r)) ∧
  (∀ n m rest, readOperand 0b011 n rest = readOperand 0b011 m rest)

/-- The opcode map of spec/30_encoding.md R90, row by row: OpName, P and sizes; the modes R94 allows each operand; and that an
opcode is valid, at the size its DS field names, exactly when it agrees with them (R92 to R94). -/
def Obligations.OpcodeMapIsTheSpecs : Prop :=
  [Mnemonic.ADD, .ADDQ, .SUB, .SUBQ, .MULS, .DIVS, .NEG, .CLR, .NOT, .AND, .OR, .EOR, .ASL, .ASR, .ROL, .ROR, .CMP, .TST,
    .BRA, .BVS, .BEQ, .BCS, .BGE, .BLE, .MOVE, .MOVEQ, .EXG, .MOVEA, .INP, .DSP, .DSR, .HLT].map
      (fun m => (m.opName.toNat, m.requiredP, m.allowedSizes)) =
  [(0, true, [.b, .w, .l]), (1, false, [.b, .w, .l]), (2, true, [.b, .w, .l]), (3, false, [.b, .w, .l]), (4, true, [.w]),
    (5, true, [.l]), (6, false, [.b, .w, .l]), (7, false, [.b, .w, .l]), (8, false, [.b, .w, .l]), (9, true, [.b, .w, .l]),
    (10, true, [.b, .w, .l]), (11, true, [.b, .w, .l]), (12, false, [.b, .w, .l]), (13, false, [.b, .w, .l]),
    (14, false, [.b, .w, .l]), (15, false, [.b, .w, .l]), (16, true, [.b, .w, .l]), (17, false, [.b, .w, .l]),
    (18, false, [.w]), (19, false, [.w]), (20, false, [.w]), (21, false, [.w]), (22, false, [.w]), (23, false, [.w]),
    (24, true, [.b, .w, .l]), (25, false, [.b, .w, .l]), (26, true, [.l]), (27, true, [.w]), (28, false, [.b, .w, .l]),
    (29, false, [.b, .w, .l]), (30, false, [.b]), (31, false, [.b])] ∧
  (∀ m ∈ [Mnemonic.ADD, .SUB, .MULS, .DIVS, .AND, .OR, .EOR, .CMP, .MOVE, .NEG, .CLR, .NOT, .TST, .INP, .DSP],
    m.allowedModes1 = [0b000, 0b001, 0b011, 0b100, 0b110, 0b111]) ∧
  (∀ m ∈ [Mnemonic.ADD, .SUB, .MULS, .DIVS, .AND, .OR, .EOR, .CMP, .MOVE, .ADDQ, .SUBQ, .ASL, .ASR, .ROL, .ROR, .MOVEQ],
    m.allowedModes2 = [0b000, 0b001, 0b011, 0b100, 0b110, 0b111]) ∧
  (∀ m ∈ [Mnemonic.BRA, .BVS, .BEQ, .BCS, .BGE, .BLE, .MOVEA], m.allowedModes1 = [0b011]) ∧
  Mnemonic.allowedModes2 .MOVEA = [0b001] ∧
  Mnemonic.allowedModes1 .EXG = [0b000, 0b001] ∧ Mnemonic.allowedModes2 .EXG = [0b000, 0b001] ∧
  ∀ (i : Instr) sz, i.check = .ok sz ↔
    i.info.p = i.mnemonic.requiredP ∧ sz.code = i.info.ds ∧ sz ∈ i.mnemonic.allowedSizes ∧
    (∀ op, i.op1 = some op → op.mode ∈ i.mnemonic.allowedModes1) ∧
    (∀ op, i.op2 = some op → op.mode ∈ i.mnemonic.allowedModes2)

/-! ### Memory and the internal registers -/

/-- What is stored is read back at the same size, byte by byte most significant first, and every byte outside the stored ones
is as before; a store outside memory raises and changes nothing. The byte order and the range are the spec's decisions D1 and
D5 (log 1, log 5). -/
def Obligations.StoreThenLoad : Prop :=
  ∀ sz (a : Word) (v : BitVec sz.bits) (s : State), s.mem.wf →
    (a.toNat + sz.bytes ≤ 0x1001 → ∃ t, memWrite sz a v s = .ok () t ∧ t.mem.wf ∧
      (∃ u, memRead sz a t = .ok v u ∧ u.mem = t.mem) ∧
      (∀ k, k < sz.bytes → (t.byteAt (a.toNat + k)).toNat = v.toNat / 2 ^ (8 * (sz.bytes - 1 - k)) % 256) ∧
      ∀ x, x < a.toNat ∨ a.toNat + sz.bytes ≤ x → t.byteAt x = s.byteAt x) ∧
    (0x1001 < a.toNat + sz.bytes → memWrite sz a v s = .raised .addressOutOfRange s ∧
      memRead sz a s = .raised .addressOutOfRange s)

/-- A memory access loads MAR with the address, DS with the size's code, RW with TRUE for a read and FALSE for a write, and
MDR's low bits with the datum (spec/20_memory.md R52, R53). That MDR's upper bits stay is DEDUCED (log 22). -/
def Obligations.AccessLoadsTheMemoryInterface : Prop :=
  ∀ sz (a : Word) (v : BitVec sz.bits) (s : State), a.toNat + sz.bytes ≤ 0x1001 →
    (∃ x t, memRead sz a s = .ok x t ∧ t.internal.mar = a ∧ t.internal.ds = sz.code ∧ t.internal.rw = true ∧
      t.internal.mdr.setWidth sz.bits = x ∧ ∀ j, sz.bits ≤ j → t.internal.mdr.getLsbD j = s.internal.mdr.getLsbD j) ∧
    (∃ t, memWrite sz a v s = .ok () t ∧ t.internal.mar = a ∧ t.internal.ds = sz.code ∧ t.internal.rw = false ∧
      t.internal.mdr.setWidth sz.bits = v ∧ ∀ j, sz.bits ≤ j → t.internal.mdr.getLsbD j = s.internal.mdr.getLsbD j)

/-- A long ADD leaves S in TMPS, D in TMPD and R in TMPR (spec/10_state.md R30); which value goes where for an instruction
the spec's template does not spell out is the model's (log 21). -/
def Obligations.LongAddFillsTheAluBuffers : Prop :=
  ∀ info src dst s e, Begins (.add info src dst) .l s e → operandInRange .first .l src e = true →
    operandInRange .second .l dst e = true →
    ∃ t, exec (.add info src dst) s = .next t ∧ t.internal.tmps = operandValue .first .l src e ∧
      t.internal.tmpd = operandValue .second .l dst e ∧ t.internal.tmpr = t.internal.tmpd + t.internal.tmps

/-! ### Fetch_Operands -/

/-- What Fetch_Operands does when it succeeds: data registers, memory, status, trace and host state are as before, PC is past
the extension words, each address register is stepped by the operands' post-increments and pre-decrements (bytes of the size
each), and OpAddr1 and OpAddr2 hold the operands' addresses, operand-2's formed after operand-1's step (decisions D3, D6, D7;
log 3, 6, 7). -/
def Obligations.FetchOperandsEffect : Prop :=
  ∀ i sz s e, Begins i sz s e →
    (∀ n, e.dreg n = s.dreg n) ∧ e.mem = s.mem ∧ e.status = s.status ∧ e.trace = s.trace ∧ HostKept s e ∧
    e.pc = s.pc - 2 + BitVec.ofNat 16 i.length ∧
    (∀ n, e.areg n = s.areg n + stepBy sz i.op1 n + stepBy sz i.op2 n) ∧
    AddressOf sz i.op1 s.areg (e.opAddr .first) ∧
    AddressOf sz i.op2 (fun n => s.areg n + stepBy sz i.op1 n) (e.opAddr .second)

/-- Fetch_Operands of a valid opcode succeeds exactly when both operands can be located: neither is `.absTruncated`, the
model's term for a mode 011 whose extension word is not wholly in memory (log 26; `ExtensionWordFetch` says when an operand is
that term), and each 32-bit address formed is at most $1000 (decision D6, log 6). -/
def Obligations.FetchOperandsSucceedsIff : Prop :=
  ∀ i sz s, i.check = .ok sz →
    ((∃ e, Begins i sz s e) ↔
      Locatable sz i.op1 s.areg ∧ Locatable sz i.op2 (fun n => s.areg n + stepBy sz i.op1 n))

/-! ### Arithmetic -/

/-- ADD and SUB (spec/41_arithmetic.md R160, R162), every operand form and size: result, N, Z, V, C and frame. The frame from
`s` to `e` is `FetchOperandsEffect`. -/
def Obligations.AddAndSubEffect : Prop :=
  TwoOperandEffect .add (fun _ S D => D + S)
    (fun sm dm rm => (sm && dm && !rm) || (!sm && !dm && rm)) (fun sm dm rm => (sm && dm) || (!rm && dm) || (sm && !rm)) ∧
  TwoOperandEffect .sub (fun _ S D => D - S)
    (fun sm dm rm => (!sm && dm && !rm) || (sm && !dm && rm)) (fun sm dm rm => (sm && !dm) || (rm && !dm) || (sm && rm))

/-- ADDQ and SUBQ (spec/41_arithmetic.md R161, R163): the immediate, zero-extended, added to or subtracted from the
destination, every operand form and size: result, N, Z, V, C and frame. -/
def Obligations.AddqAndSubqEffect : Prop :=
  QuickEffect .addq (fun _ S D => D + S)
    (fun sm dm rm => (sm && dm && !rm) || (!sm && !dm && rm)) (fun sm dm rm => (sm && dm) || (!rm && dm) || (sm && !rm)) ∧
  QuickEffect .subq (fun _ S D => D - S)
    (fun sm dm rm => (!sm && dm && !rm) || (sm && !dm && rm)) (fun sm dm rm => (sm && !dm) || (rm && !dm) || (sm && rm))

/-- The sign-bit formulas are the ordinary carry, borrow and two's-complement overflow: the spec's own inference from its
formulas (spec/41_arithmetic.md R164, which it marks as derived from R160 and R162). -/
def Obligations.CarryAndOverflowMeaning : Prop :=
  ∀ w (S D : BitVec w), 0 < w →
    ((aluAdd S D).c = true ↔ 2 ^ w ≤ S.toNat + D.toNat) ∧
    ((aluAdd S D).v = true ↔ D.toInt + S.toInt < -2 ^ (w - 1) ∨ 2 ^ (w - 1) ≤ D.toInt + S.toInt) ∧
    ((aluSub S D).c = true ↔ D.toNat < S.toNat) ∧
    ((aluSub S D).v = true ↔ D.toInt - S.toInt < -2 ^ (w - 1) ∨ 2 ^ (w - 1) ≤ D.toInt - S.toInt)

/-- MULS (spec/41_arithmetic.md R165): the exact signed product of the two words is written as a long, N and Z from its 32
bits, V and C cleared. The width of the write and of N and Z is the spec's decision D10 (log 9). -/
def Obligations.MulsEffect : Prop :=
  ∀ info src dst sz s e, Begins (.muls info src dst) sz s e → s.mem.wf →
    operandInRange .first .w src e = true → operandInRange .second .l dst e = true →
    ∃ t R, exec (.muls info src dst) s = .next t ∧
      R.toInt = (operandValue .second .w dst e).toInt * (operandValue .first .w src e).toInt ∧
      Puts .second .l dst R e t ∧ Flags t R.msb (R == 0) false false ∧ HostKept e t

/-- DIVS without overflow (spec/41_arithmetic.md R166): the quotient, rounded toward zero, in the low word, the remainder in
the high word; N and Z from the 32 bits; V and C cleared. The rounding and the operand widths are decision D11 (log 10). -/
def Obligations.DivsEffect : Prop :=
  ∀ info src dst sz s e, Begins (.divs info src dst) sz s e → s.mem.wf →
    operandInRange .first .l src e = true → operandInRange .second .l dst e = true →
    let S : Word := (operandValue .first .l src e).extractLsb' 0 16
    let D : Long := operandValue .second .l dst e
    S ≠ 0 → -32768 ≤ D.toInt.tdiv S.toInt → D.toInt.tdiv S.toInt ≤ 32767 →
    ∃ t R, exec (.divs info src dst) s = .next t ∧
      (R.extractLsb' 0 16).toInt = D.toInt.tdiv S.toInt ∧
      (R.extractLsb' 16 16).toInt = D.toInt - D.toInt.tdiv S.toInt * S.toInt ∧
      Puts .second .l dst R e t ∧ Flags t R.msb (R == 0) false false ∧ HostKept e t

/-- DIVS with a quotient outside a signed word (decision D12, log 11): V = 1, C = 0, H unchanged and the run goes on; the
destination, N and Z hold free values, whatever they are; nothing else changes but the model's own counter. -/
def Obligations.DivsOverflowEffect : Prop :=
  ∀ info src dst sz s e, Begins (.divs info src dst) sz s e → s.mem.wf →
    operandInRange .first .l src e = true → operandInRange .second .l dst e = true →
    let S : Word := (operandValue .first .l src e).extractLsb' 0 16
    let D : Long := operandValue .second .l dst e
    S ≠ 0 → (D.toInt.tdiv S.toInt < -32768 ∨ 32767 < D.toInt.tdiv S.toInt) →
    ∃ t, exec (.divs info src dst) s = .next t ∧
      Puts .second .l dst (Config.divsOverflowResult s.free) e t ∧
      Flags t (Config.divsOverflowN s.free) (Config.divsOverflowZ s.free) true false ∧
      t.input = s.input ∧ t.drawn = s.drawn ∧ t.free = s.free + 1

/-- DIVS by zero (spec/60_exceptions.md R246): the low word of the source is zero, both operands could be read; the error
DivisionByZero is raised with the destination, memory and the flags as they were (decision D23, log 10). -/
def Obligations.DivisionByZeroRaises : Prop :=
  ∀ info src dst sz s e, Begins (.divs info src dst) sz s e →
    operandInRange .first .l src e = true → operandInRange .second .l dst e = true →
    (operandValue .first .l src e).extractLsb' 0 16 = (0 : Word) →
    ∃ t, exec (.divs info src dst) s = .next t ∧ ErrorAction .divisionByZero (some .DIVS) (s.pc - 2) e t

/-- NEG (spec/41_arithmetic.md R167): R = 0 - D; V is 1 exactly for the most negative value, C is 0 exactly for D = 0. -/
def Obligations.NegEffect : Prop :=
  ∀ info dst sz s e, Begins (.neg info dst) sz s e → s.mem.wf → operandInRange .first sz dst e = true →
    ∃ t, exec (.neg info dst) s = .next t ∧
      let D := operandValue .first sz dst e
      let R := 0 - D
      Puts .first sz dst R e t ∧
        Flags t R.msb (R == 0) (decide (D.toNat = 2 ^ (sz.bits - 1))) (decide (D ≠ 0)) ∧ HostKept e t

/-- CLR (spec/41_arithmetic.md R168): the destination is 0, N = 0, Z = 1, V = 0, C = 0. -/
def Obligations.ClrEffect : Prop :=
  ∀ info dst sz s e, Begins (.clr info dst) sz s e → s.mem.wf → operandInRange .first sz dst e = true →
    ∃ t, exec (.clr info dst) s = .next t ∧ Puts .first sz dst 0 e t ∧ Flags t false true false false ∧ HostKept e t

/-! ### Logic, shifts and rotates -/

/-- AND, OR and EOR (spec/42_logic.md R182 to R184), bit by bit; V and C cleared. -/
def Obligations.AndOrEorEffect : Prop :=
  TwoOperandEffect .and (fun _ S D => D &&& S) (fun _ _ _ => false) (fun _ _ _ => false) ∧
  TwoOperandEffect .or (fun _ S D => D ||| S) (fun _ _ _ => false) (fun _ _ _ => false) ∧
  TwoOperandEffect .eor (fun _ S D => D ^^^ S) (fun _ _ _ => false) (fun _ _ _ => false)

/-- NOT (spec/42_logic.md R181): every bit inverted, that is D xor (2^n - 1); V and C cleared. -/
def Obligations.NotEffect : Prop :=
  ∀ info dst sz s e, Begins (.not info dst) sz s e → s.mem.wf → operandInRange .first sz dst e = true →
    ∃ t, exec (.not info dst) s = .next t ∧
      let R := operandValue .first sz dst e ^^^ BitVec.allOnes sz.bits
      Puts .first sz dst R e t ∧ Flags t R.msb (R == 0) false false ∧ HostKept e t

/-- ASL (spec/43_shift_rotate.md R191): R = D * 2^r mod 2^n; V compares the first and the last sign; C is the last bit
shifted out. C for a count above the width is decision D13 (log 12). -/
def Obligations.AslEffect : Prop :=
  ShiftEffect .asl (fun w r D R => R.toNat = D.toNat * 2 ^ r % 2 ^ w) (fun dm rm => (dm && !rm) || (!dm && rm))
    (fun w r D => if r = 0 then false else if r ≤ w then D.getLsbD (w - r) else false)

/-- ASR (spec/43_shift_rotate.md R192): R is D / 2^r rounded toward minus infinity; V cleared; C is the last bit shifted out.
C for a count above the width is decision D13 (log 12). -/
def Obligations.AsrEffect : Prop :=
  ShiftEffect .asr (fun _ r D R => R.toInt = D.toInt.fdiv (2 ^ r)) (fun _ _ => false)
    (fun w r D => if r = 0 then false else if r ≤ w then D.getLsbD (r - 1) else D.msb)

/-- ROL and ROR (spec/43_shift_rotate.md R193, R194): bit j goes to place (j + r) mod n, or comes from it; V cleared; C is the
bit that arrived last, R[0] for ROL and R[m] for ROR, and 0 for r = 0. C for a count above the width is decision D13
(log 12). -/
def Obligations.RotateEffect : Prop :=
  ShiftEffect .rol (fun w r D R => ∀ j, j < w → R.getLsbD ((j + r) % w) = D.getLsbD j) (fun _ _ => false)
    (fun w r D => if r = 0 then false else D.getLsbD ((w - r % w) % w)) ∧
  ShiftEffect .ror (fun w r D R => ∀ j, j < w → R.getLsbD j = D.getLsbD ((j + r) % w)) (fun _ _ => false)
    (fun w r D => if r = 0 then false else D.getLsbD ((r - 1) % w))

/-! ### Comparison and branches -/

/-- CMP (spec/44_compare.md R200): the flags of D - S as SUB gives them, and nothing written. -/
def Obligations.CmpEffect : Prop :=
  ∀ info src dst sz s e, Begins (.cmp info src dst) sz s e →
    operandInRange .first sz src e = true → operandInRange .second sz dst e = true →
    ∃ t, exec (.cmp info src dst) s = .next t ∧
      let S := operandValue .first sz src e
      let D := operandValue .second sz dst e
      let R := D - S
      DataKept e t ∧ HostKept e t ∧
        Flags t R.msb (R == 0) ((!S.msb && D.msb && !R.msb) || (S.msb && !D.msb && R.msb))
          ((S.msb && !D.msb) || (R.msb && !D.msb) || (S.msb && R.msb))

/-- TST (spec/44_compare.md R201): N = Dm, Z = (D = 0), V and C cleared, and nothing written. -/
def Obligations.TstEffect : Prop :=
  ∀ info dst sz s e, Begins (.tst info dst) sz s e → operandInRange .first sz dst e = true →
    ∃ t, exec (.tst info dst) s = .next t ∧
      let D := operandValue .first sz dst e
      DataKept e t ∧ HostKept e t ∧ Flags t D.msb (D == 0) false false

/-- BRA (spec/45_branch.md R211): PC := address, always; no status bit changes. -/
def Obligations.BraEffect : Prop := BranchEffect .bra 0x9260 (fun _ _ _ _ => true)

/-- BVS, BEQ and BCS (spec/45_branch.md R212 to R214): PC := address if V, if Z, if C, else the next instruction. -/
def Obligations.OneBitBranchEffect : Prop :=
  BranchEffect .bvs 0x9A60 (fun _ _ v _ => v) ∧ BranchEffect .beq 0xA260 (fun _ z _ _ => z) ∧
  BranchEffect .bcs 0xAA60 (fun _ _ _ c => c)

/-- BGE and BLE (spec/45_branch.md R215, R216): PC := address if (N XOR V)', if (N XOR V) OR Z. -/
def Obligations.SignedBranchEffect : Prop :=
  BranchEffect .bge 0xB260 (fun n _ v _ => !(n ^^ v)) ∧ BranchEffect .ble 0xBA60 (fun n z v _ => (n ^^ v) || z)

/-- After CMP S, D: BEQ is taken iff D = S, BCS iff D < S unsigned, BGE iff D >= S signed, BLE iff D <= S signed
(spec/45_branch.md R213 to R216). -/
def Obligations.CompareThenBranch : Prop :=
  ∀ info src dst sz s e t target u, Begins (.cmp info src dst) sz s e →
    operandInRange .first sz src e = true → operandInRange .second sz dst e = true →
    exec (.cmp info src dst) s = .next t → u.status = t.status →
    let S := operandValue .first sz src e
    let D := operandValue .second sz dst e
    (∃ x, exec (.beq ⟨0b01, false⟩ (.abs target)) u = .next x ∧ x.pc = if D = S then target else u.pc + 2) ∧
    (∃ x, exec (.bcs ⟨0b01, false⟩ (.abs target)) u = .next x ∧ x.pc = if D.toNat < S.toNat then target else u.pc + 2) ∧
    (∃ x, exec (.bge ⟨0b01, false⟩ (.abs target)) u = .next x ∧ x.pc = if S.toInt ≤ D.toInt then target else u.pc + 2) ∧
    (∃ x, exec (.ble ⟨0b01, false⟩ (.abs target)) u = .next x ∧ x.pc = if D.toInt ≤ S.toInt then target else u.pc + 2)

/-! ### Transfer -/

/-- MOVE (spec/46_transfer.md R220): D := S, N and Z from it, V and C cleared. -/
def Obligations.MoveEffect : Prop :=
  ∀ info src dst sz s e, Begins (.move info src dst) sz s e → s.mem.wf →
    operandInRange .first sz src e = true → operandInRange .second sz dst e = true →
    ∃ t, exec (.move info src dst) s = .next t ∧
      let S := operandValue .first sz src e
      Puts .second sz dst S e t ∧ Flags t S.msb (S == 0) false false ∧ HostKept e t

/-- MOVEQ (spec/46_transfer.md R221): D := data, 0 to 15; N = 0 always, Z = (data = 0), V and C cleared. -/
def Obligations.MoveqEffect : Prop :=
  ∀ info data dst sz s e, Begins (.moveq info data dst) sz s e → s.mem.wf → operandInRange .second sz dst e = true →
    ∃ t, exec (.moveq info data dst) s = .next t ∧
      Puts .second sz dst (BitVec.ofNat sz.bits data.toNat) e t ∧ Flags t false (data == 0) false false ∧ HostKept e t

/-- EXG (spec/46_transfer.md R222): the two registers change places whole, every other register is as before, V and C are
cleared, N, Z, H and the rest are unchanged. Both operands are registers, or the opcode is not valid. -/
def Obligations.ExgEffect : Prop :=
  ∀ info src dst s, (Instr.exg info src dst).check = .ok .l →
    isReg src = true ∧ isReg dst = true ∧
    ∃ t, exec (.exg info src dst) s = .next t ∧
      operandValue .second .l dst t = operandValue .first .l src s ∧
      operandValue .first .l src t = operandValue .second .l dst s ∧
      (∀ n, src ≠ .dreg n → dst ≠ .dreg n → t.dreg n = s.dreg n) ∧
      (∀ n, src ≠ .areg n → dst ≠ .areg n → t.areg n = s.areg n) ∧
      t.mem = s.mem ∧ t.pc = s.pc ∧ t.trace = s.trace ∧ t.status.h = s.status.h ∧
      Flags t s.status.n s.status.z false false ∧ HostKept s t

/-- MOVEA (spec/46_transfer.md R223): the low word of Ai takes the address itself and N and Z describe it, whatever
memory holds; no other register changes. That Ai's upper half stays is decision D16 (log 8). -/
def Obligations.MoveaEffect : Prop :=
  ∀ n a s, ∃ t, exec (.movea ⟨0b01, true⟩ (.abs a) (.areg n)) s = .next t ∧
    t.areg n = (s.areg n).extractLsb' 16 16 ++ a ∧ (∀ m, m ≠ n → t.areg m = s.areg m) ∧ (∀ m, t.dreg m = s.dreg m) ∧
    t.mem = s.mem ∧ t.pc = s.pc + 2 ∧ t.status.h = s.status.h ∧ t.trace = s.trace ∧
    Flags t a.msb (a == 0) false false ∧ HostKept s t

/-! ### Input, output, halt -/

/-- INP (spec/47_io_and_halt.md R232): the destination takes the next draw at the instruction's size, N and Z describe it, V
and C are cleared, and one draw is consumed. The draw is the first the host has supplied, else a free value (log 17). -/
def Obligations.InpEffect : Prop :=
  ∀ info dst sz s e, Begins (.inp info dst) sz s e → s.mem.wf → operandInRange .first sz dst e = true →
    ∃ t, exec (.inp info dst) s = .next t ∧
      let draw : BitVec sz.bits := (s.input.headD (Config.hostDraw s.drawn)).setWidth sz.bits
      Puts .first sz dst draw e t ∧ Flags t draw.msb (draw == 0) false false ∧
        t.input = s.input.tail ∧ t.drawn = s.drawn + 1 ∧ t.free = s.free

/-- DSP (spec/47_io_and_halt.md R233): one Display event with the source's name (a register, or the effective address), the
size and the content; nothing else changes. Events are decision D18 (log 16). -/
def Obligations.DspEffect : Prop :=
  ∀ info src sz s e, Begins (.dsp info src) sz s e → operandInRange .first sz src e = true →
    ∃ t ref, exec (.dsp info src) s = .next t ∧
      (∀ n, src = .dreg n → ref = .dreg n) ∧ (∀ n, src = .areg n → ref = .areg n) ∧
      (isReg src = false → ref = .mem (e.opAddr .first)) ∧
      t.trace = e.trace ++ [.display ref sz ((operandValue .first sz src e).setWidth 32)] ∧
      DataKept e { t with trace := e.trace } ∧ FlagsKept e t ∧ HostKept e t

/-- DSR (spec/47_io_and_halt.md R234): one Status event with H, N, Z, V, C; nothing else changes. Events are decision D18
(log 16). -/
def Obligations.DsrEffect : Prop :=
  ∀ s, ∃ t, exec (.dsr ⟨0b00, false⟩) s = .next t ∧
    t.trace = s.trace ++ [.status s.status.h s.status.n s.status.z s.status.v s.status.c] ∧
    t.status = s.status ∧ t.regs = s.regs ∧ t.mem = s.mem ∧ t.pc = s.pc ∧ HostKept s t

/-- HLT (spec/47_io_and_halt.md R235): H is set; N, Z, V, C, registers, memory, PC and the trace are unchanged, and the machine
then takes no step. That `step` answers a fault there is the model's choice (log 23). -/
def Obligations.HltEffect : Prop :=
  ∀ s, ∃ t, exec (.hlt ⟨0b00, false⟩) s = .next t ∧ t.status.h = true ∧ FlagsKept s t ∧ t.regs = s.regs ∧ t.mem = s.mem ∧
    t.pc = s.pc ∧ t.trace = s.trace ∧ HostKept s t ∧ step t = .fault .halted

/-! ### Errors -/

/-- The three decode errors, in their order (spec/30_encoding.md R91 to R94; the order is decision D14, log 13): the first
check that fails names the error, PC is past the opcode word, and no register, flag or byte of memory changes. -/
def Obligations.DecodeErrorsInOrder : Prop :=
  ∀ i s,
    (i.nbOperandsOk = false → ∃ t, exec i s = .next t ∧
      ErrorAction .invalidNbOperands (some i.mnemonic) (s.pc - 2) s t ∧ HostKept s t) ∧
    (i.nbOperandsOk = true → i.dataSizeOk = false → ∃ t, exec i s = .next t ∧
      ErrorAction .invalidDataSize (some i.mnemonic) (s.pc - 2) s t ∧ HostKept s t) ∧
    (i.nbOperandsOk = true → i.dataSizeOk = true → i.modesOk = false → ∃ t, exec i s = .next t ∧
      ErrorAction .invalidAddressingMode (some i.mnemonic) (s.pc - 2) s t ∧ HostKept s t)

/-- An operand that cannot be located ends the instruction with the error Fetch_Operands raised, in the state it had reached
(spec/60_exceptions.md R245, decisions D7, D14; log 7, 13). Where operand-1 fails, PC is past the opcode word only and the
only step made is operand-1's own pre-decrement; where operand-2 fails, PC is past operand-1's extension word too, operand-1's
step stays made, and so does operand-2's own pre-decrement. Only AddressOutOfRange is raised so. -/
def Obligations.LocationErrorsEndTheInstruction : Prop :=
  ∀ i sz s k u, i.check = .ok sz → fetchOperands sz i.op1 i.op2 (s.loadDS i.info.ds) = .raised k u →
    k = .addressOutOfRange ∧ (∀ n, u.dreg n = s.dreg n) ∧ u.mem = s.mem ∧ u.status = s.status ∧ u.trace = s.trace ∧
    ((¬ Locatable sz i.op1 s.areg ∧ u.pc = s.pc ∧ ∀ n, u.areg n = s.areg n + failedStep sz i.op1 n) ∨
      (Locatable sz i.op1 s.areg ∧ ¬ Locatable sz i.op2 (fun n => s.areg n + stepBy sz i.op1 n) ∧
        u.pc = s.pc + pastExtension i.op1 ∧
        ∀ n, u.areg n = s.areg n + stepBy sz i.op1 n + failedStep sz i.op2 n)) ∧
    ∃ t, exec i s = .next t ∧ ErrorAction .addressOutOfRange (some i.mnemonic) (s.pc - 2) u t ∧ HostKept s t

/-- An operand of mode 011 is the big-endian word at PC, past the opcode word and operand-1's extension word, as far as that is
wholly inside $0000..$1000; where it is not, and the opcode is valid, the step raises AddressOutOfRange with the mnemonic and
the opcode's address, PC past the words fetched so far, and registers D, flags and memory as they were
(spec/40_cycle_and_addressing.md R127, spec/60_exceptions.md R245, decisions D3, D5; log 3, 5). -/
def Obligations.ExtensionWordFetch : Prop :=
  ∀ s i rest, s.status.h = false → decode (codeBytes s) = .ok (i, rest) →
    (∀ op, i.op1 = some op → op.mode = 0b011 → op = extensionAt s (s.pc.toNat + 2)) ∧
    (∀ op, i.op2 = some op → op.mode = 0b011 → op = extensionAt s (s.pc.toNat + 2 + extBytes i.op1)) ∧
    ∀ sz, i.check = .ok sz → (i.op1 = some .absTruncated ∨ i.op2 = some .absTruncated) →
      ∃ t, step s = .next t ∧ t.trace = s.trace ++ [.error .addressOutOfRange (some i.mnemonic) s.pc] ∧
        t.status.h = true ∧ t.pc = s.pc + 2 + pastExtension i.op1 ∧ FlagsKept s t ∧ (∀ n, t.dreg n = s.dreg n) ∧
        t.mem = s.mem ∧ HostKept s t

/-- An operand access not wholly inside memory raises AddressOutOfRange, in Execute's first state: nothing is stored and no
flag changes (decision D5; log 5). It comes before DIVS's zero divisor (spec/60_exceptions.md R248). -/
def Obligations.OperandAccessBeyondMemory : Prop :=
  ∀ i sz s e, Begins i sz s e → (∃ x ∈ accesses i sz, operandInRange x.1 x.2.1 x.2.2 e = false) →
    ∃ t, exec i s = .next t ∧ ErrorAction .addressOutOfRange (some i.mnemonic) (s.pc - 2) e t

/-- With its opcode valid and its operands located, an instruction ends in an error exactly when an access leaves memory or,
for DIVS, the divisor is zero (spec/60_exceptions.md R240, R247). -/
def Obligations.ErrorsOfExecuteAreExactly : Prop :=
  ∀ i sz s e t, Begins i sz s e → exec i s = .next t →
    (EndsInError s t ↔
      (∃ x ∈ accesses i sz, operandInRange x.1 x.2.1 x.2.2 e = false) ∨ zeroDivisor i e)

/-- Every error is precise (spec/60_exceptions.md R245): the event carries the instruction's mnemonic and its opcode's
address, H is set, and N, Z, V, C, D0, D1 and all of memory are as when the step began. What an error leaves is decision D14
(log 13). -/
def Obligations.ErrorsArePrecise : Prop :=
  ∀ i s t k m a, exec i s = .next t → t.trace = s.trace ++ [.error k m a] →
    m = some i.mnemonic ∧ a = s.pc - 2 ∧ t.status.h = true ∧ FlagsKept s t ∧ (∀ n, t.dreg n = s.dreg n) ∧ t.mem = s.mem

/-! ### Properties of the whole machine -/

/-- H is written only by HLT, which sets it, and by an error; no instruction clears it (spec/40_cycle_and_addressing.md
R136). -/
def Obligations.OnlyHltAndErrorsWriteH : Prop :=
  (∀ i s t, exec i s = .next t → t.status.h = s.status.h ∨ (t.status.h = true ∧ (i.mnemonic = .HLT ∨ EndsInError s t))) ∧
  (∀ i s t, exec i s = .next t → EndsInError s t → t.status.h = true) ∧
  (∀ i s t sz, exec i s = .next t → i.mnemonic = .HLT → i.check = .ok sz → t.status.h = true) ∧
  (∀ s t, step s = .next t → s.status.h = true → False)

/-- The frame of every instruction that does not end in an error: outside its destinations each data register is unchanged,
each address register is changed by the operands' steps only, and each byte of memory outside the stored ones is unchanged;
branches, DSP, DSR and HLT leave the flags, EXG leaves N and Z; only DSP and DSR append to the trace, only INP draws. The
operands' steps are decision D7 (log 7). -/
def Obligations.FrameOfEveryInstruction : Prop :=
  ∀ i sz s e t, Begins i sz s e → s.mem.wf → exec i s = .next t → ¬ EndsInError s t →
    (∀ n, (∀ x ∈ destinations i sz, x.2.2 ≠ .dreg n) → t.dreg n = s.dreg n) ∧
    (∀ n, (∀ x ∈ destinations i sz, x.2.2 ≠ .areg n) → t.areg n = s.areg n + stepBy sz i.op1 n + stepBy sz i.op2 n) ∧
    (∀ x, (∀ y ∈ destinations i sz, isReg y.2.2 = true ∨ x < (e.opAddr y.1).toNat ∨
      (e.opAddr y.1).toNat + y.2.1.bytes ≤ x) → t.byteAt x = s.byteAt x) ∧
    (leavesFlags i = true → FlagsKept s t) ∧
    (i.mnemonic = .EXG → t.status.n = s.status.n ∧ t.status.z = s.status.z) ∧
    (i.mnemonic ≠ .HLT → t.status.h = s.status.h) ∧
    (i.mnemonic ≠ .DSP → i.mnemonic ≠ .DSR → t.trace = s.trace) ∧
    (i.mnemonic ≠ .INP → t.input = s.input ∧ t.drawn = s.drawn) ∧
    (i.mnemonic ≠ .DIVS → t.free = s.free)

/-- Every step keeps memory in its canonical form: strictly rising addresses, none beyond $1000, no entry equal to what an
unlisted address reads as. The form is the model's choice (log 19). -/
def Obligations.StepKeepsMemoryCanonical : Prop := ∀ s t, s.mem.wf → step s = .next t → t.mem.wf

/-- Every step keeps what spec/60_exceptions.md R250 says of a run, an inference the spec marks as derived from R245 and R120:
an Error event stands only last in the trace, and with it the machine is halted. -/
def Obligations.StepKeepsErrorLast : Prop := ∀ s t, s.traceOk = true → step s = .next t → t.traceOk = true

/-- So a run of any length from a sound state is sound: at most one Error event, the last of the trace, and then no further
step. -/
def Obligations.RunsStaySound : Prop :=
  ∀ n s t, s.Sound → Sys2Proof.core.run n s = .next t → t.Sound

/-- No internal register carries information from one instruction to the next (spec/10_state.md R31, which the spec marks as
derived from its cycle): changing all ten of them before a step changes nothing else after it. -/
def Obligations.InternalRegistersCarryNothing : Prop :=
  ∀ (s : State) (j : Internal) t, step s = .next t →
    ∃ u, step { s with internal := j } = .next u ∧ SameButInternal t u

/-- The output trace is append-only and never read (spec/47_io_and_halt.md R230): a step appends at most one event, the same
one whatever was in the trace, and nothing else depends on it. That the output is a trace of events is decision D18
(log 16). -/
def Obligations.TraceIsNeverRead : Prop :=
  ∀ (s : State) t, step s = .next t → ∃ new : List Event, new.length ≤ 1 ∧ t.trace = s.trace ++ new ∧
    ∀ tr, step { s with trace := tr } = .next { t with trace := tr ++ new }

/-- The draws behind the first decide nothing in a step: with more draws supplied behind it, the step is the same but for
those (spec/47_io_and_halt.md R231). The list of draws is the model's
form of the host (decision D18, log 17). -/
def Obligations.LaterDrawsDecideNothing : Prop :=
  ∀ (s : State) t x rest, s.input = [x] → step s = .next t →
    step { s with input := x :: rest } = .next { t with input := t.input ++ rest }

end
end

