-- ==== Sys2Proof/Laws/State.lean ====
section
/-! SUPPORT. One lemma per field per update of State: what each named update of Machine/Ops.lean leaves in each field, and in
the accessors `dreg`, `areg`, `opAddr` and `byteAt`. -/

namespace Sys2Proof.Machine

/-! #### setD -/

@[simp] theorem State.setD_pc (s : State) (n : RegNo) (v : Long) : (s.setD n v).pc = s.pc := by cases n <;> rfl
@[simp] theorem State.setD_status (s : State) (n : RegNo) (v : Long) : (s.setD n v).status = s.status := by cases n <;> rfl
@[simp] theorem State.setD_mem (s : State) (n : RegNo) (v : Long) : (s.setD n v).mem = s.mem := by cases n <;> rfl
@[simp] theorem State.setD_internal (s : State) (n : RegNo) (v : Long) : (s.setD n v).internal = s.internal := by cases n <;> rfl
@[simp] theorem State.setD_trace (s : State) (n : RegNo) (v : Long) : (s.setD n v).trace = s.trace := by cases n <;> rfl
@[simp] theorem State.setD_input (s : State) (n : RegNo) (v : Long) : (s.setD n v).input = s.input := by cases n <;> rfl
@[simp] theorem State.setD_drawn (s : State) (n : RegNo) (v : Long) : (s.setD n v).drawn = s.drawn := by cases n <;> rfl
@[simp] theorem State.setD_free (s : State) (n : RegNo) (v : Long) : (s.setD n v).free = s.free := by cases n <;> rfl
@[simp] theorem State.setD_opAddr (s : State) (n : RegNo) (v : Long) (j : Slot) : (s.setD n v).opAddr j = s.opAddr j := by
  cases j <;> simp [State.opAddr]
@[simp] theorem State.setD_byteAt (s : State) (n : RegNo) (v : Long) (x : Nat) : (s.setD n v).byteAt x = s.byteAt x := by
  simp [State.byteAt]

/-! #### setA -/

@[simp] theorem State.setA_pc (s : State) (n : RegNo) (v : Long) : (s.setA n v).pc = s.pc := by cases n <;> rfl
@[simp] theorem State.setA_status (s : State) (n : RegNo) (v : Long) : (s.setA n v).status = s.status := by cases n <;> rfl
@[simp] theorem State.setA_mem (s : State) (n : RegNo) (v : Long) : (s.setA n v).mem = s.mem := by cases n <;> rfl
@[simp] theorem State.setA_internal (s : State) (n : RegNo) (v : Long) : (s.setA n v).internal = s.internal := by cases n <;> rfl
@[simp] theorem State.setA_trace (s : State) (n : RegNo) (v : Long) : (s.setA n v).trace = s.trace := by cases n <;> rfl
@[simp] theorem State.setA_input (s : State) (n : RegNo) (v : Long) : (s.setA n v).input = s.input := by cases n <;> rfl
@[simp] theorem State.setA_drawn (s : State) (n : RegNo) (v : Long) : (s.setA n v).drawn = s.drawn := by cases n <;> rfl
@[simp] theorem State.setA_free (s : State) (n : RegNo) (v : Long) : (s.setA n v).free = s.free := by cases n <;> rfl
@[simp] theorem State.setA_opAddr (s : State) (n : RegNo) (v : Long) (j : Slot) : (s.setA n v).opAddr j = s.opAddr j := by
  cases j <;> simp [State.opAddr]
@[simp] theorem State.setA_byteAt (s : State) (n : RegNo) (v : Long) (x : Nat) : (s.setA n v).byteAt x = s.byteAt x := by
  simp [State.byteAt]

/-! #### setPC -/

@[simp] theorem State.setPC_regs (s : State) (v : Word) : (s.setPC v).regs = s.regs := rfl
@[simp] theorem State.setPC_pc (s : State) (v : Word) : (s.setPC v).pc = v := rfl
@[simp] theorem State.setPC_status (s : State) (v : Word) : (s.setPC v).status = s.status := rfl
@[simp] theorem State.setPC_mem (s : State) (v : Word) : (s.setPC v).mem = s.mem := rfl
@[simp] theorem State.setPC_internal (s : State) (v : Word) : (s.setPC v).internal = s.internal := rfl
@[simp] theorem State.setPC_trace (s : State) (v : Word) : (s.setPC v).trace = s.trace := rfl
@[simp] theorem State.setPC_input (s : State) (v : Word) : (s.setPC v).input = s.input := rfl
@[simp] theorem State.setPC_drawn (s : State) (v : Word) : (s.setPC v).drawn = s.drawn := rfl
@[simp] theorem State.setPC_free (s : State) (v : Word) : (s.setPC v).free = s.free := rfl
@[simp] theorem State.setPC_dreg (s : State) (v : Word) (m : RegNo) : (s.setPC v).dreg m = s.dreg m := by
  cases m <;> simp [State.dreg]
@[simp] theorem State.setPC_areg (s : State) (v : Word) (m : RegNo) : (s.setPC v).areg m = s.areg m := by
  cases m <;> simp [State.areg]
@[simp] theorem State.setPC_opAddr (s : State) (v : Word) (j : Slot) : (s.setPC v).opAddr j = s.opAddr j := by
  cases j <;> simp [State.opAddr]
@[simp] theorem State.setPC_byteAt (s : State) (v : Word) (x : Nat) : (s.setPC v).byteAt x = s.byteAt x := by
  simp [State.byteAt]

/-! #### setNZVC -/

@[simp] theorem State.setNZVC_regs (s : State) (n z v c : Bool) : (s.setNZVC n z v c).regs = s.regs := rfl
@[simp] theorem State.setNZVC_pc (s : State) (n z v c : Bool) : (s.setNZVC n z v c).pc = s.pc := rfl
@[simp] theorem State.setNZVC_status (s : State) (n z v c : Bool) : (s.setNZVC n z v c).status = ⟨s.status.h, n, z, v, c⟩ := rfl
@[simp] theorem State.setNZVC_mem (s : State) (n z v c : Bool) : (s.setNZVC n z v c).mem = s.mem := rfl
@[simp] theorem State.setNZVC_internal (s : State) (n z v c : Bool) : (s.setNZVC n z v c).internal = s.internal := rfl
@[simp] theorem State.setNZVC_trace (s : State) (n z v c : Bool) : (s.setNZVC n z v c).trace = s.trace := rfl
@[simp] theorem State.setNZVC_input (s : State) (n z v c : Bool) : (s.setNZVC n z v c).input = s.input := rfl
@[simp] theorem State.setNZVC_drawn (s : State) (n z v c : Bool) : (s.setNZVC n z v c).drawn = s.drawn := rfl
@[simp] theorem State.setNZVC_free (s : State) (n z v c : Bool) : (s.setNZVC n z v c).free = s.free := rfl
@[simp] theorem State.setNZVC_dreg (s : State) (n z v c : Bool) (m : RegNo) : (s.setNZVC n z v c).dreg m = s.dreg m := by
  cases m <;> simp [State.dreg]
@[simp] theorem State.setNZVC_areg (s : State) (n z v c : Bool) (m : RegNo) : (s.setNZVC n z v c).areg m = s.areg m := by
  cases m <;> simp [State.areg]
@[simp] theorem State.setNZVC_opAddr (s : State) (n z v c : Bool) (j : Slot) : (s.setNZVC n z v c).opAddr j = s.opAddr j := by
  cases j <;> simp [State.opAddr]
@[simp] theorem State.setNZVC_byteAt (s : State) (n z v c : Bool) (x : Nat) : (s.setNZVC n z v c).byteAt x = s.byteAt x := by
  simp [State.byteAt]

/-! #### setFlags -/

@[simp] theorem State.setFlags_regs (s : State) {w : Nat} (o : AluOut w) : (s.setFlags o).regs = s.regs := rfl
@[simp] theorem State.setFlags_pc (s : State) {w : Nat} (o : AluOut w) : (s.setFlags o).pc = s.pc := rfl
@[simp] theorem State.setFlags_status (s : State) {w : Nat} (o : AluOut w) : (s.setFlags o).status = ⟨s.status.h, o.r.msb, o.r == 0, o.v, o.c⟩ := rfl
@[simp] theorem State.setFlags_mem (s : State) {w : Nat} (o : AluOut w) : (s.setFlags o).mem = s.mem := rfl
@[simp] theorem State.setFlags_internal (s : State) {w : Nat} (o : AluOut w) : (s.setFlags o).internal = s.internal := rfl
@[simp] theorem State.setFlags_trace (s : State) {w : Nat} (o : AluOut w) : (s.setFlags o).trace = s.trace := rfl
@[simp] theorem State.setFlags_input (s : State) {w : Nat} (o : AluOut w) : (s.setFlags o).input = s.input := rfl
@[simp] theorem State.setFlags_drawn (s : State) {w : Nat} (o : AluOut w) : (s.setFlags o).drawn = s.drawn := rfl
@[simp] theorem State.setFlags_free (s : State) {w : Nat} (o : AluOut w) : (s.setFlags o).free = s.free := rfl
@[simp] theorem State.setFlags_dreg (s : State) {w : Nat} (o : AluOut w) (m : RegNo) : (s.setFlags o).dreg m = s.dreg m := by
  cases m <;> simp [State.dreg]
@[simp] theorem State.setFlags_areg (s : State) {w : Nat} (o : AluOut w) (m : RegNo) : (s.setFlags o).areg m = s.areg m := by
  cases m <;> simp [State.areg]
@[simp] theorem State.setFlags_opAddr (s : State) {w : Nat} (o : AluOut w) (j : Slot) : (s.setFlags o).opAddr j = s.opAddr j := by
  cases j <;> simp [State.opAddr]
@[simp] theorem State.setFlags_byteAt (s : State) {w : Nat} (o : AluOut w) (x : Nat) : (s.setFlags o).byteAt x = s.byteAt x := by
  simp [State.byteAt]

/-! #### setH -/

@[simp] theorem State.setH_regs (s : State) : (s.setH).regs = s.regs := rfl
@[simp] theorem State.setH_pc (s : State) : (s.setH).pc = s.pc := rfl
@[simp] theorem State.setH_status (s : State) : (s.setH).status = ⟨true, s.status.n, s.status.z, s.status.v, s.status.c⟩ := rfl
@[simp] theorem State.setH_mem (s : State) : (s.setH).mem = s.mem := rfl
@[simp] theorem State.setH_internal (s : State) : (s.setH).internal = s.internal := rfl
@[simp] theorem State.setH_trace (s : State) : (s.setH).trace = s.trace := rfl
@[simp] theorem State.setH_input (s : State) : (s.setH).input = s.input := rfl
@[simp] theorem State.setH_drawn (s : State) : (s.setH).drawn = s.drawn := rfl
@[simp] theorem State.setH_free (s : State) : (s.setH).free = s.free := rfl
@[simp] theorem State.setH_dreg (s : State) (m : RegNo) : (s.setH).dreg m = s.dreg m := by
  cases m <;> simp [State.dreg]
@[simp] theorem State.setH_areg (s : State) (m : RegNo) : (s.setH).areg m = s.areg m := by
  cases m <;> simp [State.areg]
@[simp] theorem State.setH_opAddr (s : State) (j : Slot) : (s.setH).opAddr j = s.opAddr j := by
  cases j <;> simp [State.opAddr]
@[simp] theorem State.setH_byteAt (s : State) (x : Nat) : (s.setH).byteAt x = s.byteAt x := by
  simp [State.byteAt]

/-! #### updInternal -/

@[simp] theorem State.updInternal_regs (s : State) (f : Internal → Internal) : (s.updInternal f).regs = s.regs := rfl
@[simp] theorem State.updInternal_pc (s : State) (f : Internal → Internal) : (s.updInternal f).pc = s.pc := rfl
@[simp] theorem State.updInternal_status (s : State) (f : Internal → Internal) : (s.updInternal f).status = s.status := rfl
@[simp] theorem State.updInternal_mem (s : State) (f : Internal → Internal) : (s.updInternal f).mem = s.mem := rfl
@[simp] theorem State.updInternal_internal (s : State) (f : Internal → Internal) : (s.updInternal f).internal = f s.internal := rfl
@[simp] theorem State.updInternal_trace (s : State) (f : Internal → Internal) : (s.updInternal f).trace = s.trace := rfl
@[simp] theorem State.updInternal_input (s : State) (f : Internal → Internal) : (s.updInternal f).input = s.input := rfl
@[simp] theorem State.updInternal_drawn (s : State) (f : Internal → Internal) : (s.updInternal f).drawn = s.drawn := rfl
@[simp] theorem State.updInternal_free (s : State) (f : Internal → Internal) : (s.updInternal f).free = s.free := rfl
@[simp] theorem State.updInternal_dreg (s : State) (f : Internal → Internal) (m : RegNo) : (s.updInternal f).dreg m = s.dreg m := by
  cases m <;> simp [State.dreg]
@[simp] theorem State.updInternal_areg (s : State) (f : Internal → Internal) (m : RegNo) : (s.updInternal f).areg m = s.areg m := by
  cases m <;> simp [State.areg]
@[simp] theorem State.updInternal_byteAt (s : State) (f : Internal → Internal) (x : Nat) : (s.updInternal f).byteAt x = s.byteAt x := by
  simp [State.byteAt]

/-! #### loadDS -/

@[simp] theorem State.loadDS_regs (s : State) (d : BitVec 2) : (s.loadDS d).regs = s.regs := rfl
@[simp] theorem State.loadDS_pc (s : State) (d : BitVec 2) : (s.loadDS d).pc = s.pc := rfl
@[simp] theorem State.loadDS_status (s : State) (d : BitVec 2) : (s.loadDS d).status = s.status := rfl
@[simp] theorem State.loadDS_mem (s : State) (d : BitVec 2) : (s.loadDS d).mem = s.mem := rfl
@[simp] theorem State.loadDS_trace (s : State) (d : BitVec 2) : (s.loadDS d).trace = s.trace := rfl
@[simp] theorem State.loadDS_input (s : State) (d : BitVec 2) : (s.loadDS d).input = s.input := rfl
@[simp] theorem State.loadDS_drawn (s : State) (d : BitVec 2) : (s.loadDS d).drawn = s.drawn := rfl
@[simp] theorem State.loadDS_free (s : State) (d : BitVec 2) : (s.loadDS d).free = s.free := rfl
@[simp] theorem State.loadDS_dreg (s : State) (d : BitVec 2) (m : RegNo) : (s.loadDS d).dreg m = s.dreg m := by
  cases m <;> simp [State.dreg]
@[simp] theorem State.loadDS_areg (s : State) (d : BitVec 2) (m : RegNo) : (s.loadDS d).areg m = s.areg m := by
  cases m <;> simp [State.areg]
@[simp] theorem State.loadDS_opAddr (s : State) (d : BitVec 2) (j : Slot) : (s.loadDS d).opAddr j = s.opAddr j := by
  cases j <;> rfl
@[simp] theorem State.loadDS_byteAt (s : State) (d : BitVec 2) (x : Nat) : (s.loadDS d).byteAt x = s.byteAt x := by
  simp [State.byteAt]

/-! #### setOpAddr -/

@[simp] theorem State.setOpAddr_regs (s : State) (k : Slot) (a : Word) : (s.setOpAddr k a).regs = s.regs := by cases k <;> rfl
@[simp] theorem State.setOpAddr_pc (s : State) (k : Slot) (a : Word) : (s.setOpAddr k a).pc = s.pc := by cases k <;> rfl
@[simp] theorem State.setOpAddr_status (s : State) (k : Slot) (a : Word) : (s.setOpAddr k a).status = s.status := by cases k <;> rfl
@[simp] theorem State.setOpAddr_mem (s : State) (k : Slot) (a : Word) : (s.setOpAddr k a).mem = s.mem := by cases k <;> rfl
@[simp] theorem State.setOpAddr_trace (s : State) (k : Slot) (a : Word) : (s.setOpAddr k a).trace = s.trace := by cases k <;> rfl
@[simp] theorem State.setOpAddr_input (s : State) (k : Slot) (a : Word) : (s.setOpAddr k a).input = s.input := by cases k <;> rfl
@[simp] theorem State.setOpAddr_drawn (s : State) (k : Slot) (a : Word) : (s.setOpAddr k a).drawn = s.drawn := by cases k <;> rfl
@[simp] theorem State.setOpAddr_free (s : State) (k : Slot) (a : Word) : (s.setOpAddr k a).free = s.free := by cases k <;> rfl
@[simp] theorem State.setOpAddr_dreg (s : State) (k : Slot) (a : Word) (m : RegNo) : (s.setOpAddr k a).dreg m = s.dreg m := by
  cases m <;> simp [State.dreg]
@[simp] theorem State.setOpAddr_areg (s : State) (k : Slot) (a : Word) (m : RegNo) : (s.setOpAddr k a).areg m = s.areg m := by
  cases m <;> simp [State.areg]
@[simp] theorem State.setOpAddr_byteAt (s : State) (k : Slot) (a : Word) (x : Nat) : (s.setOpAddr k a).byteAt x = s.byteAt x := by
  simp [State.byteAt]

/-! #### latch -/

@[simp] theorem State.latch_regs (s : State) (sz : Size) (a : Word) (r : Bool) (v : BitVec sz.bits) : (s.latch sz a r v).regs = s.regs := rfl
@[simp] theorem State.latch_pc (s : State) (sz : Size) (a : Word) (r : Bool) (v : BitVec sz.bits) : (s.latch sz a r v).pc = s.pc := rfl
@[simp] theorem State.latch_status (s : State) (sz : Size) (a : Word) (r : Bool) (v : BitVec sz.bits) : (s.latch sz a r v).status = s.status := rfl
@[simp] theorem State.latch_mem (s : State) (sz : Size) (a : Word) (r : Bool) (v : BitVec sz.bits) : (s.latch sz a r v).mem = s.mem := rfl
@[simp] theorem State.latch_trace (s : State) (sz : Size) (a : Word) (r : Bool) (v : BitVec sz.bits) : (s.latch sz a r v).trace = s.trace := rfl
@[simp] theorem State.latch_input (s : State) (sz : Size) (a : Word) (r : Bool) (v : BitVec sz.bits) : (s.latch sz a r v).input = s.input := rfl
@[simp] theorem State.latch_drawn (s : State) (sz : Size) (a : Word) (r : Bool) (v : BitVec sz.bits) : (s.latch sz a r v).drawn = s.drawn := rfl
@[simp] theorem State.latch_free (s : State) (sz : Size) (a : Word) (r : Bool) (v : BitVec sz.bits) : (s.latch sz a r v).free = s.free := rfl
@[simp] theorem State.latch_dreg (s : State) (sz : Size) (a : Word) (r : Bool) (v : BitVec sz.bits) (m : RegNo) : (s.latch sz a r v).dreg m = s.dreg m := by
  cases m <;> simp [State.dreg]
@[simp] theorem State.latch_areg (s : State) (sz : Size) (a : Word) (r : Bool) (v : BitVec sz.bits) (m : RegNo) : (s.latch sz a r v).areg m = s.areg m := by
  cases m <;> simp [State.areg]
@[simp] theorem State.latch_opAddr (s : State) (sz : Size) (a : Word) (r : Bool) (v : BitVec sz.bits) (j : Slot) : (s.latch sz a r v).opAddr j = s.opAddr j := by
  cases j <;> rfl
@[simp] theorem State.latch_byteAt (s : State) (sz : Size) (a : Word) (r : Bool) (v : BitVec sz.bits) (x : Nat) : (s.latch sz a r v).byteAt x = s.byteAt x := by
  simp [State.byteAt]

/-! #### fillS -/

@[simp] theorem State.fillS_regs (s : State) (sz : Size) (v : BitVec sz.bits) : (s.fillS sz v).regs = s.regs := rfl
@[simp] theorem State.fillS_pc (s : State) (sz : Size) (v : BitVec sz.bits) : (s.fillS sz v).pc = s.pc := rfl
@[simp] theorem State.fillS_status (s : State) (sz : Size) (v : BitVec sz.bits) : (s.fillS sz v).status = s.status := rfl
@[simp] theorem State.fillS_mem (s : State) (sz : Size) (v : BitVec sz.bits) : (s.fillS sz v).mem = s.mem := rfl
@[simp] theorem State.fillS_trace (s : State) (sz : Size) (v : BitVec sz.bits) : (s.fillS sz v).trace = s.trace := rfl
@[simp] theorem State.fillS_input (s : State) (sz : Size) (v : BitVec sz.bits) : (s.fillS sz v).input = s.input := rfl
@[simp] theorem State.fillS_drawn (s : State) (sz : Size) (v : BitVec sz.bits) : (s.fillS sz v).drawn = s.drawn := rfl
@[simp] theorem State.fillS_free (s : State) (sz : Size) (v : BitVec sz.bits) : (s.fillS sz v).free = s.free := rfl
@[simp] theorem State.fillS_dreg (s : State) (sz : Size) (v : BitVec sz.bits) (m : RegNo) : (s.fillS sz v).dreg m = s.dreg m := by
  cases m <;> simp [State.dreg]
@[simp] theorem State.fillS_areg (s : State) (sz : Size) (v : BitVec sz.bits) (m : RegNo) : (s.fillS sz v).areg m = s.areg m := by
  cases m <;> simp [State.areg]
@[simp] theorem State.fillS_opAddr (s : State) (sz : Size) (v : BitVec sz.bits) (j : Slot) : (s.fillS sz v).opAddr j = s.opAddr j := by
  cases j <;> rfl
@[simp] theorem State.fillS_byteAt (s : State) (sz : Size) (v : BitVec sz.bits) (x : Nat) : (s.fillS sz v).byteAt x = s.byteAt x := by
  simp [State.byteAt]

/-! #### fillD -/

@[simp] theorem State.fillD_regs (s : State) (sz : Size) (v : BitVec sz.bits) : (s.fillD sz v).regs = s.regs := rfl
@[simp] theorem State.fillD_pc (s : State) (sz : Size) (v : BitVec sz.bits) : (s.fillD sz v).pc = s.pc := rfl
@[simp] theorem State.fillD_status (s : State) (sz : Size) (v : BitVec sz.bits) : (s.fillD sz v).status = s.status := rfl
@[simp] theorem State.fillD_mem (s : State) (sz : Size) (v : BitVec sz.bits) : (s.fillD sz v).mem = s.mem := rfl
@[simp] theorem State.fillD_trace (s : State) (sz : Size) (v : BitVec sz.bits) : (s.fillD sz v).trace = s.trace := rfl
@[simp] theorem State.fillD_input (s : State) (sz : Size) (v : BitVec sz.bits) : (s.fillD sz v).input = s.input := rfl
@[simp] theorem State.fillD_drawn (s : State) (sz : Size) (v : BitVec sz.bits) : (s.fillD sz v).drawn = s.drawn := rfl
@[simp] theorem State.fillD_free (s : State) (sz : Size) (v : BitVec sz.bits) : (s.fillD sz v).free = s.free := rfl
@[simp] theorem State.fillD_dreg (s : State) (sz : Size) (v : BitVec sz.bits) (m : RegNo) : (s.fillD sz v).dreg m = s.dreg m := by
  cases m <;> simp [State.dreg]
@[simp] theorem State.fillD_areg (s : State) (sz : Size) (v : BitVec sz.bits) (m : RegNo) : (s.fillD sz v).areg m = s.areg m := by
  cases m <;> simp [State.areg]
@[simp] theorem State.fillD_opAddr (s : State) (sz : Size) (v : BitVec sz.bits) (j : Slot) : (s.fillD sz v).opAddr j = s.opAddr j := by
  cases j <;> rfl
@[simp] theorem State.fillD_byteAt (s : State) (sz : Size) (v : BitVec sz.bits) (x : Nat) : (s.fillD sz v).byteAt x = s.byteAt x := by
  simp [State.byteAt]

/-! #### fillR -/

@[simp] theorem State.fillR_regs (s : State) (sz : Size) (v : BitVec sz.bits) : (s.fillR sz v).regs = s.regs := rfl
@[simp] theorem State.fillR_pc (s : State) (sz : Size) (v : BitVec sz.bits) : (s.fillR sz v).pc = s.pc := rfl
@[simp] theorem State.fillR_status (s : State) (sz : Size) (v : BitVec sz.bits) : (s.fillR sz v).status = s.status := rfl
@[simp] theorem State.fillR_mem (s : State) (sz : Size) (v : BitVec sz.bits) : (s.fillR sz v).mem = s.mem := rfl
@[simp] theorem State.fillR_trace (s : State) (sz : Size) (v : BitVec sz.bits) : (s.fillR sz v).trace = s.trace := rfl
@[simp] theorem State.fillR_input (s : State) (sz : Size) (v : BitVec sz.bits) : (s.fillR sz v).input = s.input := rfl
@[simp] theorem State.fillR_drawn (s : State) (sz : Size) (v : BitVec sz.bits) : (s.fillR sz v).drawn = s.drawn := rfl
@[simp] theorem State.fillR_free (s : State) (sz : Size) (v : BitVec sz.bits) : (s.fillR sz v).free = s.free := rfl
@[simp] theorem State.fillR_dreg (s : State) (sz : Size) (v : BitVec sz.bits) (m : RegNo) : (s.fillR sz v).dreg m = s.dreg m := by
  cases m <;> simp [State.dreg]
@[simp] theorem State.fillR_areg (s : State) (sz : Size) (v : BitVec sz.bits) (m : RegNo) : (s.fillR sz v).areg m = s.areg m := by
  cases m <;> simp [State.areg]
@[simp] theorem State.fillR_opAddr (s : State) (sz : Size) (v : BitVec sz.bits) (j : Slot) : (s.fillR sz v).opAddr j = s.opAddr j := by
  cases j <;> rfl
@[simp] theorem State.fillR_byteAt (s : State) (sz : Size) (v : BitVec sz.bits) (x : Nat) : (s.fillR sz v).byteAt x = s.byteAt x := by
  simp [State.byteAt]

/-! #### store -/

@[simp] theorem State.store_regs (s : State) (sz : Size) (a : Word) (v : BitVec sz.bits) : (s.store sz a v).regs = s.regs := rfl
@[simp] theorem State.store_pc (s : State) (sz : Size) (a : Word) (v : BitVec sz.bits) : (s.store sz a v).pc = s.pc := rfl
@[simp] theorem State.store_status (s : State) (sz : Size) (a : Word) (v : BitVec sz.bits) : (s.store sz a v).status = s.status := rfl
@[simp] theorem State.store_mem (s : State) (sz : Size) (a : Word) (v : BitVec sz.bits) : (s.store sz a v).mem = Memory.writeBytes s.mem a.toNat (bytesOf sz v) := rfl
@[simp] theorem State.store_internal (s : State) (sz : Size) (a : Word) (v : BitVec sz.bits) : (s.store sz a v).internal = s.internal := rfl
@[simp] theorem State.store_trace (s : State) (sz : Size) (a : Word) (v : BitVec sz.bits) : (s.store sz a v).trace = s.trace := rfl
@[simp] theorem State.store_input (s : State) (sz : Size) (a : Word) (v : BitVec sz.bits) : (s.store sz a v).input = s.input := rfl
@[simp] theorem State.store_drawn (s : State) (sz : Size) (a : Word) (v : BitVec sz.bits) : (s.store sz a v).drawn = s.drawn := rfl
@[simp] theorem State.store_free (s : State) (sz : Size) (a : Word) (v : BitVec sz.bits) : (s.store sz a v).free = s.free := rfl
@[simp] theorem State.store_dreg (s : State) (sz : Size) (a : Word) (v : BitVec sz.bits) (m : RegNo) : (s.store sz a v).dreg m = s.dreg m := by
  cases m <;> simp [State.dreg]
@[simp] theorem State.store_areg (s : State) (sz : Size) (a : Word) (v : BitVec sz.bits) (m : RegNo) : (s.store sz a v).areg m = s.areg m := by
  cases m <;> simp [State.areg]
@[simp] theorem State.store_opAddr (s : State) (sz : Size) (a : Word) (v : BitVec sz.bits) (j : Slot) : (s.store sz a v).opAddr j = s.opAddr j := by
  cases j <;> simp [State.opAddr]

/-! #### emit -/

@[simp] theorem State.emit_regs (s : State) (e : Event) : (s.emit e).regs = s.regs := rfl
@[simp] theorem State.emit_pc (s : State) (e : Event) : (s.emit e).pc = s.pc := rfl
@[simp] theorem State.emit_status (s : State) (e : Event) : (s.emit e).status = s.status := rfl
@[simp] theorem State.emit_mem (s : State) (e : Event) : (s.emit e).mem = s.mem := rfl
@[simp] theorem State.emit_internal (s : State) (e : Event) : (s.emit e).internal = s.internal := rfl
@[simp] theorem State.emit_trace (s : State) (e : Event) : (s.emit e).trace = s.trace ++ [e] := rfl
@[simp] theorem State.emit_input (s : State) (e : Event) : (s.emit e).input = s.input := rfl
@[simp] theorem State.emit_drawn (s : State) (e : Event) : (s.emit e).drawn = s.drawn := rfl
@[simp] theorem State.emit_free (s : State) (e : Event) : (s.emit e).free = s.free := rfl
@[simp] theorem State.emit_dreg (s : State) (e : Event) (m : RegNo) : (s.emit e).dreg m = s.dreg m := by
  cases m <;> simp [State.dreg]
@[simp] theorem State.emit_areg (s : State) (e : Event) (m : RegNo) : (s.emit e).areg m = s.areg m := by
  cases m <;> simp [State.areg]
@[simp] theorem State.emit_opAddr (s : State) (e : Event) (j : Slot) : (s.emit e).opAddr j = s.opAddr j := by
  cases j <;> simp [State.opAddr]
@[simp] theorem State.emit_byteAt (s : State) (e : Event) (x : Nat) : (s.emit e).byteAt x = s.byteAt x := by
  simp [State.byteAt]

/-! #### dropDraw -/

@[simp] theorem State.dropDraw_regs (s : State) : (s.dropDraw).regs = s.regs := rfl
@[simp] theorem State.dropDraw_pc (s : State) : (s.dropDraw).pc = s.pc := rfl
@[simp] theorem State.dropDraw_status (s : State) : (s.dropDraw).status = s.status := rfl
@[simp] theorem State.dropDraw_mem (s : State) : (s.dropDraw).mem = s.mem := rfl
@[simp] theorem State.dropDraw_internal (s : State) : (s.dropDraw).internal = s.internal := rfl
@[simp] theorem State.dropDraw_trace (s : State) : (s.dropDraw).trace = s.trace := rfl
@[simp] theorem State.dropDraw_input (s : State) : (s.dropDraw).input = s.input.tail := rfl
@[simp] theorem State.dropDraw_drawn (s : State) : (s.dropDraw).drawn = s.drawn + 1 := rfl
@[simp] theorem State.dropDraw_free (s : State) : (s.dropDraw).free = s.free := rfl
@[simp] theorem State.dropDraw_dreg (s : State) (m : RegNo) : (s.dropDraw).dreg m = s.dreg m := by
  cases m <;> simp [State.dreg]
@[simp] theorem State.dropDraw_areg (s : State) (m : RegNo) : (s.dropDraw).areg m = s.areg m := by
  cases m <;> simp [State.areg]
@[simp] theorem State.dropDraw_opAddr (s : State) (j : Slot) : (s.dropDraw).opAddr j = s.opAddr j := by
  cases j <;> simp [State.opAddr]
@[simp] theorem State.dropDraw_byteAt (s : State) (x : Nat) : (s.dropDraw).byteAt x = s.byteAt x := by
  simp [State.byteAt]

/-! #### bumpFree -/

@[simp] theorem State.bumpFree_regs (s : State) : (s.bumpFree).regs = s.regs := rfl
@[simp] theorem State.bumpFree_pc (s : State) : (s.bumpFree).pc = s.pc := rfl
@[simp] theorem State.bumpFree_status (s : State) : (s.bumpFree).status = s.status := rfl
@[simp] theorem State.bumpFree_mem (s : State) : (s.bumpFree).mem = s.mem := rfl
@[simp] theorem State.bumpFree_internal (s : State) : (s.bumpFree).internal = s.internal := rfl
@[simp] theorem State.bumpFree_trace (s : State) : (s.bumpFree).trace = s.trace := rfl
@[simp] theorem State.bumpFree_input (s : State) : (s.bumpFree).input = s.input := rfl
@[simp] theorem State.bumpFree_drawn (s : State) : (s.bumpFree).drawn = s.drawn := rfl
@[simp] theorem State.bumpFree_free (s : State) : (s.bumpFree).free = s.free + 1 := rfl
@[simp] theorem State.bumpFree_dreg (s : State) (m : RegNo) : (s.bumpFree).dreg m = s.dreg m := by
  cases m <;> simp [State.dreg]
@[simp] theorem State.bumpFree_areg (s : State) (m : RegNo) : (s.bumpFree).areg m = s.areg m := by
  cases m <;> simp [State.areg]
@[simp] theorem State.bumpFree_opAddr (s : State) (j : Slot) : (s.bumpFree).opAddr j = s.opAddr j := by
  cases j <;> simp [State.opAddr]
@[simp] theorem State.bumpFree_byteAt (s : State) (x : Nat) : (s.bumpFree).byteAt x = s.byteAt x := by
  simp [State.byteAt]

/-! #### A register written is read back, the others are as before -/

@[simp] theorem State.setD_dreg_same (s : State) (n : RegNo) (v : Long) : (s.setD n v).dreg n = v := by cases n <;> rfl
@[simp] theorem State.setA_areg_same (s : State) (n : RegNo) (v : Long) : (s.setA n v).areg n = v := by cases n <;> rfl
@[simp] theorem State.setD_areg (s : State) (n : RegNo) (v : Long) (m : RegNo) : (s.setD n v).areg m = s.areg m := by
  cases n <;> cases m <;> rfl
@[simp] theorem State.setA_dreg (s : State) (n : RegNo) (v : Long) (m : RegNo) : (s.setA n v).dreg m = s.dreg m := by
  cases n <;> cases m <;> rfl
theorem State.setD_dreg_other (s : State) {n m : RegNo} (h : m ≠ n) (v : Long) : (s.setD n v).dreg m = s.dreg m := by
  cases n <;> cases m <;> first | rfl | exact absurd rfl h
theorem State.setA_areg_other (s : State) {n m : RegNo} (h : m ≠ n) (v : Long) : (s.setA n v).areg m = s.areg m := by
  cases n <;> cases m <;> first | rfl | exact absurd rfl h
@[simp] theorem State.setOpAddr_same (s : State) (k : Slot) (a : Word) : (s.setOpAddr k a).opAddr k = a := by cases k <;> rfl
theorem State.setOpAddr_other (s : State) {k j : Slot} (h : j ≠ k) (a : Word) : (s.setOpAddr k a).opAddr j = s.opAddr j := by
  cases k <;> cases j <;> first | rfl | exact absurd rfl h

/-! #### The error action -/

@[simp] theorem raiseError_regs (k : ErrorKind) (m : Option Mnemonic) (a : Word) (s : State) :
    (raiseError k m a s).regs = s.regs := rfl
@[simp] theorem raiseError_pc (k : ErrorKind) (m : Option Mnemonic) (a : Word) (s : State) :
    (raiseError k m a s).pc = s.pc := rfl
@[simp] theorem raiseError_status (k : ErrorKind) (m : Option Mnemonic) (a : Word) (s : State) :
    (raiseError k m a s).status = ⟨true, s.status.n, s.status.z, s.status.v, s.status.c⟩ := rfl
@[simp] theorem raiseError_mem (k : ErrorKind) (m : Option Mnemonic) (a : Word) (s : State) :
    (raiseError k m a s).mem = s.mem := rfl
@[simp] theorem raiseError_internal (k : ErrorKind) (m : Option Mnemonic) (a : Word) (s : State) :
    (raiseError k m a s).internal = s.internal := rfl
@[simp] theorem raiseError_trace (k : ErrorKind) (m : Option Mnemonic) (a : Word) (s : State) :
    (raiseError k m a s).trace = s.trace ++ [.error k m a] := rfl
@[simp] theorem raiseError_input (k : ErrorKind) (m : Option Mnemonic) (a : Word) (s : State) :
    (raiseError k m a s).input = s.input := rfl
@[simp] theorem raiseError_drawn (k : ErrorKind) (m : Option Mnemonic) (a : Word) (s : State) :
    (raiseError k m a s).drawn = s.drawn := rfl
@[simp] theorem raiseError_free (k : ErrorKind) (m : Option Mnemonic) (a : Word) (s : State) :
    (raiseError k m a s).free = s.free := rfl
@[simp] theorem raiseError_dreg (k : ErrorKind) (m : Option Mnemonic) (a : Word) (s : State) (n : RegNo) :
    (raiseError k m a s).dreg n = s.dreg n := by cases n <;> rfl
@[simp] theorem raiseError_areg (k : ErrorKind) (m : Option Mnemonic) (a : Word) (s : State) (n : RegNo) :
    (raiseError k m a s).areg n = s.areg n := by cases n <;> rfl

end Sys2Proof.Machine
end

