-- ==== Sys2Proof/Laws/Memory.lean ====
section
/-! SUPPORT. Laws of memory: a read after a write, a write leaves every other byte alone, and every operation keeps the
canonical form. -/

namespace Sys2Proof.Machine

theorem Memory.read_cons (a : Nat) (b : Byte) (m : Memory) (x : Nat) (h : Memory.read m a = Config.unwrittenByte) :
    Memory.read (Memory.cons a b m) x = if a = x then b else Memory.read m x := by
  unfold Memory.cons
  split
  · next hb => split
               · next hx => rw [← hx, h, hb]
               · rfl
  · rfl

/-- An address below every listed one is unlisted. -/
theorem Memory.read_below {m : Memory} {a : Nat} (h : ∀ c ∈ m, a < c.1) : Memory.read m a = Config.unwrittenByte := by
  induction m with
  | nil => rfl
  | cons c m ih =>
    have h1 := h c (by simp)
    simp only [Memory.read]
    rw [if_neg (by omega)]
    exact ih fun d hd => h d (by simp [hd])

/-- The addresses of a canonical memory rise. -/
abbrev Memory.rising (m : Memory) : Prop := m.Pairwise (fun x y => x.1 < y.1)

theorem Memory.read_write {m : Memory} (hm : Memory.rising m) (a : Nat) (b : Byte) (x : Nat) :
    Memory.read (Memory.write m a b) x = if a = x then b else Memory.read m x := by
  induction m with
  | nil => exact Memory.read_cons a b [] x rfl
  | cons c m ih =>
    obtain ⟨y, d⟩ := c
    have hy : ∀ c ∈ m, y < c.1 := fun c hc => List.rel_of_pairwise_cons hm hc
    have ht := List.Pairwise.of_cons hm
    simp only [Memory.write]
    split
    · next h =>
      refine Memory.read_cons a b _ x (Memory.read_below ?_)
      intro c hc
      rcases List.mem_cons.1 hc with rfl | hc
      · exact h
      · have := hy c hc; omega
    · split
      · next h1 h2 =>
        subst h2
        rw [Memory.read_cons a b m x (Memory.read_below hy)]
        simp only [Memory.read]
        split <;> rfl
      · next h1 h2 =>
        simp only [Memory.read, ih ht]
        split
        · next h3 => rw [if_neg (by omega)]
        · rfl

theorem Memory.mem_cons_imp {a : Nat} {b : Byte} {m : Memory} {c : Host.Cell} (h : c ∈ Memory.cons a b m) :
    c ∈ m ∨ (c = (a, b) ∧ b ≠ Config.unwrittenByte) := by
  unfold Memory.cons at h
  split at h
  · exact .inl h
  · next hb =>
    rcases List.mem_cons.1 h with h | h
    · exact .inr ⟨h, hb⟩
    · exact .inl h

theorem Memory.mem_write_imp {m : Memory} {a : Nat} {b : Byte} {c : Host.Cell} (h : c ∈ Memory.write m a b) :
    c ∈ m ∨ (c = (a, b) ∧ b ≠ Config.unwrittenByte) := by
  induction m with
  | nil => exact Memory.mem_cons_imp h
  | cons d m ih =>
    simp only [Memory.write] at h
    split at h
    · exact Memory.mem_cons_imp h
    · split at h
      · rcases Memory.mem_cons_imp h with h | h
        · exact .inl (List.mem_cons_of_mem _ h)
        · exact .inr h
      · rcases List.mem_cons.1 h with h | h
        · exact .inl (by simp [h])
        · rcases ih h with h | h
          · exact .inl (List.mem_cons_of_mem _ h)
          · exact .inr h

theorem Memory.rising_cons {a : Nat} {b : Byte} {m : Memory} (hm : Memory.rising m) (h : ∀ c ∈ m, a < c.1) :
    Memory.rising (Memory.cons a b m) := by
  unfold Memory.cons
  split
  · exact hm
  · exact List.pairwise_cons.2 ⟨h, hm⟩

theorem Memory.rising_write {m : Memory} (hm : Memory.rising m) (a : Nat) (b : Byte) :
    Memory.rising (Memory.write m a b) := by
  induction m with
  | nil => exact Memory.rising_cons hm (by simp)
  | cons d m ih =>
    obtain ⟨y, e⟩ := d
    have hy : ∀ c ∈ m, y < c.1 := fun c hc => List.rel_of_pairwise_cons hm hc
    have ht := List.Pairwise.of_cons hm
    simp only [Memory.write]
    split
    · next h =>
      refine Memory.rising_cons hm fun c hc => ?_
      rcases List.mem_cons.1 hc with rfl | hc
      · exact h
      · have := hy c hc; omega
    · split
      · next h1 h2 => subst h2; exact Memory.rising_cons ht hy
      · next h1 h2 =>
        refine List.pairwise_cons.2 ⟨fun c hc => ?_, ih ht⟩
        rcases Memory.mem_write_imp hc with h | ⟨rfl, _⟩
        · exact hy c h
        · show y < a; omega

/-- A write inside memory keeps the canonical form. -/
theorem Memory.wf_write {m : Memory} (hm : m.wf) {a : Nat} (ha : a ≤ Config.memTop) (b : Byte) :
    (Memory.write m a b).wf := by
  refine ⟨Memory.rising_write hm.1 a b, fun c hc => ?_⟩
  rcases Memory.mem_write_imp hc with h | ⟨rfl, hb⟩
  · exact hm.2 c h
  · exact ⟨ha, hb⟩

/-- Writes inside memory keep the canonical form. -/
theorem Memory.wf_writeBytes {m : Memory} (hm : m.wf) (a : Nat) (bs : List Byte)
    (ha : a + bs.length ≤ Config.memTop + 1) : (Memory.writeBytes m a bs).wf := by
  induction bs generalizing m a with
  | nil => exact hm
  | cons b bs ih =>
    simp only [List.length_cons] at ha
    exact ih (Memory.wf_write hm (by omega) b) (a + 1) (by omega)

/-- The host's placement of code keeps the canonical form. -/
theorem Memory.wf_storeCode {m : Memory} (hm : m.wf) (a : Nat) (bs : List Byte) : (storeCode m a bs).wf := by
  induction bs generalizing m a with
  | nil => exact hm
  | cons b bs ih =>
    simp only [storeCode]
    split
    · next h => exact ih (Memory.wf_write hm h b) (a + 1)
    · exact ih hm (a + 1)

theorem Memory.rising_writeBytes {m : Memory} (hm : Memory.rising m) (a : Nat) (bs : List Byte) :
    Memory.rising (Memory.writeBytes m a bs) := by
  induction bs generalizing m a with
  | nil => exact hm
  | cons b bs ih => exact ih (Memory.rising_write hm a b) (a + 1)

/-- Bytes outside a store are as before. -/
theorem Memory.read_writeBytes_other {m : Memory} (hm : Memory.rising m) {a x : Nat} {bs : List Byte}
    (h : x < a ∨ a + bs.length ≤ x) : Memory.read (Memory.writeBytes m a bs) x = Memory.read m x := by
  induction bs generalizing m a with
  | nil => rfl
  | cons b bs ih =>
    simp only [List.length_cons] at h
    simp only [Memory.writeBytes]
    rw [ih (Memory.rising_write hm a b) (by omega), Memory.read_write hm, if_neg (by omega)]

/-- Byte `i` of a store is read back. -/
theorem Memory.read_writeBytes_same {m : Memory} (hm : Memory.rising m) (a : Nat) (bs : List Byte) (i : Nat)
    (h : i < bs.length) : Memory.read (Memory.writeBytes m a bs) (a + i) = bs[i] := by
  induction bs generalizing m a i with
  | nil => simp at h
  | cons b bs ih =>
    simp only [Memory.writeBytes]
    cases i with
    | zero =>
      rw [Memory.read_writeBytes_other (Memory.rising_write hm a b) (by omega), Memory.read_write hm]
      simp
    | succ i =>
      have := ih (Memory.rising_write hm a b) (a + 1) i (by simpa using h)
      rw [show a + (i + 1) = a + 1 + i by omega, this]
      simp

@[simp] theorem bytesOf_length (sz : Size) (v : BitVec sz.bits) : (bytesOf sz v).length = sz.bytes := by
  cases sz <;> rfl

theorem Size.bytes_pos (sz : Size) : 0 < sz.bytes := by cases sz <;> decide

theorem append_bytes_word (v : Word) : (v.extractLsb' 8 8 ++ v.extractLsb' 0 8 : Word) = v := by
  apply BitVec.eq_of_getLsbD_eq
  intro i hi
  simp only [BitVec.getLsbD_append, BitVec.getLsbD_extractLsb']
  split
  · simp [*]
  · simp only [show 8 + (i - 8) = i by omega, show i - 8 < 8 by omega]; simp

theorem append_bytes_long (v : Long) :
    (v.extractLsb' 24 8 ++ v.extractLsb' 16 8 ++ v.extractLsb' 8 8 ++ v.extractLsb' 0 8 : Long) = v := by
  apply BitVec.eq_of_getLsbD_eq
  intro i hi
  simp only [BitVec.getLsbD_append, BitVec.getLsbD_extractLsb']
  split
  · simp [*]
  · split
    · simp only [show 8 + (i - 8) = i by omega, show i - 8 < 8 by omega]; simp
    · split
      · simp only [show 16 + (i - 8 - 8) = i by omega, show i - 8 - 8 < 8 by omega]; simp
      · simp only [show 24 + (i - 8 - 8 - 8) = i by omega, show i - 8 - 8 - 8 < 8 by omega]; simp

/-- A value stored is read back at the same size (spec/20_memory.md R51, R59). -/
theorem Memory.value_writeBytes_same {m : Memory} (hm : Memory.rising m) (sz : Size) (a : Nat) (v : BitVec sz.bits) :
    Memory.value sz (Memory.writeBytes m a (bytesOf sz v)) a = v := by
  cases sz with
  | b => exact Memory.read_writeBytes_same hm a [v] 0 (by simp)
  | w =>
    have h := Memory.read_writeBytes_same hm a (bytesOf .w v)
    have h0 := h 0 (by simp [Size.bytes])
    have h1 := h 1 (by simp [Size.bytes])
    simp only [Memory.value, Nat.add_zero] at h0 h1 ⊢
    rw [h0, h1]
    exact append_bytes_word v
  | l =>
    have h := Memory.read_writeBytes_same hm a (bytesOf .l v)
    have h0 := h 0 (by simp [Size.bytes])
    have h1 := h 1 (by simp [Size.bytes])
    have h2 := h 2 (by simp [Size.bytes])
    have h3 := h 3 (by simp [Size.bytes])
    simp only [Memory.value, Nat.add_zero] at h0 h1 h2 h3 ⊢
    rw [h0, h1, h2, h3]
    exact append_bytes_long v

/-- A byte outside the stored ones is as before a store. -/
theorem State.store_byteAt_other {s : State} (hm : Memory.rising s.mem) (sz : Size) (a : Word) (v : BitVec sz.bits) {x : Nat}
    (h : x < a.toNat ∨ a.toNat + sz.bytes ≤ x) : (s.store sz a v).byteAt x = s.byteAt x := by
  simp only [State.byteAt, State.store_mem]
  exact Memory.read_writeBytes_other hm (by simpa using h)

end Sys2Proof.Machine
end

