-- ==== Sys2Proof/Laws/Ops.lean ====
section
/-! SUPPORT. One lemma per shared operation that says once everything it can do. Proofs cite these instead of unfolding the
operations. -/

namespace Sys2Proof.Machine

/-! ### Parts in sequence -/

@[simp] theorem Result.andThen_ok {α β : Type} (a : α) (s : State) (f : α → State → Result β) :
    (Result.ok a s).andThen f = f a s := rfl

@[simp] theorem Result.andThen_raised {α β : Type} (k : ErrorKind) (s : State) (f : α → State → Result β) :
    (Result.raised k s : Result α).andThen f = .raised k s := rfl

theorem Result.andThen_eq_ok {α β : Type} {r : Result α} {f : α → State → Result β} {b : β} {t : State} :
    r.andThen f = .ok b t ↔ ∃ a u, r = .ok a u ∧ f a u = .ok b t := by
  cases r <;> simp

theorem Result.andThen_eq_raised {α β : Type} {r : Result α} {f : α → State → Result β} {k : ErrorKind} {t : State} :
    r.andThen f = .raised k t ↔ r = .raised k t ∨ ∃ a u, r = .ok a u ∧ f a u = .raised k t := by
  cases r <;> simp

/-! ### Quiet changes: nothing a program can see -/

/-- `t` differs from `s` at most in MAR, MDR, RW, DS, OpCode and the ALU buffers. -/
structure Quiet (s t : State) : Prop where
  regs : t.regs = s.regs
  pc : t.pc = s.pc
  status : t.status = s.status
  mem : t.mem = s.mem
  trace : t.trace = s.trace
  input : t.input = s.input
  drawn : t.drawn = s.drawn
  free : t.free = s.free
  opAddr : ∀ k, t.opAddr k = s.opAddr k

theorem Quiet.refl (s : State) : Quiet s s := ⟨rfl, rfl, rfl, rfl, rfl, rfl, rfl, rfl, fun _ => rfl⟩

theorem Quiet.trans {s t u : State} (h : Quiet s t) (g : Quiet t u) : Quiet s u :=
  ⟨g.regs.trans h.regs, g.pc.trans h.pc, g.status.trans h.status, g.mem.trans h.mem, g.trace.trans h.trace,
    g.input.trans h.input, g.drawn.trans h.drawn, g.free.trans h.free, fun k => (g.opAddr k).trans (h.opAddr k)⟩

theorem Quiet.dreg {s t : State} (h : Quiet s t) (n : RegNo) : t.dreg n = s.dreg n := by
  cases n <;> simp [State.dreg, h.regs]

theorem Quiet.areg {s t : State} (h : Quiet s t) (n : RegNo) : t.areg n = s.areg n := by
  cases n <;> simp [State.areg, h.regs]

theorem Quiet.byteAt {s t : State} (h : Quiet s t) (x : Nat) : t.byteAt x = s.byteAt x := by
  simp [State.byteAt, h.mem]

theorem Quiet.latch (s : State) (sz : Size) (a : Word) (r : Bool) (v : BitVec sz.bits) : Quiet s (s.latch sz a r v) := by
  constructor <;> simp

theorem Quiet.loadDS (s : State) (d : BitVec 2) : Quiet s (s.loadDS d) := by
  constructor <;> simp

theorem Quiet.fillS (s : State) (sz : Size) (v : BitVec sz.bits) : Quiet s (s.fillS sz v) := by
  constructor <;> simp

theorem Quiet.fillD (s : State) (sz : Size) (v : BitVec sz.bits) : Quiet s (s.fillD sz v) := by
  constructor <;> simp

theorem Quiet.fillR (s : State) (sz : Size) (v : BitVec sz.bits) : Quiet s (s.fillR sz v) := by
  constructor <;> simp

theorem Quiet.operandValue {s t : State} (h : Quiet s t) (k : Slot) (sz : Size) (op : Operand) :
    operandValue k sz op t = operandValue k sz op s := by
  cases op <;> simp [Machine.operandValue, h.dreg, h.areg, h.mem, h.opAddr]

theorem Quiet.operandInRange {s t : State} (h : Quiet s t) (k : Slot) (sz : Size) (op : Operand) :
    operandInRange k sz op t = operandInRange k sz op s := by
  simp [Machine.operandInRange, h.opAddr]

/-! ### Memory accesses -/

theorem memRead_spec (sz : Size) (a : Word) (s : State) :
    (inMemory sz a.toNat = true ∧ ∃ t, memRead sz a s = .ok (Memory.value sz s.mem a.toNat) t ∧ Quiet s t) ∨
    (inMemory sz a.toNat = false ∧ memRead sz a s = .raised .addressOutOfRange s) := by
  unfold memRead
  cases h : inMemory sz a.toNat
  · exact .inr ⟨rfl, by simp⟩
  · exact .inl ⟨rfl, s.latch sz a true (Memory.value sz s.mem a.toNat), by simp only [if_true], Quiet.latch ..⟩

theorem memWrite_spec (sz : Size) (a : Word) (v : BitVec sz.bits) (s : State) :
    (inMemory sz a.toNat = true ∧ ∃ u, Quiet s u ∧ memWrite sz a v s = .ok () (u.store sz a v)) ∨
    (inMemory sz a.toNat = false ∧ memWrite sz a v s = .raised .addressOutOfRange s) := by
  unfold memWrite
  cases h : inMemory sz a.toNat
  · exact .inr ⟨rfl, by simp⟩
  · exact .inl ⟨rfl, _, Quiet.latch s sz a false v, by simp only [if_true]⟩

/-! ### Reading and writing an operand -/

/-- `ReadOp`: the operand's value and a quiet change, or AddressOutOfRange in the same state. -/
theorem readOp_spec (k : Slot) (sz : Size) (op : Operand) (s : State) :
    (operandInRange k sz op s = true ∧ ∃ t, readOp k sz op s = .ok (operandValue k sz op s) t ∧ Quiet s t) ∨
    (operandInRange k sz op s = false ∧ readOp k sz op s = .raised .addressOutOfRange s) := by
  cases op with
  | dreg n => exact .inl ⟨rfl, s, rfl, Quiet.refl s⟩
  | areg n => exact .inl ⟨rfl, s, rfl, Quiet.refl s⟩
  | abs a => simpa [operandInRange, isReg, readOp, operandValue] using memRead_spec sz (s.opAddr k) s
  | absTruncated => simpa [operandInRange, isReg, readOp, operandValue] using memRead_spec sz (s.opAddr k) s
  | ind n => simpa [operandInRange, isReg, readOp, operandValue] using memRead_spec sz (s.opAddr k) s
  | postInc n => simpa [operandInRange, isReg, readOp, operandValue] using memRead_spec sz (s.opAddr k) s
  | preDec n => simpa [operandInRange, isReg, readOp, operandValue] using memRead_spec sz (s.opAddr k) s
  | noMode m n => simpa [operandInRange, isReg, readOp, operandValue] using memRead_spec sz (s.opAddr k) s

theorem readSource_spec (k : Slot) (sz : Size) (op : Operand) (s : State) :
    (operandInRange k sz op s = true ∧ ∃ t, readSource k sz op s = .ok (operandValue k sz op s) t ∧ Quiet s t) ∨
    (operandInRange k sz op s = false ∧ readSource k sz op s = .raised .addressOutOfRange s) := by
  unfold readSource
  rcases readOp_spec k sz op s with ⟨h, t, e, q⟩ | ⟨h, e⟩ <;> rw [e]
  · exact .inl ⟨h, _, rfl, q.trans (Quiet.fillS ..)⟩
  · exact .inr ⟨h, rfl⟩

theorem readDest_spec (k : Slot) (sz : Size) (op : Operand) (s : State) :
    (operandInRange k sz op s = true ∧ ∃ t, readDest k sz op s = .ok (operandValue k sz op s) t ∧ Quiet s t) ∨
    (operandInRange k sz op s = false ∧ readDest k sz op s = .raised .addressOutOfRange s) := by
  unfold readDest
  rcases readOp_spec k sz op s with ⟨h, t, e, q⟩ | ⟨h, e⟩ <;> rw [e]
  · exact .inl ⟨h, _, rfl, q.trans (Quiet.fillD ..)⟩
  · exact .inr ⟨h, rfl⟩

/-- `t` is `s` with `v` put in operand `k`: a register's low bits, or the bytes at OpAddrk; nothing else a program can see
differs. -/
def Stored (k : Slot) (sz : Size) (op : Operand) (v : BitVec sz.bits) (s t : State) : Prop :=
  ∃ u, Quiet s u ∧
    match op with
    | .dreg n => t = u.setD n (setLow sz (u.dreg n) v)
    | .areg n => t = u.setA n (setLow sz (u.areg n) v)
    | _ => inMemory sz (s.opAddr k).toNat = true ∧ t = u.store sz (s.opAddr k) v

/-- `WriteOp`: the operand holds the value, or AddressOutOfRange in the same state. -/
theorem writeOp_spec (k : Slot) (sz : Size) (op : Operand) (v : BitVec sz.bits) (s : State) :
    (operandInRange k sz op s = true ∧ ∃ t, writeOp k sz op v s = .ok () t ∧ Stored k sz op v s t) ∨
    (operandInRange k sz op s = false ∧ writeOp k sz op v s = .raised .addressOutOfRange s) := by
  have hm : isReg op = false → (∀ n, op ≠ .dreg n) → (∀ n, op ≠ .areg n) →
      (operandInRange k sz op s = true ∧ ∃ t, memWrite sz (s.opAddr k) v s = .ok () t ∧ Stored k sz op v s t) ∨
      (operandInRange k sz op s = false ∧ memWrite sz (s.opAddr k) v s = .raised .addressOutOfRange s) := by
    intro hr h1 h2
    rcases memWrite_spec sz (s.opAddr k) v s with ⟨h, u, q, e⟩ | ⟨h, e⟩
    · refine .inl ⟨by simp [operandInRange, hr, h], _, e, u, q, ?_⟩
      cases op <;> first | exact ⟨h, rfl⟩ | exact absurd rfl (h1 _) | exact absurd rfl (h2 _)
    · exact .inr ⟨by simp [operandInRange, hr, h], e⟩
  cases op with
  | dreg n => exact .inl ⟨rfl, _, rfl, s, Quiet.refl s, rfl⟩
  | areg n => exact .inl ⟨rfl, _, rfl, s, Quiet.refl s, rfl⟩
  | abs a => exact hm rfl (by simp) (by simp)
  | absTruncated => exact hm rfl (by simp) (by simp)
  | ind n => exact hm rfl (by simp) (by simp)
  | postInc n => exact hm rfl (by simp) (by simp)
  | preDec n => exact hm rfl (by simp) (by simp)
  | noMode m n => exact hm rfl (by simp) (by simp)

/-- Storing a result: the operand holds it and the flags describe it, or AddressOutOfRange with no flag changed. -/
theorem storeResult_spec (k : Slot) (sz : Size) (op : Operand) (o : AluOut sz.bits) (s : State) :
    (operandInRange k sz op s = true ∧ ∃ t, storeResult k sz op o s = .ok () (t.setFlags o) ∧ Stored k sz op o.r s t) ∨
    (operandInRange k sz op s = false ∧ ∃ t, storeResult k sz op o s = .raised .addressOutOfRange t ∧ Quiet s t) := by
  unfold storeResult
  have q := Quiet.fillR s sz o.r
  rcases writeOp_spec k sz op o.r (s.fillR sz o.r) with ⟨h, t, e, u, qu, hu⟩ | ⟨h, e⟩ <;>
    rw [q.operandInRange] at h <;> rw [e]
  · exact .inl ⟨h, t, rfl, u, q.trans qu, by simpa only [q.opAddr] using hu⟩
  · exact .inr ⟨h, _, rfl, q⟩

/-! ### The effect of a store, field by field -/

@[simp] theorem setLow_read (sz : Size) (old : Long) (v : BitVec sz.bits) : (setLow sz old v).setWidth sz.bits = v := by
  apply BitVec.eq_of_getLsbD_eq
  intro i hi
  cases sz
  · have hi : i < 8 := hi
    simp [setLow, BitVec.getLsbD_append, hi]
  · have hi : i < 16 := hi
    simp [setLow, BitVec.getLsbD_append, hi]
  · simp [setLow]

/-- The bits above the size are those of the old register (spec/10_state.md R23). -/
theorem setLow_upper (sz : Size) (old : Long) (v : BitVec sz.bits) {j : Nat} (h : sz.bits ≤ j) :
    (setLow sz old v).getLsbD j = old.getLsbD j := by
  cases sz
  · have h : 8 ≤ j := h
    simp only [setLow, BitVec.getLsbD_append, BitVec.getLsbD_extractLsb']
    rw [if_neg (by omega), show 8 + (j - 8) = j by omega]
    by_cases hj : j < 32
    · simp [show j - 8 < 24 by omega]
    · rw [BitVec.getLsbD_of_ge _ _ (by omega)]; simp
  · have h : 16 ≤ j := h
    simp only [setLow, BitVec.getLsbD_append, BitVec.getLsbD_extractLsb']
    rw [if_neg (by omega), show 16 + (j - 16) = j by omega]
    by_cases hj : j < 32
    · simp [show j - 16 < 16 by omega]
    · rw [BitVec.getLsbD_of_ge _ _ (by omega)]; simp
  · have h : 32 ≤ j := h
    simp only [setLow]
    rw [BitVec.getLsbD_of_ge _ _ h, BitVec.getLsbD_of_ge _ _ h]

end Sys2Proof.Machine
end

