-- ==== Sys2Proof/Laws/Execute.lean ====
section
/-! SUPPORT. What a store leaves in each field, what Fetch_Operands does, and how an instruction ends: one lemma per shared
operation, over the lemmas of Laws/Ops.lean. -/

namespace Sys2Proof.Machine

/-! ### A store, field by field -/

theorem Stored.pc {k sz op v s t} (h : Stored k sz op v s t) : t.pc = s.pc := by
  obtain ⟨u, q, e⟩ := h
  cases op <;> first | (subst e; simp [q.pc]) | (obtain ⟨-, rfl⟩ := e; simp [q.pc])

theorem Stored.status {k sz op v s t} (h : Stored k sz op v s t) : t.status = s.status := by
  obtain ⟨u, q, e⟩ := h
  cases op <;> first | (subst e; simp [q.status]) | (obtain ⟨-, rfl⟩ := e; simp [q.status])

theorem Stored.trace {k sz op v s t} (h : Stored k sz op v s t) : t.trace = s.trace := by
  obtain ⟨u, q, e⟩ := h
  cases op <;> first | (subst e; simp [q.trace]) | (obtain ⟨-, rfl⟩ := e; simp [q.trace])

theorem Stored.input {k sz op v s t} (h : Stored k sz op v s t) : t.input = s.input := by
  obtain ⟨u, q, e⟩ := h
  cases op <;> first | (subst e; simp [q.input]) | (obtain ⟨-, rfl⟩ := e; simp [q.input])

theorem Stored.drawn {k sz op v s t} (h : Stored k sz op v s t) : t.drawn = s.drawn := by
  obtain ⟨u, q, e⟩ := h
  cases op <;> first | (subst e; simp [q.drawn]) | (obtain ⟨-, rfl⟩ := e; simp [q.drawn])

theorem Stored.free {k sz op v s t} (h : Stored k sz op v s t) : t.free = s.free := by
  obtain ⟨u, q, e⟩ := h
  cases op <;> first | (subst e; simp [q.free]) | (obtain ⟨-, rfl⟩ := e; simp [q.free])

theorem Stored.opAddr {k sz op v s t} (h : Stored k sz op v s t) (j : Slot) : t.opAddr j = s.opAddr j := by
  obtain ⟨u, q, e⟩ := h
  cases op <;> first | (subst e; simp [q.opAddr]) | (obtain ⟨-, rfl⟩ := e; simp [q.opAddr])

/-- The operand holds the value stored. -/
theorem Stored.value {k sz op v s t} (h : Stored k sz op v s t) (hm : Memory.rising s.mem) : operandValue k sz op t = v := by
  have ha := h.opAddr k
  obtain ⟨u, q, e⟩ := h
  have hm' : Memory.rising u.mem := q.mem ▸ hm
  cases op with
  | dreg n => subst e; simp [operandValue]
  | areg n => subst e; simp [operandValue]
  | _ =>
    obtain ⟨-, rfl⟩ := e
    simp only [operandValue, ha, State.store_mem]
    exact Memory.value_writeBytes_same hm' sz _ v

/-- A data register that is not the operand is as before. -/
theorem Stored.dreg_other {k sz op v s t} (h : Stored k sz op v s t) {n : RegNo} (hn : op ≠ .dreg n) :
    t.dreg n = s.dreg n := by
  obtain ⟨u, q, e⟩ := h
  cases op with
  | dreg m => subst e; rw [State.setD_dreg_other _ (fun h => hn (by rw [h])), q.dreg]
  | areg m => subst e; simp [q.dreg]
  | _ => obtain ⟨-, rfl⟩ := e; simp [q.dreg]

/-- An address register that is not the operand is as before. -/
theorem Stored.areg_other {k sz op v s t} (h : Stored k sz op v s t) {n : RegNo} (hn : op ≠ .areg n) :
    t.areg n = s.areg n := by
  obtain ⟨u, q, e⟩ := h
  cases op with
  | dreg m => subst e; simp [q.areg]
  | areg m => subst e; rw [State.setA_areg_other _ (fun h => hn (by rw [h])), q.areg]
  | _ => obtain ⟨-, rfl⟩ := e; simp [q.areg]

/-- The bits of a data register above the size are as before (spec/10_state.md R23). -/
theorem Stored.dreg_upper {k sz v s t} {n : RegNo} (h : Stored k sz (.dreg n) v s t) {j : Nat} (hj : sz.bits ≤ j) :
    (t.dreg n).getLsbD j = (s.dreg n).getLsbD j := by
  obtain ⟨u, q, rfl⟩ := h
  rw [State.setD_dreg_same, setLow_upper _ _ _ hj, q.dreg]

/-- The bits of an address register above the size are as before (spec/10_state.md R23). -/
theorem Stored.areg_upper {k sz v s t} {n : RegNo} (h : Stored k sz (.areg n) v s t) {j : Nat} (hj : sz.bits ≤ j) :
    (t.areg n).getLsbD j = (s.areg n).getLsbD j := by
  obtain ⟨u, q, rfl⟩ := h
  rw [State.setA_areg_same, setLow_upper _ _ _ hj, q.areg]

/-- Every byte outside the stored ones is as before (spec/20_memory.md R53). -/
theorem Stored.byteAt_other {k sz op v s t} (h : Stored k sz op v s t) (hm : Memory.rising s.mem) {x : Nat}
    (hx : isReg op = true ∨ x < (s.opAddr k).toNat ∨ (s.opAddr k).toNat + sz.bytes ≤ x) : t.byteAt x = s.byteAt x := by
  obtain ⟨u, q, e⟩ := h
  have hm' : Memory.rising u.mem := q.mem ▸ hm
  cases op with
  | dreg m => subst e; simp [q.byteAt]
  | areg m => subst e; simp [q.byteAt]
  | _ =>
    obtain ⟨-, rfl⟩ := e
    simp only [isReg, Bool.false_eq_true, false_or] at hx
    rw [State.store_byteAt_other hm' sz _ v hx, q.byteAt]

/-- A store keeps the canonical form of memory. -/
theorem Stored.wf {k sz op v s t} (h : Stored k sz op v s t) (hm : s.mem.wf) : t.mem.wf := by
  obtain ⟨u, q, e⟩ := h
  have hm' : u.mem.wf := q.mem.symm ▸ hm
  cases op with
  | dreg m => subst e; simpa using hm'
  | areg m => subst e; simpa using hm'
  | _ =>
    obtain ⟨hi, rfl⟩ := e
    simp only [inMemory, decide_eq_true_eq] at hi
    simp only [State.store_mem]
    exact Memory.wf_writeBytes hm' _ _ (by simpa using hi)

/-- A store to a register leaves memory as it is. -/
theorem Stored.mem_of_reg {k sz op v s t} (h : Stored k sz op v s t) (hr : isReg op = true) : t.mem = s.mem := by
  obtain ⟨u, q, e⟩ := h
  cases op <;> first | (subst e; simp [q.mem]) | simp [isReg] at hr

/-! ### Fetch_Operands -/

/-- `t` differs from `s` at most in PC, the address registers and the internal registers: all that locating an operand can
change, whether it succeeds or raises (spec/40_cycle_and_addressing.md R126). -/
structure Located (s t : State) : Prop where
  dreg : ∀ n, t.dreg n = s.dreg n
  status : t.status = s.status
  mem : t.mem = s.mem
  trace : t.trace = s.trace
  input : t.input = s.input
  drawn : t.drawn = s.drawn
  free : t.free = s.free

theorem Located.refl (s : State) : Located s s := ⟨fun _ => rfl, rfl, rfl, rfl, rfl, rfl, rfl⟩

theorem Located.trans {s t u : State} (h : Located s t) (g : Located t u) : Located s u :=
  ⟨fun n => (g.dreg n).trans (h.dreg n), g.status.trans h.status, g.mem.trans h.mem, g.trace.trans h.trace,
    g.input.trans h.input, g.drawn.trans h.drawn, g.free.trans h.free⟩

theorem Located.loadDS (s : State) (d : BitVec 2) : Located s (s.loadDS d) := by
  constructor <;> simp

theorem captureEA_spec (k : Slot) (v : Long) (s : State) :
    (v.toNat ≤ Config.memTop ∧ captureEA k v s = .ok () (s.setOpAddr k (v.extractLsb' 0 16))) ∨
    (Config.memTop < v.toNat ∧ captureEA k v s = .raised .addressOutOfRange s) := by
  unfold captureEA eaOk
  by_cases h : v.toNat ≤ Config.memTop
  · exact .inl ⟨h, by simp [h]⟩
  · exact .inr ⟨by omega, by simp [h]⟩

/-- Locating an operand changes only what `Located` says, and raises only AddressOutOfRange unless its mode is none. -/
theorem locate_spec (k : Slot) (sz : Size) (op : Operand) (s : State) :
    (∃ t, locate k sz op s = .ok () t ∧ Located s t) ∨
    (∃ e t, locate k sz op s = .raised e t ∧ Located s t ∧ (e = .addressOutOfRange ∨ ∃ m n, op = .noMode m n)) := by
  cases op with
  | dreg n => exact .inl ⟨s, rfl, Located.refl s⟩
  | areg n => exact .inl ⟨s, rfl, Located.refl s⟩
  | abs a => exact .inl ⟨_, rfl, by constructor <;> simp [fetchExtension]⟩
  | absTruncated => exact .inr ⟨_, s, rfl, Located.refl s, .inl rfl⟩
  | ind n =>
    rcases captureEA_spec k (s.areg n) s with ⟨-, e⟩ | ⟨-, e⟩ <;> simp only [locate, e]
    · exact .inl ⟨_, rfl, by constructor <;> simp⟩
    · exact .inr ⟨_, _, rfl, Located.refl s, .inl rfl⟩
  | postInc n =>
    rcases captureEA_spec k (s.areg n) s with ⟨-, e⟩ | ⟨-, e⟩ <;> simp only [locate, e, Result.andThen]
    · exact .inl ⟨_, rfl, by constructor <;> simp⟩
    · exact .inr ⟨_, _, rfl, Located.refl s, .inl rfl⟩
  | preDec n =>
    rcases captureEA_spec k ((s.setA n (s.areg n - stepOf sz)).areg n) (s.setA n (s.areg n - stepOf sz)) with
      ⟨-, e⟩ | ⟨-, e⟩ <;> simp only [locate, e]
    · exact .inl ⟨_, rfl, by constructor <;> simp⟩
    · exact .inr ⟨_, _, rfl, by constructor <;> simp, .inl rfl⟩
  | noMode m n => exact .inr ⟨_, s, rfl, Located.refl s, .inr ⟨m, n, rfl⟩⟩

/-- Where locating an operand raises, the state is as before but for a pre-decrement's step, which comes before the address is
captured (spec/60_exceptions.md R245). -/
theorem locate_raised {k : Slot} {sz : Size} {op : Operand} {s t : State} {e : ErrorKind}
    (h : locate k sz op s = .raised e t) : t = s ∨ ∃ n, op = .preDec n ∧ t = s.setA n (s.areg n - stepOf sz) := by
  cases op with
  | dreg n => cases h
  | areg n => cases h
  | abs a => cases h
  | absTruncated => cases h; exact .inl rfl
  | noMode m n => cases h; exact .inl rfl
  | ind n =>
    rcases captureEA_spec k (s.areg n) s with ⟨-, g⟩ | ⟨-, g⟩ <;> rw [locate, g] at h <;> cases h
    exact .inl rfl
  | postInc n =>
    rcases captureEA_spec k (s.areg n) s with ⟨-, g⟩ | ⟨-, g⟩ <;> rw [locate, g] at h <;> cases h
    exact .inl rfl
  | preDec n =>
    rcases captureEA_spec k ((s.setA n (s.areg n - stepOf sz)).areg n) (s.setA n (s.areg n - stepOf sz)) with
      ⟨-, g⟩ | ⟨-, g⟩ <;> simp only [locate, g] at h <;> cases h
    exact .inr ⟨n, rfl, rfl⟩

theorem locateOpt_spec (k : Slot) (sz : Size) (op : Option Operand) (s : State) :
    (∃ t, locateOpt k sz op s = .ok () t ∧ Located s t) ∨
    (∃ e t, locateOpt k sz op s = .raised e t ∧ Located s t ∧
      (e = .addressOutOfRange ∨ ∃ m n, op = some (.noMode m n))) := by
  cases op with
  | none => exact .inl ⟨s, rfl, Located.refl s⟩
  | some op => simpa [locateOpt] using locate_spec k sz op s

/-- Fetch_Operands: the state Execute begins in, or an error with the changes made so far. -/
theorem fetchOperands_spec (sz : Size) (op1 op2 : Option Operand) (s : State) :
    (∃ t, fetchOperands sz op1 op2 s = .ok () t ∧ Located s t) ∨
    (∃ e t, fetchOperands sz op1 op2 s = .raised e t ∧ Located s t ∧
      (e = .addressOutOfRange ∨ (∃ m n, op1 = some (.noMode m n)) ∨ ∃ m n, op2 = some (.noMode m n))) := by
  unfold fetchOperands
  rcases locateOpt_spec .first sz op1 s with ⟨t, e, q⟩ | ⟨x, t, e, q, hx⟩ <;> rw [e]
  · rcases locateOpt_spec .second sz op2 t with ⟨u, e', q'⟩ | ⟨x, u, e', q', hx⟩ <;> simp only [Result.andThen, e']
    · exact .inl ⟨u, rfl, q.trans q'⟩
    · exact .inr ⟨x, u, rfl, q.trans q', hx.imp id .inr⟩
  · exact .inr ⟨x, t, rfl, q, hx.imp id .inl⟩

/-! ### How an instruction ends -/

/-- The three ways an instruction ends: a decode error, an error while locating its operands, or Execute's end. -/
theorem instruction_spec (m : Mnemonic) (info : OpInfo) (op1 op2 : Option Operand)
    (f : Size → State → Result Unit) (s : State) :
    (∃ k, checkOpcode m info op1 op2 = .error k ∧
      instruction m info op1 op2 f s = .next (raiseError k (some m) (opcodeAddress s) (s.loadDS info.ds))) ∨
    (∃ sz k t, checkOpcode m info op1 op2 = .ok sz ∧ fetchOperands sz op1 op2 (s.loadDS info.ds) = .raised k t ∧
      instruction m info op1 op2 f s = .next (raiseError k (some m) (opcodeAddress s) t)) ∨
    (∃ sz t, checkOpcode m info op1 op2 = .ok sz ∧ fetchOperands sz op1 op2 (s.loadDS info.ds) = .ok () t ∧
      instruction m info op1 op2 f s = (f sz t).finish m (opcodeAddress s)) := by
  unfold instruction
  cases hc : checkOpcode m info op1 op2 with
  | error k => exact .inl ⟨k, rfl, rfl⟩
  | ok sz =>
    cases hf : fetchOperands sz op1 op2 (s.loadDS info.ds) with
    | ok a t => exact .inr (.inr ⟨sz, t, rfl, hf, by simp [hf]⟩)
    | raised k t => exact .inr (.inl ⟨sz, k, t, rfl, hf, by simp [hf, Result.finish]⟩)

/-- With its opcode valid and its operands located, an instruction is its Execute. -/
theorem instruction_of_located {m : Mnemonic} {info : OpInfo} {op1 op2 : Option Operand} {sz : Size} {s e : State}
    (f : Size → State → Result Unit) (hc : checkOpcode m info op1 op2 = .ok sz)
    (hf : fetchOperands sz op1 op2 (s.loadDS info.ds) = .ok () e) :
    instruction m info op1 op2 f s = (f sz e).finish m (opcodeAddress s) := by
  simp [instruction, hc, hf]

end Sys2Proof.Machine
end

