-- ==== Sys2Proof/Laws/PerInstr.lean ====
section
/-! SUPPORT. One lemma per constructor of Instr: decoding the encoding of a well-formed instruction gives it back, whatever
bytes follow. First the opcode word's fields and one operand's round trip, once. -/

namespace Sys2Proof.Laws

/-! ### The fields of an opcode word -/

theorem opcode_O (o : BitVec 5) (ds : BitVec 2) (p : BitVec 1) (f : BitVec 8) :
    (o ++ ds ++ p ++ f : Word).extractLsb' 11 5 = o := by
  apply BitVec.eq_of_getLsbD_eq
  intro i hi
  simp only [BitVec.getLsbD_extractLsb', BitVec.getLsbD_append, hi, decide_true, Bool.true_and]
  rw [if_neg (by omega), if_neg (by omega), if_neg (by omega)]
  congr 1; omega

theorem opcode_DS (o : BitVec 5) (ds : BitVec 2) (p : BitVec 1) (f : BitVec 8) :
    (o ++ ds ++ p ++ f : Word).extractLsb' 9 2 = ds := by
  apply BitVec.eq_of_getLsbD_eq
  intro i hi
  simp only [BitVec.getLsbD_extractLsb', BitVec.getLsbD_append, hi, decide_true, Bool.true_and]
  rw [if_neg (by omega), if_neg (by omega), if_pos (by omega)]
  congr 1; omega

theorem opcode_P (o : BitVec 5) (ds : BitVec 2) (p : Bool) (f : BitVec 8) :
    (o ++ ds ++ BitVec.ofBool p ++ f : Word).getLsbD 8 = p := by
  simp only [BitVec.getLsbD_append]
  cases p <;> rfl

theorem opcode_field (o : BitVec 5) (ds : BitVec 2) (p : BitVec 1) (f : BitVec 8) (i n : Nat) (h : i + n ≤ 8) :
    (o ++ ds ++ p ++ f : Word).extractLsb' i n = f.extractLsb' i n := by
  apply BitVec.eq_of_getLsbD_eq
  intro j hj
  simp only [BitVec.getLsbD_extractLsb', BitVec.getLsbD_append, hj, decide_true, Bool.true_and]
  rw [if_pos (by omega)]

theorem fields_high (a b : BitVec 4) (i n : Nat) (_h : i + n ≤ 4) :
    (a ++ b : BitVec 8).extractLsb' (4 + i) n = a.extractLsb' i n := by
  apply BitVec.eq_of_getLsbD_eq
  intro j hj
  simp only [BitVec.getLsbD_extractLsb', BitVec.getLsbD_append, hj, decide_true, Bool.true_and]
  rw [if_neg (by omega)]
  congr 1; omega

theorem fields_low (a b : BitVec 4) (i n : Nat) (h : i + n ≤ 4) :
    (a ++ b : BitVec 8).extractLsb' i n = b.extractLsb' i n := by
  apply BitVec.eq_of_getLsbD_eq
  intro j hj
  simp only [BitVec.getLsbD_extractLsb', BitVec.getLsbD_append, hj, decide_true, Bool.true_and]
  rw [if_pos (by omega)]

theorem field_mode (m : BitVec 3) (n : BitVec 1) : (m ++ n : BitVec 4).extractLsb' 1 3 = m := by
  revert m n; decide

theorem field_bit (m : BitVec 3) (n : BitVec 1) : (m ++ n : BitVec 4).extractLsb' 0 1 = n := by
  revert m n; decide

/-- Every OpName selects its own instruction (spec/30_encoding.md R90). -/
theorem ofOpName_opName (m : Mnemonic) : Mnemonic.ofOpName m.opName = m := by cases m <;> rfl

theorem opInfo_opcode (i : Instr) : opInfo i.opcode = i.info := by
  simp only [opInfo, Instr.opcode, opcode_DS, opcode_P]

/-! ### One operand -/

theorem wordBytes_append (a : Word) (rest : List Byte) :
    wordsBytes [a] ++ rest = a.extractLsb' 8 8 :: a.extractLsb' 0 8 :: rest := rfl

/-- An operand whose extension word is there adds that word's bytes to the length. -/
theorem extBytes_of_present {op : Option Operand} (h : extWordPresent op = true) :
    extBytes op = 2 * (extWordsOf op).length := by
  rcases op with _ | _ | _ | _ | _ | _ | _ | _ | _ | _ <;> first | rfl | cases h

/-- With its extension words there, an instruction is as long as its encoding (spec/30_encoding.md R96). -/
theorem length_of_present {i : Instr} (h : i.extWordsPresent = true) : i.length = 2 * (encode i).length := by
  obtain ⟨h1, h2⟩ := (Bool.and_eq_true _ _).mp h
  simp only [Instr.length, extBytes_of_present h1, extBytes_of_present h2, encode, List.length_cons, List.length_append]
  omega

/-- An operand whose extension word is there is read back from its fields and its extension word. -/
theorem readOperand_field (op : Operand) (rest : List Byte) (h : op ≠ .absTruncated) :
    readOperand op.mode op.regBit (wordsBytes op.extWords ++ rest) = (op, rest) := by
  cases op with
  | abs a =>
    show (Operand.abs (a.extractLsb' 8 8 ++ a.extractLsb' 0 8), rest) = _
    rw [Machine.append_bytes_word]
  | absTruncated => exact absurd rfl h
  | noMode m n => cases m <;> cases n <;> rfl
  | dreg n => cases n <;> rfl
  | areg n => cases n <;> rfl
  | ind n => cases n <;> rfl
  | postInc n => cases n <;> rfl
  | preDec n => cases n <;> rfl

theorem readOp1_opcode (o : BitVec 5) (ds : BitVec 2) (p : BitVec 1) (op : Operand) (g : BitVec 4) (rest : List Byte)
    (h : op ≠ .absTruncated) :
    readOp1 (o ++ ds ++ p ++ (op.field ++ g : BitVec 8) : Word) (wordsBytes op.extWords ++ rest) = (op, rest) := by
  simp only [readOp1]
  rw [opcode_field _ _ _ _ 5 3 (by omega), opcode_field _ _ _ _ 4 1 (by omega), fields_high _ _ 1 3 (by omega),
    fields_high _ _ 0 1 (by omega), Operand.field, field_mode, field_bit]
  exact readOperand_field op rest h

theorem readOp2_opcode (o : BitVec 5) (ds : BitVec 2) (p : BitVec 1) (op : Operand) (g : BitVec 4) (rest : List Byte)
    (h : op ≠ .absTruncated) :
    readOp2 (o ++ ds ++ p ++ (g ++ op.field : BitVec 8) : Word) (wordsBytes op.extWords ++ rest) = (op, rest) := by
  simp only [readOp2]
  rw [opcode_field _ _ _ _ 1 3 (by omega), opcode_field _ _ _ _ 0 1 (by omega), fields_low _ _ 1 3 (by omega),
    fields_low _ _ 0 1 (by omega), Operand.field, field_mode, field_bit]
  exact readOperand_field op rest h

theorem data_opcode (o : BitVec 5) (ds : BitVec 2) (p : BitVec 1) (data g : BitVec 4) :
    (o ++ ds ++ p ++ (data ++ g : BitVec 8) : Word).extractLsb' 4 4 = data := by
  rw [opcode_field _ _ _ _ 4 4 (by omega), fields_high _ _ 0 4 (by omega)]
  simp

/-! ### Instructions by their shape -/

theorem wordsBytes_append (xs ys : List Word) : wordsBytes (xs ++ ys) = wordsBytes xs ++ wordsBytes ys := by
  simp [wordsBytes]

theorem decode_words (i : Instr) (ws : List Word) (rest : List Byte) :
    decode (wordsBytes (i.opcode :: ws) ++ rest) = .ok (decodeOpcode i.opcode (wordsBytes ws ++ rest)) := by
  show decode (i.opcode.extractLsb' 8 8 :: i.opcode.extractLsb' 0 8 :: (wordsBytes ws ++ rest)) = _
  simp only [decode]
  rw [Machine.append_bytes_word]

theorem ofOpName_opcode (i : Instr) : Mnemonic.ofOpName (i.opcode.extractLsb' 11 5) = i.mnemonic := by
  rw [Instr.opcode, opcode_O, ofOpName_opName]

theorem present_of_wellFormed {i : Instr} (h : i.wellFormed = true) :
    (∀ op, i.op1 = some op → op ≠ .absTruncated) ∧ (∀ op, i.op2 = some op → op ≠ .absTruncated) := by
  simp only [Instr.wellFormed, Instr.extWordsPresent, Bool.and_eq_true] at h
  obtain ⟨-, h1, h2⟩ := h
  constructor
  · intro op e e'; rw [e, e'] at h1; simp [extWordPresent] at h1
  · intro op e e'; rw [e, e'] at h2; simp [extWordPresent] at h2

theorem readTwo_encode (mk : OpInfo → Operand → Operand → Instr) (i : Instr) (o1 o2 : Operand) (rest : List Byte)
    (hf : i.operandField = o1.field ++ o2.field) (h1 : o1 ≠ .absTruncated) (h2 : o2 ≠ .absTruncated) :
    readTwo mk i.opcode (wordsBytes (o1.extWords ++ o2.extWords) ++ rest) = (mk i.info o1 o2, rest) := by
  unfold readTwo
  rw [opInfo_opcode, wordsBytes_append, List.append_assoc, Instr.opcode, hf, readOp1_opcode _ _ _ _ _ _ h1]
  simp only
  rw [readOp2_opcode _ _ _ _ _ _ h2]

theorem readOne_encode (mk : OpInfo → Operand → Instr) (i : Instr) (o1 : Operand) (rest : List Byte)
    (hf : i.operandField = o1.field ++ (0 : BitVec 4)) (h1 : o1 ≠ .absTruncated) :
    readOne mk i.opcode (wordsBytes (o1.extWords ++ []) ++ rest) = (mk i.info o1, rest) := by
  unfold readOne
  rw [opInfo_opcode, List.append_nil, Instr.opcode, hf, readOp1_opcode _ _ _ _ _ _ h1]

theorem readQuick_encode (mk : OpInfo → BitVec 4 → Operand → Instr) (i : Instr) (data : BitVec 4) (o2 : Operand)
    (rest : List Byte) (hf : i.operandField = data ++ o2.field) (h2 : o2 ≠ .absTruncated) :
    readQuick mk i.opcode (wordsBytes ([] ++ o2.extWords) ++ rest) = (mk i.info data o2, rest) := by
  unfold readQuick
  rw [opInfo_opcode, List.nil_append, Instr.opcode, hf, readOp2_opcode _ _ _ _ _ _ h2, data_opcode]

/-! ### The family -/

/-- Decoding the encoding of a well-formed instruction gives it back, whatever bytes follow. -/
def RoundTrip.Statement (i : Instr) : Prop :=
  ∀ rest : List Byte, i.wellFormed = true → decode (wordsBytes (encode i) ++ rest) = .ok (i, rest)

theorem RoundTrip.add (info : OpInfo) (o1 o2 : Operand) : RoundTrip.Statement (.add info o1 o2) := by
  intro rest h
  have hp := present_of_wellFormed h
  rw [encode, decode_words, decodeOpcode, ofOpName_opcode]
  exact congrArg _ (readTwo_encode .add _ o1 o2 rest rfl (hp.1 o1 rfl) (hp.2 o2 rfl))

theorem RoundTrip.addq (info : OpInfo) (data : BitVec 4) (o2 : Operand) : RoundTrip.Statement (.addq info data o2) := by
  intro rest h
  have hp := present_of_wellFormed h
  rw [encode, decode_words, decodeOpcode, ofOpName_opcode]
  exact congrArg _ (readQuick_encode .addq _ data o2 rest rfl (hp.2 o2 rfl))

theorem RoundTrip.sub (info : OpInfo) (o1 o2 : Operand) : RoundTrip.Statement (.sub info o1 o2) := by
  intro rest h
  have hp := present_of_wellFormed h
  rw [encode, decode_words, decodeOpcode, ofOpName_opcode]
  exact congrArg _ (readTwo_encode .sub _ o1 o2 rest rfl (hp.1 o1 rfl) (hp.2 o2 rfl))

theorem RoundTrip.subq (info : OpInfo) (data : BitVec 4) (o2 : Operand) : RoundTrip.Statement (.subq info data o2) := by
  intro rest h
  have hp := present_of_wellFormed h
  rw [encode, decode_words, decodeOpcode, ofOpName_opcode]
  exact congrArg _ (readQuick_encode .subq _ data o2 rest rfl (hp.2 o2 rfl))

theorem RoundTrip.muls (info : OpInfo) (o1 o2 : Operand) : RoundTrip.Statement (.muls info o1 o2) := by
  intro rest h
  have hp := present_of_wellFormed h
  rw [encode, decode_words, decodeOpcode, ofOpName_opcode]
  exact congrArg _ (readTwo_encode .muls _ o1 o2 rest rfl (hp.1 o1 rfl) (hp.2 o2 rfl))

theorem RoundTrip.divs (info : OpInfo) (o1 o2 : Operand) : RoundTrip.Statement (.divs info o1 o2) := by
  intro rest h
  have hp := present_of_wellFormed h
  rw [encode, decode_words, decodeOpcode, ofOpName_opcode]
  exact congrArg _ (readTwo_encode .divs _ o1 o2 rest rfl (hp.1 o1 rfl) (hp.2 o2 rfl))

theorem RoundTrip.neg (info : OpInfo) (o1 : Operand) : RoundTrip.Statement (.neg info o1) := by
  intro rest h
  have hp := present_of_wellFormed h
  rw [encode, decode_words, decodeOpcode, ofOpName_opcode]
  exact congrArg _ (readOne_encode .neg _ o1 rest rfl (hp.1 o1 rfl))

theorem RoundTrip.clr (info : OpInfo) (o1 : Operand) : RoundTrip.Statement (.clr info o1) := by
  intro rest h
  have hp := present_of_wellFormed h
  rw [encode, decode_words, decodeOpcode, ofOpName_opcode]
  exact congrArg _ (readOne_encode .clr _ o1 rest rfl (hp.1 o1 rfl))

theorem RoundTrip.not (info : OpInfo) (o1 : Operand) : RoundTrip.Statement (.not info o1) := by
  intro rest h
  have hp := present_of_wellFormed h
  rw [encode, decode_words, decodeOpcode, ofOpName_opcode]
  exact congrArg _ (readOne_encode .not _ o1 rest rfl (hp.1 o1 rfl))

theorem RoundTrip.and (info : OpInfo) (o1 o2 : Operand) : RoundTrip.Statement (.and info o1 o2) := by
  intro rest h
  have hp := present_of_wellFormed h
  rw [encode, decode_words, decodeOpcode, ofOpName_opcode]
  exact congrArg _ (readTwo_encode .and _ o1 o2 rest rfl (hp.1 o1 rfl) (hp.2 o2 rfl))

theorem RoundTrip.or (info : OpInfo) (o1 o2 : Operand) : RoundTrip.Statement (.or info o1 o2) := by
  intro rest h
  have hp := present_of_wellFormed h
  rw [encode, decode_words, decodeOpcode, ofOpName_opcode]
  exact congrArg _ (readTwo_encode .or _ o1 o2 rest rfl (hp.1 o1 rfl) (hp.2 o2 rfl))

theorem RoundTrip.eor (info : OpInfo) (o1 o2 : Operand) : RoundTrip.Statement (.eor info o1 o2) := by
  intro rest h
  have hp := present_of_wellFormed h
  rw [encode, decode_words, decodeOpcode, ofOpName_opcode]
  exact congrArg _ (readTwo_encode .eor _ o1 o2 rest rfl (hp.1 o1 rfl) (hp.2 o2 rfl))

theorem RoundTrip.asl (info : OpInfo) (data : BitVec 4) (o2 : Operand) : RoundTrip.Statement (.asl info data o2) := by
  intro rest h
  have hp := present_of_wellFormed h
  rw [encode, decode_words, decodeOpcode, ofOpName_opcode]
  exact congrArg _ (readQuick_encode .asl _ data o2 rest rfl (hp.2 o2 rfl))

theorem RoundTrip.asr (info : OpInfo) (data : BitVec 4) (o2 : Operand) : RoundTrip.Statement (.asr info data o2) := by
  intro rest h
  have hp := present_of_wellFormed h
  rw [encode, decode_words, decodeOpcode, ofOpName_opcode]
  exact congrArg _ (readQuick_encode .asr _ data o2 rest rfl (hp.2 o2 rfl))

theorem RoundTrip.rol (info : OpInfo) (data : BitVec 4) (o2 : Operand) : RoundTrip.Statement (.rol info data o2) := by
  intro rest h
  have hp := present_of_wellFormed h
  rw [encode, decode_words, decodeOpcode, ofOpName_opcode]
  exact congrArg _ (readQuick_encode .rol _ data o2 rest rfl (hp.2 o2 rfl))

theorem RoundTrip.ror (info : OpInfo) (data : BitVec 4) (o2 : Operand) : RoundTrip.Statement (.ror info data o2) := by
  intro rest h
  have hp := present_of_wellFormed h
  rw [encode, decode_words, decodeOpcode, ofOpName_opcode]
  exact congrArg _ (readQuick_encode .ror _ data o2 rest rfl (hp.2 o2 rfl))

theorem RoundTrip.cmp (info : OpInfo) (o1 o2 : Operand) : RoundTrip.Statement (.cmp info o1 o2) := by
  intro rest h
  have hp := present_of_wellFormed h
  rw [encode, decode_words, decodeOpcode, ofOpName_opcode]
  exact congrArg _ (readTwo_encode .cmp _ o1 o2 rest rfl (hp.1 o1 rfl) (hp.2 o2 rfl))

theorem RoundTrip.tst (info : OpInfo) (o1 : Operand) : RoundTrip.Statement (.tst info o1) := by
  intro rest h
  have hp := present_of_wellFormed h
  rw [encode, decode_words, decodeOpcode, ofOpName_opcode]
  exact congrArg _ (readOne_encode .tst _ o1 rest rfl (hp.1 o1 rfl))

theorem RoundTrip.bra (info : OpInfo) (o1 : Operand) : RoundTrip.Statement (.bra info o1) := by
  intro rest h
  have hp := present_of_wellFormed h
  rw [encode, decode_words, decodeOpcode, ofOpName_opcode]
  exact congrArg _ (readOne_encode .bra _ o1 rest rfl (hp.1 o1 rfl))

theorem RoundTrip.bvs (info : OpInfo) (o1 : Operand) : RoundTrip.Statement (.bvs info o1) := by
  intro rest h
  have hp := present_of_wellFormed h
  rw [encode, decode_words, decodeOpcode, ofOpName_opcode]
  exact congrArg _ (readOne_encode .bvs _ o1 rest rfl (hp.1 o1 rfl))

theorem RoundTrip.beq (info : OpInfo) (o1 : Operand) : RoundTrip.Statement (.beq info o1) := by
  intro rest h
  have hp := present_of_wellFormed h
  rw [encode, decode_words, decodeOpcode, ofOpName_opcode]
  exact congrArg _ (readOne_encode .beq _ o1 rest rfl (hp.1 o1 rfl))

theorem RoundTrip.bcs (info : OpInfo) (o1 : Operand) : RoundTrip.Statement (.bcs info o1) := by
  intro rest h
  have hp := present_of_wellFormed h
  rw [encode, decode_words, decodeOpcode, ofOpName_opcode]
  exact congrArg _ (readOne_encode .bcs _ o1 rest rfl (hp.1 o1 rfl))

theorem RoundTrip.bge (info : OpInfo) (o1 : Operand) : RoundTrip.Statement (.bge info o1) := by
  intro rest h
  have hp := present_of_wellFormed h
  rw [encode, decode_words, decodeOpcode, ofOpName_opcode]
  exact congrArg _ (readOne_encode .bge _ o1 rest rfl (hp.1 o1 rfl))

theorem RoundTrip.ble (info : OpInfo) (o1 : Operand) : RoundTrip.Statement (.ble info o1) := by
  intro rest h
  have hp := present_of_wellFormed h
  rw [encode, decode_words, decodeOpcode, ofOpName_opcode]
  exact congrArg _ (readOne_encode .ble _ o1 rest rfl (hp.1 o1 rfl))

theorem RoundTrip.move (info : OpInfo) (o1 o2 : Operand) : RoundTrip.Statement (.move info o1 o2) := by
  intro rest h
  have hp := present_of_wellFormed h
  rw [encode, decode_words, decodeOpcode, ofOpName_opcode]
  exact congrArg _ (readTwo_encode .move _ o1 o2 rest rfl (hp.1 o1 rfl) (hp.2 o2 rfl))

theorem RoundTrip.moveq (info : OpInfo) (data : BitVec 4) (o2 : Operand) : RoundTrip.Statement (.moveq info data o2) := by
  intro rest h
  have hp := present_of_wellFormed h
  rw [encode, decode_words, decodeOpcode, ofOpName_opcode]
  exact congrArg _ (readQuick_encode .moveq _ data o2 rest rfl (hp.2 o2 rfl))

theorem RoundTrip.exg (info : OpInfo) (o1 o2 : Operand) : RoundTrip.Statement (.exg info o1 o2) := by
  intro rest h
  have hp := present_of_wellFormed h
  rw [encode, decode_words, decodeOpcode, ofOpName_opcode]
  exact congrArg _ (readTwo_encode .exg _ o1 o2 rest rfl (hp.1 o1 rfl) (hp.2 o2 rfl))

theorem RoundTrip.movea (info : OpInfo) (o1 o2 : Operand) : RoundTrip.Statement (.movea info o1 o2) := by
  intro rest h
  have hp := present_of_wellFormed h
  rw [encode, decode_words, decodeOpcode, ofOpName_opcode]
  exact congrArg _ (readTwo_encode .movea _ o1 o2 rest rfl (hp.1 o1 rfl) (hp.2 o2 rfl))

theorem RoundTrip.inp (info : OpInfo) (o1 : Operand) : RoundTrip.Statement (.inp info o1) := by
  intro rest h
  have hp := present_of_wellFormed h
  rw [encode, decode_words, decodeOpcode, ofOpName_opcode]
  exact congrArg _ (readOne_encode .inp _ o1 rest rfl (hp.1 o1 rfl))

theorem RoundTrip.dsp (info : OpInfo) (o1 : Operand) : RoundTrip.Statement (.dsp info o1) := by
  intro rest h
  have hp := present_of_wellFormed h
  rw [encode, decode_words, decodeOpcode, ofOpName_opcode]
  exact congrArg _ (readOne_encode .dsp _ o1 rest rfl (hp.1 o1 rfl))

theorem RoundTrip.dsr (info : OpInfo) : RoundTrip.Statement (.dsr info) := by
  intro rest _
  rw [encode, decode_words, decodeOpcode, ofOpName_opcode]
  exact congrArg (fun x => Except.ok (Instr.dsr x, rest)) (opInfo_opcode (.dsr info))

theorem RoundTrip.hlt (info : OpInfo) : RoundTrip.Statement (.hlt info) := by
  intro rest _
  rw [encode, decode_words, decodeOpcode, ofOpName_opcode]
  exact congrArg (fun x => Except.ok (Instr.hlt x, rest)) (opInfo_opcode (.hlt info))

end Sys2Proof.Laws
end

