-- ==== Sys2Proof/Laws/Shapes.lean ====
section
/-! SUPPORT. What each shape of Execute_Instruction does, once: it stores its result and sets the flags, or it raises
AddressOutOfRange with nothing a program can see changed. -/

namespace Sys2Proof.Machine

theorem inMemory_iff (sz : Size) (a : Nat) : inMemory sz a = true ↔ a + sz.bytes ≤ Config.memTop + 1 := by
  simp [inMemory]

theorem inMemory_eq_false_iff (sz : Size) (a : Nat) : inMemory sz a = false ↔ Config.memTop + 1 < a + sz.bytes := by
  simp [inMemory]

/-- A store after a quiet change is a store. -/
theorem Stored.of_quiet {k sz op v s u t} (q : Quiet s u) (h : Stored k sz op v u t) : Stored k sz op v s t := by
  obtain ⟨p, q', e⟩ := h
  refine ⟨p, q.trans q', ?_⟩
  simpa only [q.opAddr] using e

/-- What a shape that ends in a store does in state `s`: with every access in range it stores `o.r` in operand `k` and sets
the flags of `o`; else it raises AddressOutOfRange after a quiet change. -/
def Stores (k : Slot) (sz : Size) (dst : Operand) (o : AluOut sz.bits) (inRange : Prop) (s : State) (r : Result Unit) : Prop :=
  (inRange ∧ ∃ t, r = .ok () (t.setFlags o) ∧ Stored k sz dst o.r s t) ∨
  (¬inRange ∧ ∃ t, r = .raised .addressOutOfRange t ∧ Quiet s t)

/-- The last part of a shape, after quiet changes that lead from `s` to `u`. -/
theorem Stores.of_quiet {k sz dst s u} (o : AluOut sz.bits) (q : Quiet s u) :
    Stores k sz dst o (operandInRange k sz dst s = true) s (storeResult k sz dst o u) := by
  rcases storeResult_spec k sz dst o u with ⟨h, t, e, hs⟩ | ⟨h, t, e, q'⟩ <;> rw [q.operandInRange] at h
  · exact .inl ⟨h, t, e, hs.of_quiet q⟩
  · exact .inr ⟨by simp [h], t, e, q.trans q'⟩

/-- `D <- ReadOp(k)`, then a result stored in operand `k`, after quiet changes. -/
theorem Stores.of_readDest {k sz dst s u} (f : BitVec sz.bits → AluOut sz.bits) (q : Quiet s u) :
    Stores k sz dst (f (operandValue k sz dst s)) (operandInRange k sz dst s = true) s
      ((readDest k sz dst u).andThen fun dv t => storeResult k sz dst (f dv) t) := by
  rcases readDest_spec k sz dst u with ⟨_, t, e, q'⟩ | ⟨h, e⟩ <;> rw [e]
  · rw [q.operandValue]
    exact Stores.of_quiet _ (q.trans q')
  · rw [q.operandInRange] at h
    exact .inr ⟨by simp [h], u, rfl, q⟩

theorem runOne_spec (f : (sz : Size) → BitVec sz.bits → AluOut sz.bits) (dst : Operand) (sz : Size) (s : State) :
    Stores .first sz dst (f sz (operandValue .first sz dst s)) (operandInRange .first sz dst s = true) s
      (runOne f dst sz s) :=
  Stores.of_readDest (f sz) (Quiet.refl s)

theorem runShift_spec (f : (sz : Size) → Nat → BitVec sz.bits → AluOut sz.bits) (data : BitVec 4) (dst : Operand)
    (sz : Size) (s : State) :
    Stores .second sz dst (f sz data.toNat (operandValue .second sz dst s)) (operandInRange .second sz dst s = true) s
      (runShift f data dst sz s) :=
  Stores.of_readDest (f sz data.toNat) (Quiet.refl s)

theorem runQuick_spec (f : (sz : Size) → BitVec sz.bits → BitVec sz.bits → AluOut sz.bits) (data : BitVec 4)
    (dst : Operand) (sz : Size) (s : State) :
    Stores .second sz dst (f sz (immediate sz data) (operandValue .second sz dst s))
      (operandInRange .second sz dst s = true) s (runQuick f data dst sz s) :=
  Stores.of_readDest (f sz (immediate sz data)) (Quiet.fillS s sz (immediate sz data))

theorem runTwo_spec (f : (sz : Size) → BitVec sz.bits → BitVec sz.bits → AluOut sz.bits) (src dst : Operand) (sz : Size)
    (s : State) :
    Stores .second sz dst (f sz (operandValue .first sz src s) (operandValue .second sz dst s))
      (operandInRange .first sz src s = true ∧ operandInRange .second sz dst s = true) s (runTwo f src dst sz s) := by
  unfold runTwo
  rcases readSource_spec .first sz src s with ⟨h, t, e, q⟩ | ⟨h, e⟩ <;> rw [e]
  · simp only [h, true_and]
    exact Stores.of_readDest (f sz (operandValue .first sz src s)) q
  · exact .inr ⟨by simp [h], s, rfl, Quiet.refl s⟩

/-- A branch raises nothing: PC is the target or as it was. -/
theorem runBranch_spec (cond : Status → Bool) (s : State) :
    runBranch cond s = .ok () (s.setPC (if cond s.status then s.opAddr .first else s.pc)) := by
  unfold runBranch
  cases cond s.status <;> rfl

end Sys2Proof.Machine
end

