-- ==== Sys2Proof/Tests/Slice0.lean ====
section
/-! SUPPORT. The model's own tests: the well-formedness checks, a word of every instruction written out from spec/30_encoding.md,
single steps of spec/95_test_vectors.md, and for every statement with hypotheses a state and operands that meet them. -/

namespace Sys2Proof.Tests

open Sys2Proof.Machine Sys2Proof.Claims

/-! ### Well-formedness: each check refuses an ill-formed term the others accept -/

/-- The four checks of an instruction, in their order. -/
def checks (i : Instr) : List Bool := [i.nbOperandsOk, i.dataSizeOk, i.modesOk, i.extWordsPresent]

theorem test_wellFormed_accepts : (Instr.add ⟨0b01, true⟩ (.abs 0x0100) (.preDec .r1)).wellFormed = true := by decide

/-- ADDQ with P = 1: the opcode $0900 of spec/95_test_vectors.md section 1, example 1. -/
theorem test_wellFormed_refuses_operand_count :
    (Instr.addq ⟨0b00, true⟩ 0 (.dreg .r0)).wellFormed = false ∧
    checks (.addq ⟨0b00, true⟩ 0 (.dreg .r0)) = [false, true, true, true] := by decide

/-- BRA.B: the opcode $9060 of section 1, example 2. -/
theorem test_wellFormed_refuses_size :
    (Instr.bra ⟨0b00, false⟩ (.abs 0)).wellFormed = false ∧
    checks (.bra ⟨0b00, false⟩ (.abs 0)) = [true, false, true, true] := by decide

/-- DS = 11 names no size (R93). -/
theorem test_wellFormed_refuses_size_11 :
    (Instr.tst ⟨0b11, false⟩ (.dreg .r0)).wellFormed = false ∧
    checks (.tst ⟨0b11, false⟩ (.dreg .r0)) = [true, false, true, true] := by decide

/-- BRA.W D0: the opcode $9200 of section 1, example 3. -/
theorem test_wellFormed_refuses_mode :
    (Instr.bra ⟨0b01, false⟩ (.dreg .r0)).wellFormed = false ∧
    checks (.bra ⟨0b01, false⟩ (.dreg .r0)) = [true, true, false, true] := by decide

/-- Mode 101 names no addressing mode (R84, R94). -/
theorem test_wellFormed_refuses_mode_101 :
    (Instr.move ⟨0b10, true⟩ (.dreg .r0) (.noMode .m101 .r1)).wellFormed = false ∧
    checks (.move ⟨0b10, true⟩ (.dreg .r0) (.noMode .m101 .r1)) = [true, true, false, true] := by decide

/-- An operand of mode 011 with no extension word (R86). -/
theorem test_wellFormed_refuses_missing_extension :
    (Instr.clr ⟨0b00, false⟩ .absTruncated).wellFormed = false ∧
    checks (.clr ⟨0b00, false⟩ .absTruncated) = [true, true, true, false] := by decide

/-! ### Decoding: one word of every instruction, written as O, DS, P, then M1 N1 or Data, then M2 N2 (R81, R82, R90) -/

/-- ADD.W D0,D1 -/
theorem test_decode_add : decode [0b00000_01_1, 0b000_0_000_1] =
    .ok (.add ⟨0b01, true⟩ (.dreg .r0) (.dreg .r1), []) := rfl

/-- ADDQ.B #5,D0 -/
theorem test_decode_addq : decode [0b00001_00_0, 0b0101_000_0] =
    .ok (.addq ⟨0b00, false⟩ 5 (.dreg .r0), []) := rfl

/-- SUB.L D1,D0 -/
theorem test_decode_sub : decode [0b00010_10_1, 0b000_1_000_0] =
    .ok (.sub ⟨0b10, true⟩ (.dreg .r1) (.dreg .r0), []) := rfl

/-- SUBQ.L #15,-(A0) -/
theorem test_decode_subq : decode [0b00011_10_0, 0b1111_111_0] =
    .ok (.subq ⟨0b10, false⟩ 15 (.preDec .r0), []) := rfl

/-- MULS.W (A0)+,D1 -/
theorem test_decode_muls : decode [0b00100_01_1, 0b110_0_000_1] =
    .ok (.muls ⟨0b01, true⟩ (.postInc .r0) (.dreg .r1), []) := rfl

/-- DIVS.L $0102,D1 -/
theorem test_decode_divs : decode [0b00101_10_1, 0b011_0_000_1, 0x01, 0x02] =
    .ok (.divs ⟨0b10, true⟩ (.abs 0x0102) (.dreg .r1), []) := rfl

/-- NEG.B D1 -/
theorem test_decode_neg : decode [0b00110_00_0, 0b000_1_000_0] =
    .ok (.neg ⟨0b00, false⟩ (.dreg .r1), []) := rfl

/-- CLR.L A0 -/
theorem test_decode_clr : decode [0b00111_10_0, 0b001_0_000_0] =
    .ok (.clr ⟨0b10, false⟩ (.areg .r0), []) := rfl

/-- NOT.W (A1) -/
theorem test_decode_not : decode [0b01000_01_0, 0b100_1_000_0] =
    .ok (.not ⟨0b01, false⟩ (.ind .r1), []) := rfl

/-- AND.B (A0),(A1)+ -/
theorem test_decode_and : decode [0b01001_00_1, 0b100_0_110_1] =
    .ok (.and ⟨0b00, true⟩ (.ind .r0) (.postInc .r1), []) := rfl

/-- OR.W A1,A0 -/
theorem test_decode_or : decode [0b01010_01_1, 0b001_1_001_0] =
    .ok (.or ⟨0b01, true⟩ (.areg .r1) (.areg .r0), []) := rfl

/-- EOR.L -(A1),D0 -/
theorem test_decode_eor : decode [0b01011_10_1, 0b111_1_000_0] =
    .ok (.eor ⟨0b10, true⟩ (.preDec .r1) (.dreg .r0), []) := rfl

/-- ASL.L #12,D0 -/
theorem test_decode_asl : decode [0b01100_10_0, 0b1100_000_0] =
    .ok (.asl ⟨0b10, false⟩ 12 (.dreg .r0), []) := rfl

/-- ASR.W #1,A1 -/
theorem test_decode_asr : decode [0b01101_01_0, 0b0001_001_1] =
    .ok (.asr ⟨0b01, false⟩ 1 (.areg .r1), []) := rfl

/-- ROL.B #7,(A0) -/
theorem test_decode_rol : decode [0b01110_00_0, 0b0111_100_0] =
    .ok (.rol ⟨0b00, false⟩ 7 (.ind .r0), []) := rfl

/-- ROR.W #8,(A1)+ -/
theorem test_decode_ror : decode [0b01111_01_0, 0b1000_110_1] =
    .ok (.ror ⟨0b01, false⟩ 8 (.postInc .r1), []) := rfl

/-- CMP.W $0022,D0 -/
theorem test_decode_cmp : decode [0b10000_01_1, 0b011_0_000_0, 0x00, 0x22] =
    .ok (.cmp ⟨0b01, true⟩ (.abs 0x0022) (.dreg .r0), []) := rfl

/-- TST.L (A1)+ -/
theorem test_decode_tst : decode [0b10001_10_0, 0b110_1_000_0] =
    .ok (.tst ⟨0b10, false⟩ (.postInc .r1), []) := rfl

/-- BRA.W $0010 -/
theorem test_decode_bra : decode [0b10010_01_0, 0b011_0_000_0, 0x00, 0x10] =
    .ok (.bra ⟨0b01, false⟩ (.abs 0x0010), []) := rfl

/-- BVS.W $1234 -/
theorem test_decode_bvs : decode [0b10011_01_0, 0b011_0_000_0, 0x12, 0x34] =
    .ok (.bvs ⟨0b01, false⟩ (.abs 0x1234), []) := rfl

/-- BEQ.W $001A -/
theorem test_decode_beq : decode [0b10100_01_0, 0b011_0_000_0, 0x00, 0x1A] =
    .ok (.beq ⟨0b01, false⟩ (.abs 0x001A), []) := rfl

/-- BCS.W $FFFE -/
theorem test_decode_bcs : decode [0b10101_01_0, 0b011_0_000_0, 0xFF, 0xFE] =
    .ok (.bcs ⟨0b01, false⟩ (.abs 0xFFFE), []) := rfl

/-- BGE.W $0010 -/
theorem test_decode_bge : decode [0b10110_01_0, 0b011_0_000_0, 0x00, 0x10] =
    .ok (.bge ⟨0b01, false⟩ (.abs 0x0010), []) := rfl

/-- BLE.W $0010 -/
theorem test_decode_ble : decode [0b10111_01_0, 0b011_0_000_0, 0x00, 0x10] =
    .ok (.ble ⟨0b01, false⟩ (.abs 0x0010), []) := rfl

/-- MOVE.W $0100,$0102: the first extension word is operand-1's (R86) -/
theorem test_decode_move : decode [0b11000_01_1, 0b011_0_011_0, 0x01, 0x00, 0x01, 0x02] =
    .ok (.move ⟨0b01, true⟩ (.abs 0x0100) (.abs 0x0102), []) := rfl

/-- MOVEQ.L #10,D1 -/
theorem test_decode_moveq : decode [0b11001_10_0, 0b1010_000_1] =
    .ok (.moveq ⟨0b10, false⟩ 10 (.dreg .r1), []) := rfl

/-- EXG.L D1,A0 -/
theorem test_decode_exg : decode [0b11010_10_1, 0b000_1_001_0] =
    .ok (.exg ⟨0b10, true⟩ (.dreg .r1) (.areg .r0), []) := rfl

/-- MOVEA.W $0056,A1 -/
theorem test_decode_movea : decode [0b11011_01_1, 0b011_0_001_1, 0x00, 0x56] =
    .ok (.movea ⟨0b01, true⟩ (.abs 0x0056) (.areg .r1), []) := rfl

/-- INP.W D0 -/
theorem test_decode_inp : decode [0b11100_01_0, 0b000_0_000_0] =
    .ok (.inp ⟨0b01, false⟩ (.dreg .r0), []) := rfl

/-- DSP.L D1 -/
theorem test_decode_dsp : decode [0b11101_10_0, 0b000_1_000_0] =
    .ok (.dsp ⟨0b10, false⟩ (.dreg .r1), []) := rfl

/-- DSR -/
theorem test_decode_dsr : decode [0b11110_00_0, 0b0000_0000] =
    .ok (.dsr ⟨0b00, false⟩, []) := rfl

/-- HLT -/
theorem test_decode_hlt : decode [0b11111_00_0, 0b0000_0000] =
    .ok (.hlt ⟨0b00, false⟩, []) := rfl

/-- The bits of an unused field change nothing: DSR with every operand field 1 (R89, decision D15). -/
theorem test_decode_ignores_unused : decode [0b11110_00_0, 0xFF] = .ok (.dsr ⟨0b00, false⟩, []) := rfl

/-- spec/opcode_table.json's numbering: the first word in bits 15..0, its extension word in bits 31..16. -/
theorem test_decodeTableWord : decodeTableWord 32 0x00109260 = some (.bra ⟨0b01, false⟩ (.abs 0x0010)) := rfl

/-- A row of 16 bits of a form with an operand of mode 011: its extension word is zero. -/
theorem test_decodeTableWord_short : decodeTableWord 16 0x9260 = some (.bra ⟨0b01, false⟩ (.abs 0)) := rfl

/-! ### One step: two vectors of spec/95_test_vectors.md section 2 for every instruction -/

/-- The base state of section 2 with the differences listed: code at $0000, registers, status bits, bytes of memory, draws. -/
def base (code : List Byte) (regs : Regs) (status : Status) (data : List (Nat × List Byte)) (draws : List Long) : State :=
  { State.reset with
    regs := regs
    status := status
    mem := data.foldl (fun m p => Memory.writeBytes m p.1 p.2) (Memory.writeBytes [] 0 code)
    input := draws }

/-- What one step leaves: registers, PC, status bits, the bytes at the addresses listed, the trace. -/
def seen (s : State) (addresses : List Nat) : Option (Regs × Word × Status × List Byte × List Event) :=
  match step s with
  | .next t => some (t.regs, t.pc, t.status, addresses.map t.byteAt, t.trace)
  | .fault _ => none
  | .refused _ => none

/-- ADD.B D0,D1 -/
theorem test_step_add_1 :
    seen (base [0x01, 0x01] ⟨0x000000FF, 0x12345601, 0, 0⟩ ⟨false, false, false, false, false⟩ [] []) [] =
      some (⟨0x000000FF, 0x12345600, 0, 0⟩, 0x0002, ⟨false, false, true, false, true⟩, [], []) := by decide

/-- ADD.L (A0)+,-(A1) -/
theorem test_step_add_2 :
    seen (base [0x05, 0xCF] ⟨0, 0, 0x00000100, 0x00000204⟩ ⟨false, false, false, false, false⟩ [(0x0100, [0x00, 0x00, 0x00, 0x05]), (0x0200, [0xFF, 0xFF, 0xFF, 0xFB])] []) [0x100, 0x101, 0x102, 0x103, 0x200, 0x201, 0x202, 0x203] =
      some (⟨0, 0, 0x00000104, 0x00000200⟩, 0x0002, ⟨false, false, true, false, true⟩, [0x00, 0x00, 0x00, 0x05, 0x00, 0x00, 0x00, 0x00], []) := by decide

/-- ADDQ.W #$F,D1 -/
theorem test_step_addq_1 :
    seen (base [0x0A, 0xF1] ⟨0, 0xABCD7FF1, 0, 0⟩ ⟨false, false, false, false, false⟩ [] []) [] =
      some (⟨0, 0xABCD8000, 0, 0⟩, 0x0002, ⟨false, true, false, true, false⟩, [], []) := by decide

/-- $0900: ADDQ with P=1 (source example) -/
theorem test_step_addq_2 :
    seen (base [0x09, 0x00] ⟨0x00000055, 0, 0, 0⟩ ⟨false, true, false, false, true⟩ [] []) [] =
      some (⟨0x00000055, 0, 0, 0⟩, 0x0002, ⟨true, true, false, false, true⟩, [], [.error .invalidNbOperands (some .ADDQ) 0x0000]) := by decide

/-- SUB.B D0,D1 -/
theorem test_step_sub_1 :
    seen (base [0x11, 0x01] ⟨0x00000001, 0x00000080, 0, 0⟩ ⟨false, false, false, false, false⟩ [] []) [] =
      some (⟨0x00000001, 0x0000007F, 0, 0⟩, 0x0002, ⟨false, false, false, true, false⟩, [], []) := by decide

/-- SUB.W D0,D1 -/
theorem test_step_sub_2 :
    seen (base [0x13, 0x01] ⟨0x00008000, 0, 0, 0⟩ ⟨false, false, false, false, false⟩ [] []) [] =
      some (⟨0x00008000, 0x00008000, 0, 0⟩, 0x0002, ⟨false, true, false, true, true⟩, [], []) := by decide

/-- SUBQ.W #$1,D1 -/
theorem test_step_subq_1 :
    seen (base [0x1A, 0x11] ⟨0, 0x00010000, 0, 0⟩ ⟨false, false, false, false, false⟩ [] []) [] =
      some (⟨0, 0x0001FFFF, 0, 0⟩, 0x0002, ⟨false, true, false, false, true⟩, [], []) := by decide

/-- SUBQ.L #$F,-(A0) -/
theorem test_step_subq_2 :
    seen (base [0x1C, 0xFE] ⟨0, 0, 0x00000104, 0⟩ ⟨false, false, false, false, false⟩ [(0x0100, [0x00, 0x00, 0x00, 0x10])] []) [0x100, 0x101, 0x102, 0x103] =
      some (⟨0, 0, 0x00000100, 0⟩, 0x0002, ⟨false, false, false, false, false⟩, [0x00, 0x00, 0x00, 0x01], []) := by decide

/-- MULS.W D0,$0100 -/
theorem test_step_muls_1 :
    seen (base [0x23, 0x06, 0x01, 0x00] ⟨0x0000FFFE, 0, 0, 0⟩ ⟨false, false, false, false, false⟩ [(0x0100, [0x00, 0x03, 0xAA, 0xBB])] []) [0x100, 0x101, 0x102, 0x103] =
      some (⟨0x0000FFFE, 0, 0, 0⟩, 0x0004, ⟨false, true, false, false, false⟩, [0xFF, 0xFF, 0xFF, 0xFA], []) := by decide

/-- MULS.W D0,D0 -/
theorem test_step_muls_2 :
    seen (base [0x23, 0x00] ⟨0xFFFF00FF, 0, 0, 0⟩ ⟨false, false, false, false, false⟩ [] []) [] =
      some (⟨0x0000FE01, 0, 0, 0⟩, 0x0002, ⟨false, false, false, false, false⟩, [], []) := by decide

/-- DIVS.L D0,D1 -/
theorem test_step_divs_1 :
    seen (base [0x2D, 0x01] ⟨0x0000FFFE, 0xFFFFFFF9, 0, 0⟩ ⟨false, false, false, false, false⟩ [] []) [] =
      some (⟨0x0000FFFE, 0xFFFF0003, 0, 0⟩, 0x0002, ⟨false, true, false, false, false⟩, [], []) := by decide

/-- DIVS.L D0,D1 (divisor low word 0) -/
theorem test_step_divs_2 :
    seen (base [0x2D, 0x01] ⟨0xFFFF0000, 0x00000064, 0, 0⟩ ⟨false, true, true, true, true⟩ [] []) [] =
      some (⟨0xFFFF0000, 0x00000064, 0, 0⟩, 0x0002, ⟨true, true, true, true, true⟩, [], [.error .divisionByZero (some .DIVS) 0x0000]) := by decide

/-- NEG.B D0 -/
theorem test_step_neg_1 :
    seen (base [0x30, 0x00] ⟨0x11223301, 0, 0, 0⟩ ⟨false, false, false, false, false⟩ [] []) [] =
      some (⟨0x112233FF, 0, 0, 0⟩, 0x0002, ⟨false, true, false, false, true⟩, [], []) := by decide

/-- NEG.W D1 -/
theorem test_step_neg_2 :
    seen (base [0x32, 0x10] ⟨0, 0x00008000, 0, 0⟩ ⟨false, false, false, false, false⟩ [] []) [] =
      some (⟨0, 0x00008000, 0, 0⟩, 0x0002, ⟨false, true, false, true, true⟩, [], []) := by decide

/-- CLR.B D1 -/
theorem test_step_clr_1 :
    seen (base [0x38, 0x10] ⟨0, 0xDEADBEEF, 0, 0⟩ ⟨false, false, false, false, false⟩ [] []) [] =
      some (⟨0, 0xDEADBE00, 0, 0⟩, 0x0002, ⟨false, false, true, false, false⟩, [], []) := by decide

/-- CLR.L -(A0) -/
theorem test_step_clr_2 :
    seen (base [0x3C, 0xE0] ⟨0, 0, 0x00000104, 0⟩ ⟨false, false, false, false, false⟩ [(0x0100, [0x01, 0x02, 0x03, 0x04, 0x05])] []) [0x100, 0x101, 0x102, 0x103, 0x104] =
      some (⟨0, 0, 0x00000100, 0⟩, 0x0002, ⟨false, false, true, false, false⟩, [0x00, 0x00, 0x00, 0x00, 0x05], []) := by decide

/-- NOT.B D0 -/
theorem test_step_not_1 :
    seen (base [0x40, 0x00] ⟨0x123456FF, 0, 0, 0⟩ ⟨false, false, false, true, true⟩ [] []) [] =
      some (⟨0x12345600, 0, 0, 0⟩, 0x0002, ⟨false, false, true, false, false⟩, [], []) := by decide

/-- NOT.B (A0) -/
theorem test_step_not_2 :
    seen (base [0x40, 0x80] ⟨0, 0, 0x00000100, 0⟩ ⟨false, false, false, false, false⟩ [(0x0100, [0x0F])] []) [0x100] =
      some (⟨0, 0, 0x00000100, 0⟩, 0x0002, ⟨false, true, false, false, false⟩, [0xF0], []) := by decide

/-- AND.B D0,D1 -/
theorem test_step_and_1 :
    seen (base [0x49, 0x01] ⟨0x000000F0, 0xFFFFFF3C, 0, 0⟩ ⟨false, false, false, true, true⟩ [] []) [] =
      some (⟨0x000000F0, 0xFFFFFF30, 0, 0⟩, 0x0002, ⟨false, false, false, false, false⟩, [], []) := by decide

/-- AND.L $0100,D0 -/
theorem test_step_and_2 :
    seen (base [0x4D, 0x60, 0x01, 0x00] ⟨0xFFFFFFFF, 0, 0, 0⟩ ⟨false, false, false, false, false⟩ [(0x0100, [0x80, 0x00, 0x00, 0x01])] []) [0x100, 0x101, 0x102, 0x103] =
      some (⟨0x80000001, 0, 0, 0⟩, 0x0004, ⟨false, true, false, false, false⟩, [0x80, 0x00, 0x00, 0x01], []) := by decide

/-- OR.B D0,D1 -/
theorem test_step_or_1 :
    seen (base [0x51, 0x01] ⟨0x00000080, 0x00000001, 0, 0⟩ ⟨false, false, false, true, true⟩ [] []) [] =
      some (⟨0x00000080, 0x00000081, 0, 0⟩, 0x0002, ⟨false, true, false, false, false⟩, [], []) := by decide

/-- OR.L D1,(A0) -/
theorem test_step_or_2 :
    seen (base [0x55, 0x18] ⟨0, 0x0000FFFF, 0x00000100, 0⟩ ⟨false, false, false, false, false⟩ [(0x0100, [0x12, 0x34, 0x00, 0x00])] []) [0x100, 0x101, 0x102, 0x103] =
      some (⟨0, 0x0000FFFF, 0x00000100, 0⟩, 0x0002, ⟨false, false, false, false, false⟩, [0x12, 0x34, 0xFF, 0xFF], []) := by decide

/-- EOR.W (A0)+,D1 -/
theorem test_step_eor_1 :
    seen (base [0x5B, 0xC1] ⟨0, 0x00007FFF, 0x00000100, 0⟩ ⟨false, false, false, false, false⟩ [(0x0100, [0xFF, 0xFF])] []) [0x100, 0x101] =
      some (⟨0, 0x00008000, 0x00000102, 0⟩, 0x0002, ⟨false, true, false, false, false⟩, [0xFF, 0xFF], []) := by decide

/-- EOR.L D0,D0 -/
theorem test_step_eor_2 :
    seen (base [0x5D, 0x00] ⟨0xDEADBEEF, 0, 0, 0⟩ ⟨false, false, false, false, false⟩ [] []) [] =
      some (⟨0x00000000, 0, 0, 0⟩, 0x0002, ⟨false, false, true, false, false⟩, [], []) := by decide

/-- ASL.B #$1,D0 -/
theorem test_step_asl_1 :
    seen (base [0x60, 0x10] ⟨0xFFFFFF81, 0, 0, 0⟩ ⟨false, false, false, false, false⟩ [] []) [] =
      some (⟨0xFFFFFF02, 0, 0, 0⟩, 0x0002, ⟨false, false, false, true, true⟩, [], []) := by decide

/-- ASL.B #$9,D0 -/
theorem test_step_asl_2 :
    seen (base [0x60, 0x90] ⟨0x000000FF, 0, 0, 0⟩ ⟨false, false, false, false, false⟩ [] []) [] =
      some (⟨0x00000000, 0, 0, 0⟩, 0x0002, ⟨false, false, true, true, false⟩, [], []) := by decide

/-- ASR.W #$4,D0 -/
theorem test_step_asr_1 :
    seen (base [0x6A, 0x40] ⟨0x00008000, 0, 0, 0⟩ ⟨false, false, false, false, false⟩ [] []) [] =
      some (⟨0x0000F800, 0, 0, 0⟩, 0x0002, ⟨false, true, false, false, false⟩, [], []) := by decide

/-- ASR.B #$F,D0 -/
theorem test_step_asr_2 :
    seen (base [0x68, 0xF0] ⟨0x00000080, 0, 0, 0⟩ ⟨false, false, false, false, false⟩ [] []) [] =
      some (⟨0x000000FF, 0, 0, 0⟩, 0x0002, ⟨false, true, false, false, true⟩, [], []) := by decide

/-- ROL.B #$8,D0 -/
theorem test_step_rol_1 :
    seen (base [0x70, 0x80] ⟨0x00000081, 0, 0, 0⟩ ⟨false, false, false, false, false⟩ [] []) [] =
      some (⟨0x00000081, 0, 0, 0⟩, 0x0002, ⟨false, true, false, false, true⟩, [], []) := by decide

/-- ROL.W #$4,D0 -/
theorem test_step_rol_2 :
    seen (base [0x72, 0x40] ⟨0xFFFF1234, 0, 0, 0⟩ ⟨false, false, false, false, false⟩ [] []) [] =
      some (⟨0xFFFF2341, 0, 0, 0⟩, 0x0002, ⟨false, false, false, false, true⟩, [], []) := by decide

/-- ROR.B #$C,D0 -/
theorem test_step_ror_1 :
    seen (base [0x78, 0xC0] ⟨0x00000012, 0, 0, 0⟩ ⟨false, false, false, false, false⟩ [] []) [] =
      some (⟨0x00000021, 0, 0, 0⟩, 0x0002, ⟨false, false, false, false, false⟩, [], []) := by decide

/-- ROR.L #$4,(A0) -/
theorem test_step_ror_2 :
    seen (base [0x7C, 0x48] ⟨0, 0, 0x00000100, 0⟩ ⟨false, false, false, false, false⟩ [(0x0100, [0x12, 0x34, 0x56, 0x78])] []) [0x100, 0x101, 0x102, 0x103] =
      some (⟨0, 0, 0x00000100, 0⟩, 0x0002, ⟨false, true, false, false, true⟩, [0x81, 0x23, 0x45, 0x67], []) := by decide

/-- CMP.B D0,D1 -/
theorem test_step_cmp_1 :
    seen (base [0x81, 0x01] ⟨0xFFFFFF80, 0x0000007F, 0, 0⟩ ⟨false, false, false, false, false⟩ [] []) [] =
      some (⟨0xFFFFFF80, 0x0000007F, 0, 0⟩, 0x0002, ⟨false, true, false, true, true⟩, [], []) := by decide

/-- CMP.W (A0)+,D0 -/
theorem test_step_cmp_2 :
    seen (base [0x83, 0xC0] ⟨0x00000010, 0, 0x00000100, 0⟩ ⟨false, false, false, false, false⟩ [(0x0100, [0x00, 0x20])] []) [0x100, 0x101] =
      some (⟨0x00000010, 0, 0x00000102, 0⟩, 0x0002, ⟨false, true, false, false, true⟩, [0x00, 0x20], []) := by decide

/-- TST.W D0 -/
theorem test_step_tst_1 :
    seen (base [0x8A, 0x00] ⟨0x00008000, 0, 0, 0⟩ ⟨false, false, true, true, true⟩ [] []) [] =
      some (⟨0x00008000, 0, 0, 0⟩, 0x0002, ⟨false, true, false, false, false⟩, [], []) := by decide

/-- TST.W -(A1) -/
theorem test_step_tst_2 :
    seen (base [0x8A, 0xF0] ⟨0, 0, 0, 0x00000102⟩ ⟨false, false, false, false, false⟩ [(0x0100, [0x00, 0x00])] []) [0x100, 0x101] =
      some (⟨0, 0, 0, 0x00000100⟩, 0x0002, ⟨false, false, true, false, false⟩, [0x00, 0x00], []) := by decide

/-- BRA.W $2000 -/
theorem test_step_bra_1 :
    seen (base [0x92, 0x60, 0x20, 0x00] ⟨0, 0, 0, 0⟩ ⟨false, false, false, false, false⟩ [] []) [] =
      some (⟨0, 0, 0, 0⟩, 0x2000, ⟨false, false, false, false, false⟩, [], []) := by decide

/-- $9200: BRA.W D0 (source example) -/
theorem test_step_bra_2 :
    seen (base [0x92, 0x00] ⟨0, 0, 0, 0⟩ ⟨false, false, false, false, false⟩ [] []) [] =
      some (⟨0, 0, 0, 0⟩, 0x0002, ⟨true, false, false, false, false⟩, [], [.error .invalidAddressingMode (some .BRA) 0x0000]) := by decide

/-- BVS.W $0010 -/
theorem test_step_bvs_1 :
    seen (base [0x9A, 0x60, 0x00, 0x10] ⟨0, 0, 0, 0⟩ ⟨false, false, false, true, false⟩ [] []) [] =
      some (⟨0, 0, 0, 0⟩, 0x0010, ⟨false, false, false, true, false⟩, [], []) := by decide

/-- BVS.W $0010 -/
theorem test_step_bvs_2 :
    seen (base [0x9A, 0x60, 0x00, 0x10] ⟨0, 0, 0, 0⟩ ⟨false, true, true, false, true⟩ [] []) [] =
      some (⟨0, 0, 0, 0⟩, 0x0004, ⟨false, true, true, false, true⟩, [], []) := by decide

/-- BEQ.W $0010 -/
theorem test_step_beq_1 :
    seen (base [0xA2, 0x60, 0x00, 0x10] ⟨0, 0, 0, 0⟩ ⟨false, false, true, false, false⟩ [] []) [] =
      some (⟨0, 0, 0, 0⟩, 0x0010, ⟨false, false, true, false, false⟩, [], []) := by decide

/-- BEQ.W $0010 -/
theorem test_step_beq_2 :
    seen (base [0xA2, 0x60, 0x00, 0x10] ⟨0, 0, 0, 0⟩ ⟨false, true, false, true, true⟩ [] []) [] =
      some (⟨0, 0, 0, 0⟩, 0x0004, ⟨false, true, false, true, true⟩, [], []) := by decide

/-- BCS.W $0010 -/
theorem test_step_bcs_1 :
    seen (base [0xAA, 0x60, 0x00, 0x10] ⟨0, 0, 0, 0⟩ ⟨false, false, false, false, true⟩ [] []) [] =
      some (⟨0, 0, 0, 0⟩, 0x0010, ⟨false, false, false, false, true⟩, [], []) := by decide

/-- BCS.W $0010 -/
theorem test_step_bcs_2 :
    seen (base [0xAA, 0x60, 0x00, 0x10] ⟨0, 0, 0, 0⟩ ⟨false, true, true, true, false⟩ [] []) [] =
      some (⟨0, 0, 0, 0⟩, 0x0004, ⟨false, true, true, true, false⟩, [], []) := by decide

/-- BGE.W $0010 -/
theorem test_step_bge_1 :
    seen (base [0xB2, 0x60, 0x00, 0x10] ⟨0, 0, 0, 0⟩ ⟨false, true, false, true, false⟩ [] []) [] =
      some (⟨0, 0, 0, 0⟩, 0x0010, ⟨false, true, false, true, false⟩, [], []) := by decide

/-- BGE.W $0010 -/
theorem test_step_bge_2 :
    seen (base [0xB2, 0x60, 0x00, 0x10] ⟨0, 0, 0, 0⟩ ⟨false, false, true, true, false⟩ [] []) [] =
      some (⟨0, 0, 0, 0⟩, 0x0004, ⟨false, false, true, true, false⟩, [], []) := by decide

/-- BLE.W $0010 -/
theorem test_step_ble_1 :
    seen (base [0xBA, 0x60, 0x00, 0x10] ⟨0, 0, 0, 0⟩ ⟨false, false, false, true, false⟩ [] []) [] =
      some (⟨0, 0, 0, 0⟩, 0x0010, ⟨false, false, false, true, false⟩, [], []) := by decide

/-- BLE.W $0010 -/
theorem test_step_ble_2 :
    seen (base [0xBA, 0x60, 0x00, 0x10] ⟨0, 0, 0, 0⟩ ⟨false, true, false, true, false⟩ [] []) [] =
      some (⟨0, 0, 0, 0⟩, 0x0004, ⟨false, true, false, true, false⟩, [], []) := by decide

/-- MOVE.L A0,(A0)+ -/
theorem test_step_move_1 :
    seen (base [0xC5, 0x2C] ⟨0, 0, 0x00000100, 0⟩ ⟨false, false, false, false, false⟩ [] []) [0x102, 0x103] =
      some (⟨0, 0, 0x00000104, 0⟩, 0x0002, ⟨false, false, false, false, false⟩, [0x01, 0x04], []) := by decide

/-- MOVE.B -(A0),D0 -/
theorem test_step_move_2 :
    seen (base [0xC1, 0xE0] ⟨0, 0, 0, 0⟩ ⟨false, false, false, false, false⟩ [] []) [] =
      some (⟨0, 0, 0xFFFFFFFF, 0⟩, 0x0002, ⟨true, false, false, false, false⟩, [], [.error .addressOutOfRange (some .MOVE) 0x0000]) := by decide

/-- MOVEQ.B #$0,D0 -/
theorem test_step_moveq_1 :
    seen (base [0xC8, 0x00] ⟨0xFFFFFFFF, 0, 0, 0⟩ ⟨false, false, false, false, false⟩ [] []) [] =
      some (⟨0xFFFFFF00, 0, 0, 0⟩, 0x0002, ⟨false, false, true, false, false⟩, [], []) := by decide

/-- MOVEQ.B #$7,(A1)+ -/
theorem test_step_moveq_2 :
    seen (base [0xC8, 0x7D] ⟨0, 0, 0, 0x00000100⟩ ⟨false, false, false, false, false⟩ [] []) [0x100] =
      some (⟨0, 0, 0, 0x00000101⟩, 0x0002, ⟨false, false, false, false, false⟩, [0x07], []) := by decide

/-- EXG.L D0,A1 -/
theorem test_step_exg_1 :
    seen (base [0xD5, 0x03] ⟨0x11111111, 0, 0, 0x22222222⟩ ⟨false, true, true, true, true⟩ [] []) [] =
      some (⟨0x22222222, 0, 0, 0x11111111⟩, 0x0002, ⟨false, true, true, false, false⟩, [], []) := by decide

/-- EXG.L A0,A1 -/
theorem test_step_exg_2 :
    seen (base [0xD5, 0x23] ⟨0, 0, 0x00000100, 0x00000200⟩ ⟨false, false, false, true, true⟩ [] []) [] =
      some (⟨0, 0, 0x00000200, 0x00000100⟩, 0x0002, ⟨false, false, false, false, false⟩, [], []) := by decide

/-- MOVEA.W $0200,A0 -/
theorem test_step_movea_1 :
    seen (base [0xDB, 0x62, 0x02, 0x00] ⟨0, 0, 0xFFFF0000, 0⟩ ⟨false, false, false, true, true⟩ [] []) [] =
      some (⟨0, 0, 0xFFFF0200, 0⟩, 0x0004, ⟨false, false, false, false, false⟩, [], []) := by decide

/-- $DB03: MOVEA.W D0,A1 -/
theorem test_step_movea_2 :
    seen (base [0xDB, 0x03] ⟨0, 0, 0, 0⟩ ⟨false, false, false, false, false⟩ [] []) [] =
      some (⟨0, 0, 0, 0⟩, 0x0002, ⟨true, false, false, false, false⟩, [], [.error .invalidAddressingMode (some .MOVEA) 0x0000]) := by decide

/-- INP.W D0 -/
theorem test_step_inp_1 :
    seen (base [0xE2, 0x00] ⟨0xAAAAAAAA, 0, 0, 0⟩ ⟨false, false, false, true, true⟩ [] [0xFFFE]) [] =
      some (⟨0xAAAAFFFE, 0, 0, 0⟩, 0x0002, ⟨false, true, false, false, false⟩, [], []) := by decide

/-- INP.W (A0) -/
theorem test_step_inp_2 :
    seen (base [0xE2, 0x80] ⟨0, 0, 0x00001000, 0⟩ ⟨false, false, false, false, false⟩ [] [0x1234]) [] =
      some (⟨0, 0, 0x00001000, 0⟩, 0x0002, ⟨true, false, false, false, false⟩, [], [.error .addressOutOfRange (some .INP) 0x0000]) := by decide

/-- DSP.W (A0)+ -/
theorem test_step_dsp_1 :
    seen (base [0xEA, 0xC0] ⟨0, 0, 0x00000100, 0⟩ ⟨false, false, false, false, false⟩ [(0x0100, [0xBE, 0xEF])] []) [0x100, 0x101] =
      some (⟨0, 0, 0x00000102, 0⟩, 0x0002, ⟨false, false, false, false, false⟩, [0xBE, 0xEF], [.display (.mem 0x0100) .w 0xBEEF]) := by decide

/-- DSP.W $1000 -/
theorem test_step_dsp_2 :
    seen (base [0xEA, 0x60, 0x10, 0x00] ⟨0, 0, 0, 0⟩ ⟨false, false, false, false, false⟩ [] []) [] =
      some (⟨0, 0, 0, 0⟩, 0x0004, ⟨true, false, false, false, false⟩, [], [.error .addressOutOfRange (some .DSP) 0x0000]) := by decide

/-- DSR (non-canonical $F0FF) -/
theorem test_step_dsr_1 :
    seen (base [0xF0, 0xFF] ⟨0, 0, 0, 0⟩ ⟨false, false, true, true, false⟩ [] []) [] =
      some (⟨0, 0, 0, 0⟩, 0x0002, ⟨false, false, true, true, false⟩, [], [.status false false true true false]) := by decide

/-- $F200: DSR.W -/
theorem test_step_dsr_2 :
    seen (base [0xF2, 0x00] ⟨0, 0, 0, 0⟩ ⟨false, false, false, false, false⟩ [] []) [] =
      some (⟨0, 0, 0, 0⟩, 0x0002, ⟨true, false, false, false, false⟩, [], [.error .invalidDataSize (some .DSR) 0x0000]) := by decide

/-- HLT -/
theorem test_step_hlt_1 :
    seen (base [0xF8, 0x00] ⟨0, 0, 0, 0⟩ ⟨false, true, true, false, false⟩ [] []) [] =
      some (⟨0, 0, 0, 0⟩, 0x0002, ⟨true, true, true, false, false⟩, [], []) := by decide

/-- $F900: HLT with P=1 -/
theorem test_step_hlt_2 :
    seen (base [0xF9, 0x00] ⟨0, 0, 0, 0⟩ ⟨false, false, false, false, false⟩ [] []) [] =
      some (⟨0, 0, 0, 0⟩, 0x0002, ⟨true, false, false, false, false⟩, [], [.error .invalidNbOperands (some .HLT) 0x0000]) := by decide


/-! ### Running a word where the next fetch finds it -/

/-- HLT stored by `withFetchWord` is the first instruction after reset: H is set, PC is past it. -/
theorem test_withFetchWord_runs : seen (State.reset.withFetchWord 16 0xF800) [] =
    some (⟨0, 0, 0, 0⟩, 2, ⟨true, false, false, false, false⟩, [], []) := by decide

/-- Decision D20's all-zero case: all-zero memory is an ADD with P = 0 (spec/95_test_vectors.md, the row of $0000). -/
theorem test_reset_steps : seen State.reset [] =
    some (⟨0, 0, 0, 0⟩, 2, ⟨true, false, false, false, false⟩, [], [.error .invalidNbOperands (some .ADD) 0]) := by decide

/-! ### For every statement with hypotheses, a state and operands that meet them together -/

/-- A state that is not halted, with addresses at the upper end of memory in A0 and A1, a draw supplied, and a word stored. -/
def top (a0 a1 : Long) : State :=
  { State.reset with
    regs := ⟨6, 7, a0, a1⟩
    pc := 2
    mem := [(0x0FFE, 1), (0x0FFF, 2), (0x1000, 3)]
    input := [0x80] }

/-- The state Fetch_Operands takes `s` to. -/
def located (i : Instr) (sz : Size) (s : State) : State :=
  match fetchOperands sz i.op1 i.op2 (s.loadDS i.info.ds) with
  | .ok _ e => e
  | .raised _ e => e

theorem witness_StepAnswersUnlessHalted :
    State.reset.status.h = false ∧ State.reset.setH.status.h = true := ⟨rfl, rfl⟩

theorem witness_StepRunsTheDecodedInstruction : (top 0 0).status.h = false ∧
    decode (codeBytes (top 0 0)) = .ok (.add ⟨0b00, false⟩ (.dreg .r0) (.dreg .r0), [0, 0, 0, 0]) := ⟨rfl, rfl⟩

/-- The last PC with an opcode word in memory, and the first without. -/
theorem witness_OpcodeFetchBeyondMemory :
    ((top 0 0).setPC 0x1000).status.h = false ∧ 0x0FFF < ((top 0 0).setPC 0x1000).pc.toNat ∧
    ((top 0 0).setPC 0x0FFF).status.h = false ∧ ((top 0 0).setPC 0x0FFF).pc.toNat ≤ 0x0FFF := by decide

/-- MOVE.W $xxxx,$yyyy (spec/95_test_vectors.md: C3 66), its opcode word at `pc`. -/
def moveAt (pc : Word) : State := { State.reset with pc := pc, mem := [(pc.toNat, 0xC3), (pc.toNat + 1, 0x66)] }

theorem codeBytes_moveAt : codeBytes (moveAt 0x0FFB) = [0xC3, 0x66, 0, 0, 0, 0] ∧
    codeBytes (moveAt 0x0FFD) = [0xC3, 0x66, 0, 0] ∧ codeBytes (moveAt 0x0FFE) = [0xC3, 0x66, 0] := by decide

/-- MOVE.W with two extension words: both inside memory, the second ending at $1000; operand-2's beyond it; operand-1's cut
after its first byte. -/
theorem witness_ExtensionWordFetch :
    (∀ pc, (moveAt pc).status.h = false) ∧
    decode (codeBytes (moveAt 0x0FFB)) = .ok (.move ⟨0b01, true⟩ (.abs 0) (.abs 0), []) ∧
    decode (codeBytes (moveAt 0x0FFD)) = .ok (.move ⟨0b01, true⟩ (.abs 0) .absTruncated, []) ∧
    decode (codeBytes (moveAt 0x0FFE)) = .ok (.move ⟨0b01, true⟩ .absTruncated .absTruncated, [0]) ∧
    (∀ x, (Instr.move ⟨0b01, true⟩ x .absTruncated).op2 = some .absTruncated) ∧
    (Instr.move ⟨0b01, true⟩ (.abs 0) .absTruncated).check = .ok .w ∧
    (Instr.move ⟨0b01, true⟩ .absTruncated .absTruncated).check = .ok .w :=
  ⟨fun _ => rfl, by rw [codeBytes_moveAt.1]; rfl, by rw [codeBytes_moveAt.2.1]; rfl, by rw [codeBytes_moveAt.2.2]; rfl,
    fun _ => rfl, rfl, rfl⟩

/-- The last row of spec/95_test_vectors.md 2.9: BRA with its opcode at $0FFE has its extension word beyond memory. -/
theorem test_extension_word_beyond_memory :
    seen { State.reset with pc := 0x0FFE, mem := [(0x0FFE, 0x92), (0x0FFF, 0x60)] } [0x0FFE, 0x0FFF] =
      some (⟨0, 0, 0, 0⟩, 0x1000, ⟨true, false, false, false, false⟩, [0x92, 0x60],
        [.error .addressOutOfRange (some .BRA) 0x0FFE]) := by decide

/-- spec/30_encoding.md R96: the length follows from the opcode word alone, the extension word there or not. -/
theorem test_length_from_opcode_word :
    (Instr.clr ⟨0b00, false⟩ .absTruncated).length = 4 ∧ (Instr.move ⟨0b01, true⟩ (.abs 0x0100) (.abs 0x0102)).length = 6 ∧
    (Instr.hlt ⟨0b00, false⟩).length = 2 := by decide

theorem witness_FetchWordRuns : ((top 0 0).setPC 0x0FFB).status.h = false ∧ ((top 0 0).setPC 0x0FFB).mem.wf ∧
    ((top 0 0).setPC 0x0FFB).pc.toNat ≤ 0x0FFB ∧ decodeTableWord 16 0xF800 = some (.hlt ⟨0b00, false⟩) :=
  ⟨rfl, by decide, by decide, rfl⟩

/-- A file that fills memory, and one byte more. -/
theorem witness_LoaderPlacesTheProgram : State.reset.mem.wf ∧ (List.replicate 4097 (0x12 : Byte)).length ≤ 4097 ∧
    4097 < (List.replicate 4098 (0x12 : Byte)).length :=
  ⟨by decide, by rw [List.length_replicate], by rw [List.length_replicate]; decide⟩

theorem witness_DecodeOfEncode : (Instr.move ⟨0b01, true⟩ (.abs 0x0100) (.abs 0x0102)).wellFormed = true := by decide

theorem witness_UnusedFieldsAreIgnored :
    ((0xF800 : Word).extractLsb' 8 8 = (0xF8FF : Word).extractLsb' 8 8 ∧ (0xF800 : Word).extractLsb' 12 4 = (0b1111 : BitVec 4)) ∧
    (0x8800 : Word).extractLsb' 4 12 = (0x880F : Word).extractLsb' 4 12 ∧
    decodeOpcode 0x8800 [] = (.tst ⟨0b00, false⟩ (.dreg .r0), []) ∧ (Instr.tst ⟨0b00, false⟩ (.dreg .r0)).op2 = none ∧
    (Instr.tst ⟨0b00, false⟩ (.dreg .r0)).op1 ≠ none :=
  ⟨by decide, by decide, rfl, rfl, by decide⟩

/-- The last long of memory, and one address further. -/
theorem witness_StoreThenLoad : State.reset.mem.wf ∧ (0x0FFD : Word).toNat + Size.bytes .l ≤ 0x1001 ∧
    0x1001 < (0x0FFE : Word).toNat + Size.bytes .l := by decide

theorem witness_AccessLoadsTheMemoryInterface : (0x1000 : Word).toNat + Size.bytes .b ≤ 0x1001 := by decide

/-- The hypotheses of a two-operand instruction at size sz: source (A0) at the end of memory, destination -(A1) likewise. -/
def TwoHyps (mk : OpInfo → Operand → Operand → Instr) (sz : Size) (a0 a1 : Long) : Prop :=
  let i := mk ⟨sz.code, true⟩ (.ind .r0) (.preDec .r1)
  let s := top a0 a1
  let e := located i sz s
  Begins i sz s e ∧ s.mem.wf ∧ operandInRange .first sz (.ind .r0) e = true ∧ operandInRange .second sz (.preDec .r1) e = true

/-- The hypotheses of an F2 instruction: destination (A0)+ at the last byte of memory. -/
def QuickHyps (mk : OpInfo → BitVec 4 → Operand → Instr) : Prop :=
  let i := mk ⟨0b00, false⟩ 15 (.postInc .r0)
  let s := top 0x1000 0
  let e := located i .b s
  Begins i .b s e ∧ s.mem.wf ∧ operandInRange .second .b (.postInc .r0) e = true

/-- The hypotheses of a one-operand instruction: its operand the last word of memory, by an extension word. -/
def OneHyps (mk : OpInfo → Operand → Instr) : Prop :=
  let i := mk ⟨0b01, false⟩ (.abs 0x0FFF)
  let s := top 0 0
  let e := located i .w s
  Begins i .w s e ∧ s.mem.wf ∧ operandInRange .first .w (.abs 0x0FFF) e = true

theorem witness_LongAddFillsTheAluBuffers : TwoHyps .add .l 0x0FFD 0x1001 := ⟨⟨rfl, rfl⟩, by decide, rfl, rfl⟩

theorem witness_FetchOperandsEffect : TwoHyps .add .w 0x0FFF 0x1001 := ⟨⟨rfl, rfl⟩, by decide, rfl, rfl⟩

/-- A valid opcode whose operand-1 address is the highest, and one whose address is one higher. -/
theorem witness_FetchOperandsSucceedsIff :
    (Instr.tst ⟨0b00, false⟩ (.ind .r0)).check = .ok .b ∧
    Locatable .b (some (.ind .r0)) (top 0x1000 0).areg ∧ ¬ Locatable .b (some (.ind .r0)) (top 0x1001 0).areg := by
  refine ⟨rfl, ⟨by simp, by simp, fun x h => ?_⟩, fun h => absurd (h.2.2 _ rfl) (by decide)⟩
  cases h; decide

theorem witness_AddAndSubEffect : TwoHyps .add .w 0x0FFF 0x1001 ∧ TwoHyps .sub .b 0x1000 0x1001 :=
  ⟨⟨⟨rfl, rfl⟩, by decide, rfl, rfl⟩, ⟨⟨rfl, rfl⟩, by decide, rfl, rfl⟩⟩

theorem witness_AddqAndSubqEffect : QuickHyps .addq ∧ QuickHyps .subq :=
  ⟨⟨⟨rfl, rfl⟩, by decide, rfl⟩, ⟨⟨rfl, rfl⟩, by decide, rfl⟩⟩

theorem witness_CarryAndOverflowMeaning : 0 < Size.bits .b := by decide

/-- MULS: the source the last word of memory, the destination the last long. -/
theorem witness_MulsEffect :
    let i := Instr.muls ⟨0b01, true⟩ (.ind .r0) (.ind .r1)
    let s := top 0x0FFF 0x0FFD
    Begins i .w s (located i .w s) ∧ s.mem.wf ∧ operandInRange .first .w (.ind .r0) (located i .w s) = true ∧
      operandInRange .second .l (.ind .r1) (located i .w s) = true := ⟨⟨rfl, rfl⟩, by decide, rfl, rfl⟩

/-- DIVS D0,D1 with divisor `s` and dividend `d`. -/
def divsState (s d : Long) : State := { State.reset with regs := ⟨s, d, 0, 0⟩, pc := 2 }

/-- What the three statements on DIVS share, for DIVS D0,D1. -/
def DivsHyps (s d : Long) : Prop :=
  let i := Instr.divs ⟨0b10, true⟩ (.dreg .r0) (.dreg .r1)
  let e := located i .l (divsState s d)
  Begins i .l (divsState s d) e ∧ (divsState s d).mem.wf ∧ operandInRange .first .l (.dreg .r0) e = true ∧
    operandInRange .second .l (.dreg .r1) e = true ∧ operandValue .first .l (.dreg .r0) e = s ∧
    operandValue .second .l (.dreg .r1) e = d

/-- The quotients at both ends of a signed word. -/
theorem witness_DivsEffect :
    (DivsHyps 1 0xFFFF8000 ∧ (0xFFFF8000 : Long).toInt.tdiv (1 : Word).toInt = -32768) ∧
    (DivsHyps 0xFFFF 0xFFFF8001 ∧ (0xFFFF8001 : Long).toInt.tdiv (0xFFFF : Word).toInt = 32767) :=
  ⟨⟨⟨⟨rfl, rfl⟩, by decide, rfl, rfl, by decide, by decide⟩, by decide⟩,
    ⟨⟨⟨rfl, rfl⟩, by decide, rfl, rfl, by decide, by decide⟩, by decide⟩⟩

/-- The quotients next to them. -/
theorem witness_DivsOverflowEffect :
    (DivsHyps 1 0xFFFF7FFF ∧ (0xFFFF7FFF : Long).toInt.tdiv (1 : Word).toInt = -32769) ∧
    (DivsHyps 1 0x00008000 ∧ (0x00008000 : Long).toInt.tdiv (1 : Word).toInt = 32768) :=
  ⟨⟨⟨⟨rfl, rfl⟩, by decide, rfl, rfl, by decide, by decide⟩, by decide⟩,
    ⟨⟨⟨rfl, rfl⟩, by decide, rfl, rfl, by decide, by decide⟩, by decide⟩⟩

/-- A divisor whose low word is zero and whose high word is not. -/
theorem witness_DivisionByZeroRaises : DivsHyps 0xFFFF0000 0x64 ∧ (0xFFFF0000 : Long).extractLsb' 0 16 = (0 : Word) :=
  ⟨⟨⟨rfl, rfl⟩, by decide, rfl, rfl, by decide, by decide⟩, by decide⟩

theorem witness_NegEffect : OneHyps .neg := ⟨⟨rfl, rfl⟩, by decide, rfl⟩

theorem witness_ClrEffect : OneHyps .clr := ⟨⟨rfl, rfl⟩, by decide, rfl⟩

theorem witness_AndOrEorEffect :
    TwoHyps .and .b 0x1000 0x1001 ∧ TwoHyps .or .w 0x0FFF 0x1001 ∧ TwoHyps .eor .l 0x0FFD 0x1001 :=
  ⟨⟨⟨rfl, rfl⟩, by decide, rfl, rfl⟩, ⟨⟨rfl, rfl⟩, by decide, rfl, rfl⟩, ⟨⟨rfl, rfl⟩, by decide, rfl, rfl⟩⟩

theorem witness_NotEffect : OneHyps .not := ⟨⟨rfl, rfl⟩, by decide, rfl⟩

theorem witness_AslEffect : QuickHyps .asl := ⟨⟨rfl, rfl⟩, by decide, rfl⟩

theorem witness_AsrEffect : QuickHyps .asr := ⟨⟨rfl, rfl⟩, by decide, rfl⟩

theorem witness_RotateEffect : QuickHyps .rol ∧ QuickHyps .ror :=
  ⟨⟨⟨rfl, rfl⟩, by decide, rfl⟩, ⟨⟨rfl, rfl⟩, by decide, rfl⟩⟩

theorem witness_CmpEffect : TwoHyps .cmp .w 0x0FFF 0x1001 := ⟨⟨rfl, rfl⟩, by decide, rfl, rfl⟩

theorem witness_TstEffect : OneHyps .tst := ⟨⟨rfl, rfl⟩, by decide, rfl⟩

/-- The state `exec` answers, for an instruction whose answer is a next state. -/
def nextOf (i : Instr) (s : State) : State :=
  match exec i s with
  | .next t => t
  | .fault _ => s
  | .refused _ => s

theorem witness_CompareThenBranch :
    let i := Instr.cmp ⟨0b10, true⟩ (.ind .r0) (.preDec .r1)
    let s := top 0x0FFD 0x1001
    TwoHyps .cmp .l 0x0FFD 0x1001 ∧ exec i s = .next (nextOf i s) ∧
      ({ s with status := (nextOf i s).status } : State).status = (nextOf i s).status :=
  ⟨⟨⟨rfl, rfl⟩, by decide, rfl, rfl⟩, rfl, rfl⟩

theorem witness_MoveEffect : TwoHyps .move .l 0x0FFD 0x1001 := ⟨⟨rfl, rfl⟩, by decide, rfl, rfl⟩

theorem witness_MoveqEffect : QuickHyps .moveq := ⟨⟨rfl, rfl⟩, by decide, rfl⟩

theorem witness_ExgEffect : (Instr.exg ⟨0b10, true⟩ (.dreg .r0) (.areg .r1)).check = .ok .l := rfl

theorem witness_InpEffect : OneHyps .inp := ⟨⟨rfl, rfl⟩, by decide, rfl⟩

theorem witness_DspEffect : OneHyps .dsp := ⟨⟨rfl, rfl⟩, by decide, rfl⟩

theorem witness_DecodeErrorsInOrder :
    (Instr.hlt ⟨0b11, true⟩).nbOperandsOk = false ∧
    ((Instr.bra ⟨0b00, false⟩ (.dreg .r0)).nbOperandsOk = true ∧ (Instr.bra ⟨0b00, false⟩ (.dreg .r0)).dataSizeOk = false) ∧
    ((Instr.bra ⟨0b01, false⟩ (.dreg .r0)).nbOperandsOk = true ∧ (Instr.bra ⟨0b01, false⟩ (.dreg .r0)).dataSizeOk = true ∧
      (Instr.bra ⟨0b01, false⟩ (.dreg .r0)).modesOk = false) := by decide

/-- MOVE.L (A0)+,-(A1) with operand-2 one address too high, A0 having been stepped by then; and MOVE.L -(A0),D0 with
operand-1 one address too high. -/
theorem witness_LocationErrorsEndTheInstruction :
    (let i := Instr.move ⟨0b10, true⟩ (.postInc .r0) (.preDec .r1)
     i.check = .ok .l ∧ fetchOperands .l i.op1 i.op2 ((top 0x100 0x1005).loadDS i.info.ds) =
       .raised .addressOutOfRange (located i .l (top 0x100 0x1005))) ∧
    (let i := Instr.move ⟨0b10, true⟩ (.preDec .r0) (.dreg .r0)
     i.check = .ok .l ∧ fetchOperands .l i.op1 i.op2 ((top 0x1005 0).loadDS i.info.ds) =
       .raised .addressOutOfRange (located i .l (top 0x1005 0))) := ⟨⟨rfl, rfl⟩, ⟨rfl, rfl⟩⟩

/-- The hypotheses of a location that succeeds while an access leaves memory: MOVE.W D0,(A0) with A0 = $1000. -/
theorem witness_OperandAccessBeyondMemory :
    let i := Instr.move ⟨0b01, true⟩ (.dreg .r0) (.ind .r0)
    Begins i .w (top 0x1000 0) (located i .w (top 0x1000 0)) ∧
      ∃ x ∈ accesses i .w, operandInRange x.1 x.2.1 x.2.2 (located i .w (top 0x1000 0)) = false :=
  ⟨⟨rfl, rfl⟩, (.second, .w, .ind .r0), by decide, rfl⟩

/-- An instruction that ends in an error and one that does not. -/
theorem witness_ErrorsOfExecuteAreExactly :
    (let i := Instr.divs ⟨0b10, true⟩ (.dreg .r0) (.dreg .r1)
     let s := divsState 0 7
     Begins i .l s (located i .l s) ∧ exec i s = .next (nextOf i s) ∧ zeroDivisor i (located i .l s)) ∧
    (let i := Instr.divs ⟨0b10, true⟩ (.dreg .r0) (.dreg .r1)
     let s := divsState 2 7
     Begins i .l s (located i .l s) ∧ exec i s = .next (nextOf i s) ∧ ¬ zeroDivisor i (located i .l s)) :=
  ⟨⟨⟨rfl, rfl⟩, rfl, by simp only [zeroDivisor]; decide⟩, ⟨⟨rfl, rfl⟩, rfl, by simp only [zeroDivisor]; decide⟩⟩

theorem witness_ErrorsArePrecise :
    let i := Instr.divs ⟨0b10, true⟩ (.dreg .r0) (.dreg .r1)
    let s := divsState 0 7
    exec i s = .next (nextOf i s) ∧ (nextOf i s).trace = s.trace ++ [.error .divisionByZero (some .DIVS) 0] := ⟨rfl, by decide⟩

/-- HLT ends a run, an error ends a run, and an instruction that does neither leaves H. -/
theorem witness_OnlyHltAndErrorsWriteH :
    (let i := Instr.hlt ⟨0b00, false⟩
     exec i State.reset = .next (nextOf i State.reset) ∧ i.mnemonic = .HLT ∧ i.check = .ok .b) ∧
    (let i := Instr.hlt ⟨0b01, false⟩
     exec i State.reset = .next (nextOf i State.reset) ∧ EndsInError State.reset (nextOf i State.reset)) ∧
    step State.reset = .next (nextOf (.add ⟨0b00, false⟩ (.dreg .r0) (.dreg .r0)) (fetchOpCode State.reset)) :=
  ⟨⟨rfl, rfl, rfl⟩, ⟨rfl, .invalidDataSize, some .HLT, 0xFFFE, by decide⟩, rfl⟩

theorem witness_FrameOfEveryInstruction :
    let i := Instr.move ⟨0b01, true⟩ (.ind .r0) (.preDec .r1)
    let s := top 0x0FFF 0x1001
    TwoHyps .move .w 0x0FFF 0x1001 ∧ exec i s = .next (nextOf i s) ∧ ¬ EndsInError s (nextOf i s) := by
  refine ⟨⟨⟨rfl, rfl⟩, by decide, rfl, rfl⟩, rfl, ?_⟩
  rintro ⟨k, m, a, h⟩
  have h0 : (nextOf (.move ⟨0b01, true⟩ (.ind .r0) (.preDec .r1)) (top 0x0FFF 0x1001)).trace = [] := by decide
  rw [h0] at h
  exact absurd (congrArg List.length h) (by simp)

/-- A state in which memory is listed, an event stands in the trace, and the next step is MOVEQ.L #15,D0. -/
def running : State :=
  { State.reset with mem := [(0, 0xCC), (1, 0xF0)], trace := [.status false false false false false], input := [5] }

/-- The state after a step that answers a next state. -/
def stepOf (s : State) : State :=
  match step s with
  | .next t => t
  | .fault _ => s
  | .refused _ => s

theorem witness_StepKeepsMemoryCanonical : running.mem.wf ∧ step running = .next (stepOf running) := ⟨by decide, rfl⟩

theorem witness_StepKeepsErrorLast : running.traceOk = true ∧ step running = .next (stepOf running) := ⟨by decide, rfl⟩

theorem witness_RunsStaySound : running.Sound ∧ Sys2Proof.core.run 1 running = .next (stepOf running) :=
  ⟨⟨by decide, by decide⟩, rfl⟩

theorem witness_InternalRegistersCarryNothing : step running = .next (stepOf running) := rfl

theorem witness_TraceIsNeverRead : step running = .next (stepOf running) := rfl

theorem witness_LaterDrawsDecideNothing : running.input = [5] ∧ step running = .next (stepOf running) := ⟨rfl, rfl⟩

end Sys2Proof.Tests
end

/-! ## Proofs of the family `10_state`

First what later families can use too: what a step does in terms of its decoded instruction, what the opcode's three checks
mean, and each instruction's Execute as one function. Then the canonical form of memory (O54), the internal registers (O57),
the ALU buffers after a long ADD (O16) and the state after initialisation (O1, O2). -/

section
namespace Sys2Proof.Machine

/-! ### The step and the instruction it runs -/

/-- From a state that is not halted a step either finds no opcode word in memory, or runs the decoded instruction on the state
Fetch_OpCode leaves (spec/40_cycle_and_addressing.md R120 to R122). -/
theorem step_eq_next {s t : State} :
    step s = .next t ↔ s.status.h = false ∧
      ((decode (codeBytes s) = .error .truncatedOpcode ∧ t = raiseError .addressOutOfRange none s.pc s) ∨
        ∃ i rest, decode (codeBytes s) = .ok (i, rest) ∧ exec i (fetchOpCode s) = .next t) := by
  unfold step
  cases s.status.h with
  | true => simp
  | false =>
    rcases decode (codeBytes s) with ⟨⟨⟩⟩ | ⟨i, rest⟩
    · simp [eq_comm]
    · simp

@[simp] theorem fetchOpCode_mem (s : State) : (fetchOpCode s).mem = s.mem := by simp [fetchOpCode]

/-- An opcode passes Decode_Instruction when all three checks do (spec/30_encoding.md R91 to R94). -/
theorem checkOpcode_eq_ok {m : Mnemonic} {info : OpInfo} {op1 op2 : Option Operand} {sz : Size} :
    checkOpcode m info op1 op2 = .ok sz ↔
      info.p = m.requiredP ∧ Size.ofCode info.ds = some sz ∧ sz ∈ m.allowedSizes ∧
        modeAllowed m.allowedModes1 op1 = true ∧ modeAllowed m.allowedModes2 op2 = true := by
  unfold checkOpcode
  split
  · next hp =>
    rcases Size.ofCode info.ds with _ | size
    · simp
    · simp only [hp, true_and, Option.some.injEq]
      constructor
      · intro h
        split at h
        · next hs =>
          split at h
          · next hm => cases h; simpa [hs] using hm
          · cases h
        · cases h
      · rintro ⟨rfl, hs, h1, h2⟩
        simp [hs, h1, h2]
  · next hp => simp [hp]

/-- An operand of mode 011 is no register (spec/30_encoding.md R84). -/
theorem isReg_of_mode_abs {op : Operand} (h : op.mode = 0b011) : isReg op = false := by
  cases op with
  | dreg n => simp [Operand.mode] at h
  | areg n => simp [Operand.mode] at h
  | abs | absTruncated | ind | postInc | preDec | noMode => rfl

/-- Execute_Instruction of each instruction, on the state Fetch_Operands left (spec/40_cycle_and_addressing.md R125). -/
def execute (i : Instr) (sz : Size) (s : State) : Result Unit :=
  match i with
  | .add _ src dst => runTwo (fun _ => aluAdd) src dst sz s
  | .addq _ data dst => runQuick (fun _ => aluAdd) data dst sz s
  | .sub _ src dst => runTwo (fun _ => aluSub) src dst sz s
  | .subq _ data dst => runQuick (fun _ => aluSub) data dst sz s
  | .muls _ src dst => runMuls src dst s
  | .divs _ src dst => runDivs src dst s
  | .neg _ dst => runOne (fun _ => aluNeg) dst sz s
  | .clr _ dst => storeResult .first sz dst (aluMove 0) s
  | .not _ dst => runOne (fun _ => aluNot) dst sz s
  | .and _ src dst => runTwo (fun _ => aluAnd) src dst sz s
  | .or _ src dst => runTwo (fun _ => aluOr) src dst sz s
  | .eor _ src dst => runTwo (fun _ => aluEor) src dst sz s
  | .asl _ data dst => runShift (fun _ => aluAsl) data dst sz s
  | .asr _ data dst => runShift (fun _ => aluAsr) data dst sz s
  | .rol _ data dst => runShift (fun _ => aluRol) data dst sz s
  | .ror _ data dst => runShift (fun _ => aluRor) data dst sz s
  | .cmp _ src dst => runCmp src dst sz s
  | .tst _ dst => runTst dst sz s
  | .bra _ _ => runBranch (fun _ => true) s
  | .bvs _ _ => runBranch (fun b => b.v) s
  | .beq _ _ => runBranch (fun b => b.z) s
  | .bcs _ _ => runBranch (fun b => b.c) s
  | .bge _ _ => runBranch (fun b => !(b.n ^^ b.v)) s
  | .ble _ _ => runBranch (fun b => (b.n ^^ b.v) || b.z) s
  | .move _ src dst => runMove src dst sz s
  | .moveq _ data dst => storeResult .second sz dst (aluMove (immediate sz data)) (s.fillS sz (immediate sz data))
  | .exg _ src dst => runExg src dst s
  | .movea _ _ dst => runMovea dst s
  | .inp _ dst => runInp dst sz s
  | .dsp _ src => runDsp src sz s
  | .dsr _ => runDsr s
  | .hlt _ => .ok () s.setH

/-- Every arm of `exec` is the frame all instructions share around the instruction's `execute`. -/
theorem exec_eq_instruction (i : Instr) (s : State) :
    exec i s = instruction i.mnemonic i.info i.op1 i.op2 (execute i) s := by
  cases i <;> rfl

/-! ### Memory stays canonical -/

/-- The state a part of an instruction ends in, whether it is done or has raised. -/
def Result.state {α : Type} : Result α → State
  | .ok _ s => s
  | .raised _ s => s

@[simp] theorem Result.state_ok {α : Type} (a : α) (s : State) : (Result.ok a s).state = s := rfl
@[simp] theorem Result.state_raised {α : Type} (k : ErrorKind) (s : State) :
    (Result.raised k s : Result α).state = s := rfl

/-- An instruction's end leaves memory as Execute left it: the error action writes none (spec/60_exceptions.md R245). -/
theorem Result.finish_mem {m : Mnemonic} {a : Word} {r : Result Unit} {t : State} (h : r.finish m a = .next t) :
    t.mem = r.state.mem := by
  cases r <;> cases h <;> rfl

theorem andThen_wf {α β : Type} {r : Result α} {f : α → State → Result β} (hr : r.state.mem.wf)
    (hf : ∀ a t, t.mem.wf → (f a t).state.mem.wf) : (r.andThen f).state.mem.wf := by
  cases r with
  | ok a t => exact hf a t hr
  | raised k t => exact hr

theorem readSource_wf (k : Slot) (sz : Size) (op : Operand) {s : State} (h : s.mem.wf) :
    (readSource k sz op s).state.mem.wf := by
  rcases readSource_spec k sz op s with ⟨_, t, e, q⟩ | ⟨_, e⟩ <;> rw [e]
  · simpa [q.mem] using h
  · exact h

theorem readDest_wf (k : Slot) (sz : Size) (op : Operand) {s : State} (h : s.mem.wf) :
    (readDest k sz op s).state.mem.wf := by
  rcases readDest_spec k sz op s with ⟨_, t, e, q⟩ | ⟨_, e⟩ <;> rw [e]
  · simpa [q.mem] using h
  · exact h

theorem writeOp_wf (k : Slot) (sz : Size) (op : Operand) (v : BitVec sz.bits) {s : State} (h : s.mem.wf) :
    (writeOp k sz op v s).state.mem.wf := by
  rcases writeOp_spec k sz op v s with ⟨_, t, e, hs⟩ | ⟨_, e⟩ <;> rw [e]
  · exact hs.wf h
  · exact h

theorem storeResult_wf (k : Slot) (sz : Size) (op : Operand) (o : AluOut sz.bits) {s : State} (h : s.mem.wf) :
    (storeResult k sz op o s).state.mem.wf :=
  andThen_wf (writeOp_wf k sz op o.r (by simpa using h)) fun _ t ht => by simpa using ht

/-- A shape that ends in a store keeps the canonical form. -/
theorem Stores.wf {k sz dst o inRange s r} (h : Stores k sz dst o inRange s r) (hs : s.mem.wf) : r.state.mem.wf := by
  rcases h with ⟨_, t, rfl, ht⟩ | ⟨_, t, rfl, q⟩
  · simpa using ht.wf hs
  · simpa [q.mem] using hs

theorem runTwo_wf (f : (sz : Size) → BitVec sz.bits → BitVec sz.bits → AluOut sz.bits) (src dst : Operand) (sz : Size)
    {s : State} (h : s.mem.wf) : (runTwo f src dst sz s).state.mem.wf :=
  (runTwo_spec f src dst sz s).wf h

theorem runQuick_wf (f : (sz : Size) → BitVec sz.bits → BitVec sz.bits → AluOut sz.bits) (data : BitVec 4)
    (dst : Operand) (sz : Size) {s : State} (h : s.mem.wf) : (runQuick f data dst sz s).state.mem.wf :=
  (runQuick_spec f data dst sz s).wf h

theorem runOne_wf (f : (sz : Size) → BitVec sz.bits → AluOut sz.bits) (dst : Operand) (sz : Size) {s : State}
    (h : s.mem.wf) : (runOne f dst sz s).state.mem.wf :=
  (runOne_spec f dst sz s).wf h

theorem runShift_wf (f : (sz : Size) → Nat → BitVec sz.bits → AluOut sz.bits) (data : BitVec 4) (dst : Operand)
    (sz : Size) {s : State} (h : s.mem.wf) : (runShift f data dst sz s).state.mem.wf :=
  (runShift_spec f data dst sz s).wf h

theorem runMuls_wf (src dst : Operand) {s : State} (h : s.mem.wf) : (runMuls src dst s).state.mem.wf :=
  andThen_wf (readSource_wf _ _ _ h) fun _ _ ht =>
    andThen_wf (readDest_wf _ _ _ ht) fun _ _ hu => storeResult_wf _ _ _ _ hu

theorem storeOverflow_wf (dst : Operand) {s : State} (h : s.mem.wf) : (storeOverflow dst s).state.mem.wf :=
  andThen_wf (writeOp_wf _ _ _ _ (by simpa using h)) fun _ t ht => by simpa using ht

theorem runDivs_wf (src dst : Operand) {s : State} (h : s.mem.wf) : (runDivs src dst s).state.mem.wf :=
  andThen_wf (readSource_wf _ _ _ h) fun sl _ ht =>
    andThen_wf (readDest_wf _ _ _ ht) fun dv u hu => by
      dsimp only
      split
      · exact hu
      · split
        · exact storeOverflow_wf dst hu
        · exact storeResult_wf _ _ _ _ hu

theorem runCmp_wf (src dst : Operand) (sz : Size) {s : State} (h : s.mem.wf) : (runCmp src dst sz s).state.mem.wf :=
  andThen_wf (readSource_wf _ _ _ h) fun _ _ ht =>
    andThen_wf (readDest_wf _ _ _ ht) fun _ _ hu => by simpa using hu

theorem runMove_wf (src dst : Operand) (sz : Size) {s : State} (h : s.mem.wf) : (runMove src dst sz s).state.mem.wf :=
  andThen_wf (readSource_wf _ _ _ h) fun _ _ ht => storeResult_wf _ _ _ _ ht

theorem runExg_wf (src dst : Operand) {s : State} (h : s.mem.wf) : (runExg src dst s).state.mem.wf :=
  andThen_wf (readSource_wf _ _ _ h) fun _ _ ht =>
    andThen_wf (readDest_wf _ _ _ ht) fun _ _ hu =>
      andThen_wf (writeOp_wf _ _ _ _ hu) fun _ _ hp =>
        andThen_wf (writeOp_wf _ _ _ _ hp) fun _ _ hq => by simpa using hq

/-- Execute keeps the canonical form, whatever the instruction and however it ends. -/
theorem execute_wf (i : Instr) (sz : Size) {s : State} (h : s.mem.wf) : (execute i sz s).state.mem.wf := by
  unfold execute
  cases i with
  | add _ src dst | sub _ src dst | and _ src dst | or _ src dst | eor _ src dst =>
    exact runTwo_wf _ src dst sz h
  | addq _ data dst | subq _ data dst => exact runQuick_wf _ data dst sz h
  | asl _ data dst | asr _ data dst | rol _ data dst | ror _ data dst => exact runShift_wf _ data dst sz h
  | neg _ dst | not _ dst => exact runOne_wf _ dst sz h
  | muls _ src dst => exact runMuls_wf src dst h
  | divs _ src dst => exact runDivs_wf src dst h
  | clr _ dst => exact storeResult_wf _ _ _ _ h
  | cmp _ src dst => exact runCmp_wf src dst sz h
  | tst _ dst => exact andThen_wf (readDest_wf _ _ _ h) fun _ _ ht => by simpa using ht
  | bra | bvs | beq | bcs | bge | ble => simpa [runBranch_spec] using h
  | move _ src dst => exact runMove_wf src dst sz h
  | moveq _ data dst => exact storeResult_wf _ _ _ _ (by simpa using h)
  | exg _ src dst => exact runExg_wf src dst h
  | movea _ _ dst => exact storeResult_wf _ _ _ _ h
  | inp _ dst => exact storeResult_wf _ _ _ _ (by simpa using h)
  | dsp _ src => exact andThen_wf (readSource_wf _ _ _ h) fun _ _ ht => by simpa using ht
  | dsr | hlt => simpa [runDsr] using h

theorem fetchOperands_mem (sz : Size) (op1 op2 : Option Operand) (s : State) :
    (fetchOperands sz op1 op2 s).state.mem = s.mem := by
  rcases fetchOperands_spec sz op1 op2 s with ⟨t, e, q⟩ | ⟨_, t, e, q, _⟩ <;> rw [e] <;> exact q.mem

/-- An instruction keeps the canonical form: of its parts only Execute writes memory. -/
theorem exec_wf {i : Instr} {s t : State} (hs : s.mem.wf) (h : exec i s = .next t) : t.mem.wf := by
  rw [exec_eq_instruction] at h
  have located (sz : Size) := fetchOperands_mem sz i.op1 i.op2 (s.loadDS i.info.ds)
  rcases instruction_spec i.mnemonic i.info i.op1 i.op2 (execute i) s with
    ⟨_, _, e⟩ | ⟨sz, _, u, _, hu, e⟩ | ⟨sz, u, _, hu, e⟩ <;> rw [e] at h
  · cases h
    simpa using hs
  · have hm : u.mem = s.mem := by simpa [hu] using located sz
    cases h
    simpa [hm] using hs
  · have hm : u.mem = s.mem := by simpa [hu] using located sz
    rw [Result.finish_mem h]
    exact execute_wf i sz (by rwa [hm])

/-- Settles O54: the fetch writes no memory, the error action neither, and every Execute writes through stores that lie inside
memory. -/
theorem stepKeepsMemoryCanonical : Obligations.StepKeepsMemoryCanonical := by
  intro s t hs h
  obtain ⟨_, ⟨_, rfl⟩ | ⟨i, _, _, hi⟩⟩ := step_eq_next.1 h
  · simpa using hs
  · exact exec_wf (by simpa using hs) hi

end Sys2Proof.Machine
end

section
namespace Sys2Proof.Claims

open Sys2Proof.Machine

/-! ### States that differ only in the internal registers -/

theorem SameButInternal.symm {s t : State} (h : SameButInternal s t) : SameButInternal t s := by
  unfold SameButInternal at *
  rw [← h]

theorem SameButInternal.trans {s t u : State} (h : SameButInternal s t) (g : SameButInternal t u) :
    SameButInternal s u := by
  unfold SameButInternal at *
  rw [← g, ← h]

theorem SameButInternal.updInternal {s t : State} (h : SameButInternal s t) (f g : Internal → Internal) :
    SameButInternal (s.updInternal f) (t.updInternal g) := by
  unfold SameButInternal at *
  rw [← h]
  rfl

end Sys2Proof.Claims

namespace Sys2Proof.Machine

open Sys2Proof.Claims

theorem Quiet.sameButInternal {s t : State} (q : Quiet s t) : SameButInternal s t := by
  simp only [SameButInternal, ← q.regs, ← q.pc, ← q.status, ← q.mem, ← q.trace, ← q.input, ← q.drawn, ← q.free]

/-- An update neither reads nor writes an internal register. -/
def Blind (f : State → State) : Prop := ∀ s j, f { s with internal := j } = { f s with internal := j }

theorem Blind.internal {f : State → State} (hf : Blind f) (s : State) : (f s).internal = s.internal :=
  (congrArg State.internal (hf s s.internal) :)

theorem Blind.opAddr {f : State → State} (hf : Blind f) (s : State) (k : Slot) : (f s).opAddr k = s.opAddr k := by
  cases k <;> simp [State.opAddr, hf.internal]

theorem Blind.sameButInternal {f : State → State} (hf : Blind f) {s t : State} (h : SameButInternal s t) :
    SameButInternal (f s) (f t) := by
  unfold SameButInternal
  rw [hf.internal t, ← hf s t.internal]
  exact congrArg f h

theorem blind_setD (n : RegNo) (v : Long) : Blind (State.setD n v) := fun _ _ => by cases n <;> rfl
theorem blind_setA (n : RegNo) (v : Long) : Blind (State.setA n v) := fun _ _ => by cases n <;> rfl
theorem blind_setPC (v : Word) : Blind (State.setPC v) := fun _ _ => rfl
theorem blind_setNZVC (n z v c : Bool) : Blind (State.setNZVC n z v c) := fun _ _ => rfl
theorem blind_setFlags {w : Nat} (o : AluOut w) : Blind (State.setFlags o) := fun _ _ => rfl
theorem blind_setH : Blind State.setH := fun _ _ => rfl
theorem blind_store (sz : Size) (a : Word) (v : BitVec sz.bits) : Blind (State.store sz a v) := fun _ _ => rfl
theorem blind_emit (e : Event) : Blind (State.emit e) := fun _ _ => rfl
theorem blind_dropDraw : Blind State.dropDraw := fun _ _ => rfl
theorem blind_bumpFree : Blind State.bumpFree := fun _ _ => rfl
theorem blind_raiseError (k : ErrorKind) (m : Option Mnemonic) (a : Word) : Blind (raiseError k m a) := fun _ _ => rfl

/-! ### States that agree on what Execute reads

Within an instruction OpAddr1 and OpAddr2 do carry information: Fetch_Operands writes them and Execute reads them. So two runs
from states that differ in the internal registers agree, after an operand is located, on that operand's address as well. -/

/-- The operands located so far, by position. -/
def operandAt (op1 op2 : Option Operand) : Slot → Option Operand
  | .first => op1
  | .second => op2

theorem operandAt_of_ne_first {op1 op2 : Option Operand} {k : Slot} (h : k ≠ .first) : operandAt op1 op2 k = op2 := by
  cases k with
  | first => exact absurd rfl h
  | second => rfl

theorem operandAt_of_ne_second {op1 op2 : Option Operand} {k : Slot} (h : k ≠ .second) : operandAt op1 op2 k = op1 := by
  cases k with
  | first => rfl
  | second => exact absurd rfl h

/-- `s` and `t` agree on everything but the internal registers, and on OpAddrk for each operand of `ops` that is in memory. -/
structure Agree (ops : Slot → Option Operand) (s t : State) : Prop where
  same : SameButInternal s t
  addr : ∀ k op, ops k = some op → isReg op = false → t.opAddr k = s.opAddr k

section
variable {ops ops' : Slot → Option Operand} {s t : State} {k : Slot} {op : Operand}

theorem agree_of_sameButInternal (h : SameButInternal s t) : Agree (operandAt none none) s t :=
  ⟨h, fun k _ hk => by cases k <;> cases hk⟩

theorem Agree.pc (h : Agree ops s t) : t.pc = s.pc := by rw [← h.same]
theorem Agree.status (h : Agree ops s t) : t.status = s.status := by rw [← h.same]
theorem Agree.mem (h : Agree ops s t) : t.mem = s.mem := by rw [← h.same]
theorem Agree.free (h : Agree ops s t) : t.free = s.free := by rw [← h.same]
theorem Agree.dreg (h : Agree ops s t) (n : RegNo) : t.dreg n = s.dreg n := by rw [← h.same]; cases n <;> rfl
theorem Agree.areg (h : Agree ops s t) (n : RegNo) : t.areg n = s.areg n := by rw [← h.same]; cases n <;> rfl
theorem Agree.nextDraw (h : Agree ops s t) : t.nextDraw = s.nextDraw := by rw [← h.same]; rfl

theorem Agree.operandValue (h : Agree ops s t) (hk : ops k = some op) (sz : Size) :
    operandValue k sz op t = operandValue k sz op s := by
  cases op with
  | dreg n => simp [Machine.operandValue, h.dreg]
  | areg n => simp [Machine.operandValue, h.areg]
  | abs | absTruncated | ind | postInc | preDec | noMode => simp [Machine.operandValue, h.mem, h.addr k _ hk rfl]

theorem Agree.operandInRange (h : Agree ops s t) (hk : ops k = some op) (sz : Size) :
    operandInRange k sz op t = operandInRange k sz op s := by
  unfold Machine.operandInRange
  cases hr : isReg op with
  | true => rfl
  | false => rw [h.addr k op hk hr]

theorem Agree.displayRef (h : Agree ops s t) (hk : ops k = some op) : displayRef k op t = displayRef k op s := by
  cases op with
  | dreg n => rfl
  | areg n => rfl
  | abs | absTruncated | ind | postInc | preDec | noMode => simp [Machine.displayRef, h.addr k _ hk rfl]

/-- Quiet changes on either side, even different ones, keep the agreement. -/
theorem Agree.quiet (h : Agree ops s t) {s' t' : State} (q : Quiet s s') (q' : Quiet t t') : Agree ops s' t' :=
  ⟨q.sameButInternal.symm.trans (h.same.trans q'.sameButInternal), fun k op hk hr => by
    rw [q.opAddr, q'.opAddr, h.addr k op hk hr]⟩

theorem Agree.map {f : State → State} (hf : Blind f) (h : Agree ops s t) : Agree ops (f s) (f t) :=
  ⟨hf.sameButInternal h.same, fun k op hk hr => by rw [hf.opAddr, hf.opAddr, h.addr k op hk hr]⟩

/-- The address of the operand just located is written on both sides. -/
theorem Agree.setOpAddr (h : Agree ops s t) (a : Word) (hj : ∀ j, j ≠ k → ops' j = ops j) :
    Agree ops' (s.setOpAddr k a) (t.setOpAddr k a) := by
  refine ⟨by cases k <;> exact h.same.updInternal _ _, fun j op hop hr => ?_⟩
  by_cases hjk : j = k
  · subst hjk
    rw [State.setOpAddr_same, State.setOpAddr_same]
  · rw [State.setOpAddr_other s hjk, State.setOpAddr_other t hjk, h.addr j op (hj j hjk ▸ hop) hr]

/-- An operand that is no operand in memory needs no address. -/
theorem Agree.noAddress (h : Agree ops s t) (hk : ∀ op, ops' k = some op → isReg op = true)
    (hj : ∀ j, j ≠ k → ops' j = ops j) : Agree ops' s t := by
  refine ⟨h.same, fun j op hop hr => ?_⟩
  by_cases hjk : j = k
  · subst hjk
    simp [hk op hop] at hr
  · exact h.addr j op (hj j hjk ▸ hop) hr

end

/-! ### Parts of an instruction that end alike -/

/-- Two runs of a part of an instruction end alike: both are done, with one value, and agree; or both raise one error, and
differ only in the internal registers. -/
inductive Alike (ops : Slot → Option Operand) {α : Type} : Result α → Result α → Prop
  | ok {a : α} {s t : State} (h : Agree ops s t) : Alike ops (.ok a s) (.ok a t)
  | raised {k : ErrorKind} {s t : State} (h : SameButInternal s t) : Alike ops (.raised k s) (.raised k t)

section
variable {ops ops' : Slot → Option Operand} {s t : State} {k : Slot} {op src dst : Operand}

theorem Alike.andThen {α β : Type} {r r' : Result α} {f g : α → State → Result β} (h : Alike ops r r')
    (hf : ∀ a s t, Agree ops s t → Alike ops' (f a s) (g a t)) : Alike ops' (r.andThen f) (r'.andThen g) := by
  cases h with
  | ok h => exact hf _ _ _ h
  | raised h => exact .raised h

theorem Alike.finish {r r' : Result Unit} (h : Alike ops r r') (m : Mnemonic) (a : Word) :
    ∃ s' t', r.finish m a = .next s' ∧ r'.finish m a = .next t' ∧ SameButInternal s' t' := by
  cases h with
  | ok h => exact ⟨_, _, rfl, rfl, h.same⟩
  | raised h => exact ⟨_, _, rfl, rfl, (blind_raiseError _ _ _).sameButInternal h⟩

/-! #### Fetch_Operands writes each address it leaves to Execute -/

theorem captureEA_alike (h : Agree ops s t) (v : Long) (hj : ∀ j, j ≠ k → ops' j = ops j) :
    Alike ops' (captureEA k v s) (captureEA k v t) := by
  unfold captureEA
  split
  · exact .ok (h.setOpAddr _ hj)
  · exact .raised h.same

theorem fetchExtension_agree (h : Agree ops s t) (a : Word) (hj : ∀ j, j ≠ k → ops' j = ops j) :
    Agree ops' (fetchExtension k a s) (fetchExtension k a t) := by
  unfold fetchExtension
  rw [h.pc]
  exact ((h.quiet (Quiet.latch ..) (Quiet.latch ..)).map (blind_setPC _)).setOpAddr a hj

theorem locate_alike (h : Agree ops s t) (sz : Size) (hk : ops' k = some op) (hj : ∀ j, j ≠ k → ops' j = ops j) :
    Alike ops' (locate k sz op s) (locate k sz op t) := by
  cases op with
  | dreg n => exact .ok (h.noAddress (fun op ho => by rw [hk] at ho; cases ho; rfl) hj)
  | areg n => exact .ok (h.noAddress (fun op ho => by rw [hk] at ho; cases ho; rfl) hj)
  | abs a => exact .ok (fetchExtension_agree h a hj)
  | absTruncated => exact .raised h.same
  | ind n =>
    simp only [locate, h.areg]
    exact captureEA_alike h _ hj
  | postInc n =>
    simp only [locate, h.areg]
    refine (captureEA_alike h _ hj).andThen fun _ u v g => ?_
    rw [g.areg]
    exact .ok (g.map (blind_setA _ _))
  | preDec n =>
    simp only [locate, h.areg, State.setA_areg_same]
    exact captureEA_alike (h.map (blind_setA _ _)) _ hj
  | noMode m n => exact .raised h.same

theorem locateOpt_alike {op : Option Operand} (h : Agree ops s t) (sz : Size) (hk : ops' k = op)
    (hj : ∀ j, j ≠ k → ops' j = ops j) : Alike ops' (locateOpt k sz op s) (locateOpt k sz op t) := by
  cases op with
  | none => exact .ok (h.noAddress (fun op ho => by simp [hk] at ho) hj)
  | some op => exact locate_alike h sz hk hj

theorem fetchOperands_alike (h : SameButInternal s t) (sz : Size) (op1 op2 : Option Operand) :
    Alike (operandAt op1 op2) (fetchOperands sz op1 op2 s) (fetchOperands sz op1 op2 t) := by
  have first : Alike (operandAt op1 none) (locateOpt .first sz op1 s) (locateOpt .first sz op1 t) :=
    locateOpt_alike (agree_of_sameButInternal h) sz rfl fun j hj => by
      rw [operandAt_of_ne_first hj, operandAt_of_ne_first hj]
  exact first.andThen fun _ _ _ g => locateOpt_alike g sz rfl fun j hj => by
    rw [operandAt_of_ne_second hj, operandAt_of_ne_second hj]

/-! #### Reading and writing a located operand -/

theorem readOp_alike (h : Agree ops s t) (hk : ops k = some op) (sz : Size) :
    Alike ops (readOp k sz op s) (readOp k sz op t) := by
  have hr := h.operandInRange hk sz
  rcases readOp_spec k sz op s with ⟨hs, s', e, q⟩ | ⟨hs, e⟩ <;>
    rcases readOp_spec k sz op t with ⟨ht, t', e', q'⟩ | ⟨ht, e'⟩ <;> rw [e, e']
  · rw [h.operandValue hk]
    exact .ok (h.quiet q q')
  · simp [hr, hs] at ht
  · simp [hr, hs] at ht
  · exact .raised h.same

theorem readSource_alike (h : Agree ops s t) (hk : ops k = some op) (sz : Size) :
    Alike ops (readSource k sz op s) (readSource k sz op t) :=
  (readOp_alike h hk sz).andThen fun _ _ _ g => .ok (g.quiet (Quiet.fillS ..) (Quiet.fillS ..))

theorem readDest_alike (h : Agree ops s t) (hk : ops k = some op) (sz : Size) :
    Alike ops (readDest k sz op s) (readDest k sz op t) :=
  (readOp_alike h hk sz).andThen fun _ _ _ g => .ok (g.quiet (Quiet.fillD ..) (Quiet.fillD ..))

theorem memWrite_alike (h : Agree ops s t) (sz : Size) (a : Word) (v : BitVec sz.bits) :
    Alike ops (memWrite sz a v s) (memWrite sz a v t) := by
  unfold memWrite
  split
  · exact .ok ((h.quiet (Quiet.latch ..) (Quiet.latch ..)).map (blind_store _ _ _))
  · exact .raised h.same

theorem writeOp_alike (h : Agree ops s t) (hk : ops k = some op) (sz : Size) (v : BitVec sz.bits) :
    Alike ops (writeOp k sz op v s) (writeOp k sz op v t) := by
  cases op with
  | dreg n =>
    simp only [writeOp, h.dreg]
    exact .ok (h.map (blind_setD _ _))
  | areg n =>
    simp only [writeOp, h.areg]
    exact .ok (h.map (blind_setA _ _))
  | abs | absTruncated | ind | postInc | preDec | noMode =>
    simp only [writeOp, h.addr k _ hk rfl]
    exact memWrite_alike h sz _ v

theorem storeResult_alike (h : Agree ops s t) (hk : ops k = some op) (sz : Size) (o : AluOut sz.bits) :
    Alike ops (storeResult k sz op o s) (storeResult k sz op o t) :=
  (writeOp_alike (h.quiet (Quiet.fillR ..) (Quiet.fillR ..)) hk sz o.r).andThen fun _ _ _ g =>
    .ok (g.map (blind_setFlags o))

/-! #### The shapes of Execute -/

theorem runTwo_alike (f : (sz : Size) → BitVec sz.bits → BitVec sz.bits → AluOut sz.bits) (h : Agree ops s t)
    (h1 : ops .first = some src) (h2 : ops .second = some dst) (sz : Size) :
    Alike ops (runTwo f src dst sz s) (runTwo f src dst sz t) :=
  (readSource_alike h h1 sz).andThen fun _ _ _ g =>
    (readDest_alike g h2 sz).andThen fun _ _ _ g => storeResult_alike g h2 sz _

theorem runQuick_alike (f : (sz : Size) → BitVec sz.bits → BitVec sz.bits → AluOut sz.bits) (data : BitVec 4)
    (h : Agree ops s t) (h2 : ops .second = some dst) (sz : Size) :
    Alike ops (runQuick f data dst sz s) (runQuick f data dst sz t) :=
  (readDest_alike (h.quiet (Quiet.fillS ..) (Quiet.fillS ..)) h2 sz).andThen fun _ _ _ g => storeResult_alike g h2 sz _

theorem runOne_alike (f : (sz : Size) → BitVec sz.bits → AluOut sz.bits) (h : Agree ops s t)
    (h1 : ops .first = some dst) (sz : Size) : Alike ops (runOne f dst sz s) (runOne f dst sz t) :=
  (readDest_alike h h1 sz).andThen fun _ _ _ g => storeResult_alike g h1 sz _

theorem runShift_alike (f : (sz : Size) → Nat → BitVec sz.bits → AluOut sz.bits) (data : BitVec 4) (h : Agree ops s t)
    (h2 : ops .second = some dst) (sz : Size) : Alike ops (runShift f data dst sz s) (runShift f data dst sz t) :=
  (readDest_alike h h2 sz).andThen fun _ _ _ g => storeResult_alike g h2 sz _

theorem runBranch_alike (cond : Status → Bool) (h : Agree ops s t) (h1 : ops .first = some op) (hr : isReg op = false) :
    Alike ops (runBranch cond s) (runBranch cond t) := by
  rw [runBranch_spec, runBranch_spec, h.status, h.pc, h.addr .first op h1 hr]
  exact .ok (h.map (blind_setPC _))

theorem runMuls_alike (h : Agree ops s t) (h1 : ops .first = some src) (h2 : ops .second = some dst) :
    Alike ops (runMuls src dst s) (runMuls src dst t) :=
  (readSource_alike h h1 .w).andThen fun _ _ _ g =>
    (readDest_alike g h2 .w).andThen fun _ _ _ g => storeResult_alike g h2 .l _

theorem storeOverflow_alike (h : Agree ops s t) (h2 : ops .second = some dst) :
    Alike ops (storeOverflow dst s) (storeOverflow dst t) := by
  unfold storeOverflow
  rw [h.free]
  exact (writeOp_alike (h.quiet (Quiet.fillR ..) (Quiet.fillR ..)) h2 .l _).andThen fun _ _ _ g =>
    .ok ((g.map (blind_setNZVC _ _ _ _)).map blind_bumpFree)

theorem runDivs_alike (h : Agree ops s t) (h1 : ops .first = some src) (h2 : ops .second = some dst) :
    Alike ops (runDivs src dst s) (runDivs src dst t) :=
  (readSource_alike h h1 .l).andThen fun _ _ _ g =>
    (readDest_alike g h2 .l).andThen fun _ _ _ g => by
      dsimp only
      split
      · exact .raised g.same
      · split
        · exact storeOverflow_alike g h2
        · exact storeResult_alike g h2 .l _

theorem runCmp_alike (h : Agree ops s t) (h1 : ops .first = some src) (h2 : ops .second = some dst) (sz : Size) :
    Alike ops (runCmp src dst sz s) (runCmp src dst sz t) :=
  (readSource_alike h h1 sz).andThen fun _ _ _ g =>
    (readDest_alike g h2 sz).andThen fun _ _ _ g =>
      .ok ((g.quiet (Quiet.fillR ..) (Quiet.fillR ..)).map (blind_setFlags _))

theorem runTst_alike (h : Agree ops s t) (h1 : ops .first = some dst) (sz : Size) :
    Alike ops (runTst dst sz s) (runTst dst sz t) :=
  (readDest_alike h h1 sz).andThen fun _ _ _ g => .ok (g.map (blind_setFlags _))

theorem runMove_alike (h : Agree ops s t) (h1 : ops .first = some src) (h2 : ops .second = some dst) (sz : Size) :
    Alike ops (runMove src dst sz s) (runMove src dst sz t) :=
  (readSource_alike h h1 sz).andThen fun _ _ _ g => storeResult_alike g h2 sz _

theorem runExg_alike (h : Agree ops s t) (h1 : ops .first = some src) (h2 : ops .second = some dst) :
    Alike ops (runExg src dst s) (runExg src dst t) :=
  (readSource_alike h h1 .l).andThen fun _ _ _ g =>
    (readDest_alike g h2 .l).andThen fun _ _ _ g =>
      (writeOp_alike g h1 .l _).andThen fun _ _ _ g =>
        (writeOp_alike g h2 .l _).andThen fun _ _ _ g => by
          rw [g.status]
          exact .ok (g.map (blind_setNZVC _ _ _ _))

theorem runMovea_alike (h : Agree ops s t) (h1 : ops .first = some src) (hr : isReg src = false)
    (h2 : ops .second = some dst) : Alike ops (runMovea dst s) (runMovea dst t) := by
  unfold runMovea
  rw [h.addr .first src h1 hr]
  exact storeResult_alike h h2 .w _

theorem runInp_alike (h : Agree ops s t) (h1 : ops .first = some dst) (sz : Size) :
    Alike ops (runInp dst sz s) (runInp dst sz t) := by
  unfold runInp
  rw [h.nextDraw]
  exact storeResult_alike (h.map blind_dropDraw) h1 sz _

theorem runDsp_alike (h : Agree ops s t) (h1 : ops .first = some src) (sz : Size) :
    Alike ops (runDsp src sz s) (runDsp src sz t) :=
  (readSource_alike h h1 sz).andThen fun _ _ _ g => by
    rw [g.displayRef h1]
    exact .ok (g.map (blind_emit _))

theorem runDsr_alike (h : Agree ops s t) : Alike ops (runDsr s) (runDsr t) := by
  unfold runDsr
  rw [h.status]
  exact .ok (h.map (blind_emit _))

end

/-! ### Whole instructions -/

/-- Where only mode 011 is allowed for operand-1, a valid opcode's operand-1 is no register (spec/30_encoding.md R94). -/
theorem isReg_of_only_abs {m : Mnemonic} {info : OpInfo} {op : Operand} {op2 : Option Operand} {sz : Size}
    (hc : checkOpcode m info (some op) op2 = .ok sz) (hm : m.allowedModes1 = [0b011]) : isReg op = false := by
  obtain ⟨_, _, _, h1, _⟩ := checkOpcode_eq_ok.1 hc
  exact isReg_of_mode_abs (by simpa [modeAllowed, hm] using h1)

/-- Execute reads an internal register only where Fetch_Operands has written it: branches and MOVEA, which read OpAddr1 whatever
operand-1 is, are valid for operands of mode 011 alone. -/
theorem execute_alike {i : Instr} {sz : Size} (hc : i.check = .ok sz) {s t : State}
    (h : Agree (operandAt i.op1 i.op2) s t) :
    Alike (operandAt i.op1 i.op2) (execute i sz s) (execute i sz t) := by
  unfold execute
  cases i with
  | add _ src dst | sub _ src dst | and _ src dst | or _ src dst | eor _ src dst => exact runTwo_alike _ h rfl rfl sz
  | addq _ data dst | subq _ data dst => exact runQuick_alike _ data h rfl sz
  | asl _ data dst | asr _ data dst | rol _ data dst | ror _ data dst => exact runShift_alike _ data h rfl sz
  | neg _ dst | not _ dst => exact runOne_alike _ h rfl sz
  | muls _ src dst => exact runMuls_alike h rfl rfl
  | divs _ src dst => exact runDivs_alike h rfl rfl
  | clr _ dst => exact storeResult_alike h rfl sz _
  | cmp _ src dst => exact runCmp_alike h rfl rfl sz
  | tst _ dst => exact runTst_alike h rfl sz
  | bra | bvs | beq | bcs | bge | ble => exact runBranch_alike _ h rfl (isReg_of_only_abs hc rfl)
  | move _ src dst => exact runMove_alike h rfl rfl sz
  | moveq _ data dst => exact storeResult_alike (h.quiet (Quiet.fillS ..) (Quiet.fillS ..)) rfl sz _
  | exg _ src dst => exact runExg_alike h rfl rfl
  | movea _ src dst => exact runMovea_alike h rfl (isReg_of_only_abs hc rfl) rfl
  | inp _ dst => exact runInp_alike h rfl sz
  | dsp _ src => exact runDsp_alike h rfl sz
  | dsr => exact runDsr_alike h
  | hlt => exact .ok (h.map blind_setH)

theorem exec_sameButInternal (i : Instr) {s t : State} (h : SameButInternal s t) :
    ∃ s' t', exec i s = .next s' ∧ exec i t = .next t' ∧ SameButInternal s' t' := by
  have ha : opcodeAddress t = opcodeAddress s := by simp [opcodeAddress, (agree_of_sameButInternal h).pc]
  have hd : SameButInternal (s.loadDS i.info.ds) (t.loadDS i.info.ds) := h.updInternal _ _
  rw [exec_eq_instruction, exec_eq_instruction]
  unfold instruction
  rw [ha]
  cases hc : checkOpcode i.mnemonic i.info i.op1 i.op2 with
  | error k => exact ⟨_, _, rfl, rfl, (blind_raiseError _ _ _).sameButInternal hd⟩
  | ok sz =>
    exact ((fetchOperands_alike hd sz i.op1 i.op2).andThen fun _ _ _ g => execute_alike hc g).finish _ _

theorem fetchOpCode_sameButInternal (s : State) (j : Internal) :
    SameButInternal (fetchOpCode s) (fetchOpCode { s with internal := j }) := rfl

/-- Settles O57: the fetch and the error action read no internal register, and within an instruction each one read was written
before. -/
theorem internalRegistersCarryNothing : Obligations.InternalRegistersCarryNothing := by
  intro s j t h
  obtain ⟨hh, ⟨hd, rfl⟩ | ⟨i, rest, hd, hi⟩⟩ := step_eq_next.1 h
  · exact ⟨_, step_eq_next.2 ⟨hh, .inl ⟨hd, rfl⟩⟩, rfl⟩
  · obtain ⟨s', u, hs, hu, hsu⟩ := exec_sameButInternal i (fetchOpCode_sameButInternal s j)
    cases hs.symm.trans hi
    exact ⟨u, step_eq_next.2 ⟨hh, .inr ⟨i, rest, hd, hu⟩⟩, hsu⟩

end Sys2Proof.Machine
end

section
namespace Sys2Proof.Machine

open Sys2Proof.Claims

/-! ### The ALU buffers after a long operation -/

/-- TMPS, TMPD and TMPR (spec/10_state.md R30). -/
def State.buffers (s : State) : Long × Long × Long := (s.internal.tmps, s.internal.tmpd, s.internal.tmpr)

theorem memRead_buffers {sz : Size} {a : Word} {s t : State} {v : BitVec sz.bits} (h : memRead sz a s = .ok v t) :
    t.buffers = s.buffers := by
  unfold memRead at h
  split at h <;> cases h
  rfl

theorem memWrite_buffers {sz : Size} {a : Word} {s t : State} {v : BitVec sz.bits} (h : memWrite sz a v s = .ok () t) :
    t.buffers = s.buffers := by
  unfold memWrite at h
  split at h <;> cases h
  rfl

theorem readOp_buffers {k : Slot} {sz : Size} {op : Operand} {s t : State} {v : BitVec sz.bits}
    (h : readOp k sz op s = .ok v t) : t.buffers = s.buffers := by
  cases op with
  | dreg n => cases h; rfl
  | areg n => cases h; rfl
  | abs | absTruncated | ind | postInc | preDec | noMode => exact memRead_buffers h

theorem writeOp_buffers {k : Slot} {sz : Size} {op : Operand} {s t : State} {v : BitVec sz.bits}
    (h : writeOp k sz op v s = .ok () t) : t.buffers = s.buffers := by
  cases op with
  | dreg n => cases h; simp [State.buffers]
  | areg n => cases h; simp [State.buffers]
  | abs | absTruncated | ind | postInc | preDec | noMode => exact memWrite_buffers h

theorem readSource_eq_ok {k : Slot} {sz : Size} {op : Operand} {s t : State} {v : BitVec sz.bits}
    (h : readSource k sz op s = .ok v t) : v = operandValue k sz op s ∧ Quiet s t := by
  rcases readSource_spec k sz op s with ⟨_, _, e, q⟩ | ⟨_, e⟩ <;> cases h.symm.trans e
  exact ⟨rfl, q⟩

theorem readDest_eq_ok {k : Slot} {sz : Size} {op : Operand} {s t : State} {v : BitVec sz.bits}
    (h : readDest k sz op s = .ok v t) : v = operandValue k sz op s ∧ Quiet s t := by
  rcases readDest_spec k sz op s with ⟨_, _, e, q⟩ | ⟨_, e⟩ <;> cases h.symm.trans e
  exact ⟨rfl, q⟩

/-- A source read at size long fills TMPS with its value (spec/40_cycle_and_addressing.md R125). -/
theorem readSource_long {k : Slot} {op : Operand} {s t : State} {v : Long} (h : readSource k .l op s = .ok v t) :
    t.buffers = (v, s.buffers.2) := by
  obtain ⟨_, u, hu, e⟩ := Result.andThen_eq_ok.1 h
  cases e
  rw [← readOp_buffers hu]
  rfl

/-- A destination read at size long fills TMPD with its value (spec/40_cycle_and_addressing.md R125). -/
theorem readDest_long {k : Slot} {op : Operand} {s t : State} {v : Long} (h : readDest k .l op s = .ok v t) :
    t.buffers = (s.buffers.1, v, s.buffers.2.2) := by
  obtain ⟨_, u, hu, e⟩ := Result.andThen_eq_ok.1 h
  cases e
  rw [← readOp_buffers hu]
  rfl

/-- A result stored at size long is left in TMPR (spec/40_cycle_and_addressing.md R125). -/
theorem storeResult_long {k : Slot} {op : Operand} {o : AluOut 32} {s t : State}
    (h : storeResult k .l op o s = .ok () t) : t.buffers = (s.buffers.1, s.buffers.2.1, o.r) := by
  obtain ⟨_, u, hu, e⟩ := Result.andThen_eq_ok.1 h
  cases e
  exact (writeOp_buffers hu :)

/-- A two-operand instruction of size long leaves S, D and R in the three buffers. -/
theorem runTwo_long_buffers {f : (sz : Size) → BitVec sz.bits → BitVec sz.bits → AluOut sz.bits} {src dst : Operand}
    {s t : State} (h : runTwo f src dst .l s = .ok () t) :
    t.buffers = (operandValue .first .l src s, operandValue .second .l dst s,
      (f .l (operandValue .first .l src s) (operandValue .second .l dst s)).r) := by
  obtain ⟨S, u, hS, h⟩ := Result.andThen_eq_ok.1 h
  obtain ⟨D, v, hD, h⟩ := Result.andThen_eq_ok.1 h
  obtain ⟨rfl, q⟩ := readSource_eq_ok hS
  obtain ⟨rfl, _⟩ := readDest_eq_ok hD
  rw [storeResult_long h, readDest_long hD, readSource_long hS, q.operandValue]

/-- Once Fetch_Operands has succeeded, an instruction is its Execute (spec/40_cycle_and_addressing.md R121). -/
theorem exec_of_begins {i : Instr} {sz : Size} {s e : State} (h : Begins i sz s e) :
    exec i s = (execute i sz e).finish i.mnemonic (opcodeAddress s) := by
  rw [exec_eq_instruction]
  exact instruction_of_located _ h.valid h.located

/-- Settles O16: the shape of every two-operand instruction fills the buffers, and ADD's result is D + S. -/
theorem longAddFillsTheAluBuffers : Obligations.LongAddFillsTheAluBuffers := by
  intro info src dst s e hb h1 h2
  rcases runTwo_spec (fun _ => aluAdd) src dst .l e with ⟨_, t, ht, _⟩ | ⟨hn, _⟩
  · have hbuf := runTwo_long_buffers ht
    simp only [State.buffers, Prod.mk.injEq] at hbuf
    obtain ⟨hS, hD, hR⟩ := hbuf
    refine ⟨t.setFlags _, ?_, hS, hD, by rw [hR, hS, hD]; rfl⟩
    rw [exec_of_begins hb, execute, ht]
    rfl
  · exact absurd ⟨h1, h2⟩ hn

/-! ### The state after initialisation -/

/-- Settles O1: `State.initial` writes these fields itself and leaves the open ones to its parameters. -/
theorem initialStateIsAsTheSpecSays : Obligations.InitialStateIsAsTheSpecSays :=
  ⟨fun _ _ _ _ _ _ => ⟨rfl, rfl, rfl, rfl, rfl, rfl⟩,
    ⟨0, 0, 0, 0⟩, [], Internal.reset, [], 0, 0, rfl⟩

/-- Settles O2: at reset memory lists no byte and the trace no event. -/
theorem resetIsSound : Obligations.ResetIsSound :=
  ⟨⟨List.Pairwise.nil, fun _ hc => absurd hc List.not_mem_nil⟩, rfl⟩

end Sys2Proof.Machine
end

/-! ## Proofs of the family `20_memory`

First what later families can use too: an access in terms of its range, the error action in terms of `ErrorAction`, and the
bytes the decoder is given. Then an operand access that leaves memory (O49), a store and the load after it (O14), the memory
interface's registers (O15) and the opcode fetch at the end of memory (O6). -/

section
namespace Sys2Proof.Machine

open Sys2Proof.Claims

/-! ### The error action -/

/-- The error action leaves what `ErrorAction` says (spec/60_exceptions.md R245). -/
theorem raiseError_errorAction (k : ErrorKind) (m : Option Mnemonic) (a : Word) (s : State) :
    ErrorAction k m a s (raiseError k m a s) where
  trace := rfl
  h := rfl
  flags := ⟨rfl, rfl, rfl, rfl⟩
  d := raiseError_dreg k m a s
  a := raiseError_areg k m a s
  mem := rfl
  pc := rfl
  free := rfl

theorem raiseError_hostKept (k : ErrorKind) (m : Option Mnemonic) (a : Word) (s : State) :
    HostKept s (raiseError k m a s) := ⟨rfl, rfl, rfl⟩

/-- `t` differs from `s` at most in the internal registers and the host's draws: all that Execute can have changed when an
operand access raises (spec/60_exceptions.md R245), INP's draw being taken before its store. -/
structure Unwritten (s t : State) : Prop where
  regs : t.regs = s.regs
  pc : t.pc = s.pc
  status : t.status = s.status
  mem : t.mem = s.mem
  trace : t.trace = s.trace
  free : t.free = s.free

theorem Quiet.unwritten {s t : State} (q : Quiet s t) : Unwritten s t :=
  ⟨q.regs, q.pc, q.status, q.mem, q.trace, q.free⟩

theorem Quiet.unwritten_of_dropDraw {s t : State} (q : Quiet s.dropDraw t) : Unwritten s t :=
  ⟨q.regs, q.pc, q.status, q.mem, q.trace, q.free⟩

/-- An error raised before anything was written leaves the data the instruction began with. -/
theorem Unwritten.errorAction {s t : State} (h : Unwritten s t) (k : ErrorKind) (m : Option Mnemonic) (a : Word) :
    ErrorAction k m a s (raiseError k m a t) where
  trace := by simp [h.trace]
  h := rfl
  flags := by constructor <;> simp [h.status]
  d n := by simp [State.dreg, h.regs]
  a n := by simp [State.areg, h.regs]
  mem := h.mem
  pc := h.pc
  free := h.free

/-! ### An operand access that leaves memory -/

/-- From `s`, `r` raises AddressOutOfRange with nothing written. -/
def RaisesOutOfRange {α : Type} (s : State) (r : Result α) : Prop :=
  ∃ t, r = .raised .addressOutOfRange t ∧ Unwritten s t

section
variable {α : Type} {k : Slot} {sz : Size} {op src dst : Operand} {s u : State} {f : BitVec sz.bits → State → Result α}

/-- Reading a source and going on raises if the read does, or if it succeeds and the rest raises. -/
theorem readSource_andThen_raises (q : Quiet s u)
    (h : operandInRange k sz op s = true → ∀ v t, Quiet s t → RaisesOutOfRange s (f v t)) :
    RaisesOutOfRange s ((readSource k sz op u).andThen f) := by
  rcases readSource_spec k sz op u with ⟨hr, t, e, q'⟩ | ⟨_, e⟩ <;> rw [e]
  · exact h (q.operandInRange .. ▸ hr) _ t (q.trans q')
  · exact ⟨u, rfl, q.unwritten⟩

/-- Reading a destination and going on raises if the read does, or if it succeeds and the rest raises. -/
theorem readDest_andThen_raises (q : Quiet s u)
    (h : operandInRange k sz op s = true → ∀ v t, Quiet s t → RaisesOutOfRange s (f v t)) :
    RaisesOutOfRange s ((readDest k sz op u).andThen f) := by
  rcases readDest_spec k sz op u with ⟨hr, t, e, q'⟩ | ⟨_, e⟩ <;> rw [e]
  · exact h (q.operandInRange .. ▸ hr) _ t (q.trans q')
  · exact ⟨u, rfl, q.unwritten⟩

theorem readSource_raises (h : operandInRange k sz op s = false) :
    RaisesOutOfRange s ((readSource k sz op s).andThen f) :=
  readSource_andThen_raises (Quiet.refl s) fun hr => by simp [h] at hr

theorem readDest_raises (q : Quiet s u) (h : operandInRange k sz op s = false) :
    RaisesOutOfRange s ((readDest k sz op u).andThen f) :=
  readDest_andThen_raises q fun hr => by simp [h] at hr

/-- Where an instruction reads both operands first, either of them out of range raises, whatever follows. -/
theorem readBoth_raises {g : BitVec sz.bits → BitVec sz.bits → State → Result α}
    (h : operandInRange .first sz src s = false ∨ operandInRange .second sz dst s = false) :
    RaisesOutOfRange s ((readSource .first sz src s).andThen fun sv t => (readDest .second sz dst t).andThen (g sv)) :=
  readSource_andThen_raises (Quiet.refl s) fun h1 _ _ q => readDest_raises q (h.resolve_left (by simp [h1]))

theorem storeResult_raises (o : AluOut sz.bits) (q : Quiet s u) (h : operandInRange k sz op s = false) :
    RaisesOutOfRange s (storeResult k sz op o u) := by
  rcases storeResult_spec k sz op o u with ⟨hr, _⟩ | ⟨_, t, e, q'⟩
  · simp [q.operandInRange, h] at hr
  · exact ⟨t, e, (q.trans q').unwritten⟩

/-- MULS reads words and writes a long, so its destination can leave memory at the write alone (spec/41_arithmetic.md R165). -/
theorem runMuls_raises (h : operandInRange .first .w src s = false ∨ operandInRange .second .w dst s = false ∨
    operandInRange .second .l dst s = false) : RaisesOutOfRange s (runMuls src dst s) :=
  readSource_andThen_raises (Quiet.refl s) fun h1 _ _ q => readDest_andThen_raises q fun h2 _ _ q' =>
    storeResult_raises _ q' (by simpa [h1, h2] using h)

theorem runMove_raises (h : operandInRange .first sz src s = false ∨ operandInRange .second sz dst s = false) :
    RaisesOutOfRange s (runMove src dst sz s) :=
  readSource_andThen_raises (Quiet.refl s) fun h1 _ _ q => storeResult_raises _ q (h.resolve_left (by simp [h1]))

/-- INP takes its draw before the store that raises (spec/47_io_and_halt.md R232). -/
theorem runInp_raises (h : operandInRange .first sz dst s = false) : RaisesOutOfRange s (runInp dst sz s) := by
  rcases storeResult_spec .first sz dst (aluMove (s.nextDraw.setWidth sz.bits)) s.dropDraw with ⟨hr, _⟩ | ⟨_, t, e, q⟩
  · have hd : operandInRange .first sz dst s.dropDraw = operandInRange .first sz dst s := by simp [operandInRange]
    simp [hd, h] at hr
  · exact ⟨t, e, q.unwritten_of_dropDraw⟩

end

/-- EXG's two operands are registers (spec/30_encoding.md R94). -/
theorem isReg_of_mode_register {op : Operand} (h : op.mode ∈ [0b000, 0b001]) : isReg op = true := by
  cases op with
  | dreg | areg => rfl
  | noMode m => cases m <;> simp [Operand.mode] at h
  | abs | absTruncated | ind | postInc | preDec => simp [Operand.mode] at h

theorem operandInRange_of_isReg {op : Operand} (h : isReg op = true) (k : Slot) (sz : Size) (s : State) :
    operandInRange k sz op s = true := by
  simp [operandInRange, h]

/-- Execute of a valid instruction raises where an access leaves memory, DIVS before it looks at its divisor
(spec/20_memory.md R56, spec/60_exceptions.md R248). -/
theorem execute_raises {i : Instr} {sz : Size} {s : State} (hc : i.check = .ok sz)
    (hx : ∃ x ∈ accesses i sz, operandInRange x.1 x.2.1 x.2.2 s = false) : RaisesOutOfRange s (execute i sz s) := by
  obtain ⟨_, _, hsz, h1, h2⟩ := checkOpcode_eq_ok.1 hc
  cases i with
  | add | sub | and | or | eor | cmp =>
    exact readBoth_raises (by simpa [accesses] using hx)
  | divs =>
    obtain rfl : sz = .l := by simpa [Instr.mnemonic, Mnemonic.allowedSizes] using hsz
    exact readBoth_raises (by simpa [accesses] using hx)
  | muls => exact runMuls_raises (by simpa [accesses] using hx)
  | move => exact runMove_raises (by simpa [accesses] using hx)
  | exg _ src dst =>
    have hs := isReg_of_mode_register (of_decide_eq_true h1)
    have hd := isReg_of_mode_register (of_decide_eq_true h2)
    simp [accesses, operandInRange_of_isReg, hs, hd] at hx
  | addq | subq => exact readDest_raises (Quiet.fillS ..) (by simpa [accesses] using hx)
  | asl | asr | rol | ror | neg | not | tst => exact readDest_raises (Quiet.refl s) (by simpa [accesses] using hx)
  | dsp => exact readSource_raises (by simpa [accesses] using hx)
  | clr => exact storeResult_raises _ (Quiet.refl s) (by simpa [accesses] using hx)
  | moveq => exact storeResult_raises _ (Quiet.fillS ..) (by simpa [accesses] using hx)
  | inp => exact runInp_raises (by simpa [accesses] using hx)
  | movea | bra | bvs | beq | bcs | bge | ble | dsr | hlt => simp [accesses] at hx

/-- Settles O49: Execute raises with nothing written, and the error action ends the instruction. -/
theorem operandAccessBeyondMemory : Obligations.OperandAccessBeyondMemory := by
  intro i sz s e hb hx
  obtain ⟨u, hu, hk⟩ := execute_raises hb.valid hx
  refine ⟨_, ?_, hk.errorAction .addressOutOfRange (some i.mnemonic) (s.pc - 2)⟩
  rw [exec_of_begins hb, hu]
  rfl

/-! ### Accesses inside memory and beyond it -/

section
variable {sz : Size} {a : Word} {s : State}

theorem memRead_of_inMemory (h : a.toNat + sz.bytes ≤ Config.memTop + 1) :
    memRead sz a s = .ok (Memory.value sz s.mem a.toNat) (s.latch sz a true (Memory.value sz s.mem a.toNat)) :=
  if_pos ((inMemory_iff ..).2 h)

theorem memWrite_of_inMemory (v : BitVec sz.bits) (h : a.toNat + sz.bytes ≤ Config.memTop + 1) :
    memWrite sz a v s = .ok () ((s.latch sz a false v).store sz a v) :=
  if_pos ((inMemory_iff ..).2 h)

/-- A value stored is read back at the same size (spec/20_memory.md R51, R59). -/
theorem memRead_store (hm : Memory.rising s.mem) (v : BitVec sz.bits) (h : a.toNat + sz.bytes ≤ Config.memTop + 1) :
    memRead sz a (s.store sz a v) = .ok v ((s.store sz a v).latch sz a true v) := by
  rw [memRead_of_inMemory h, State.store_mem, Memory.value_writeBytes_same hm]

theorem memRead_beyond (h : Config.memTop + 1 < a.toNat + sz.bytes) : memRead sz a s = .raised .addressOutOfRange s :=
  if_neg (by simpa [inMemory] using h)

theorem memWrite_beyond (v : BitVec sz.bits) (h : Config.memTop + 1 < a.toNat + sz.bytes) :
    memWrite sz a v s = .raised .addressOutOfRange s :=
  if_neg (by simpa [inMemory] using h)

end

/-- Byte `k` of a value counts from its most significant end (spec/20_memory.md R50). -/
theorem bytesOf_getElem {sz : Size} (v : BitVec sz.bits) {k : Nat} (h : k < (bytesOf sz v).length) :
    (bytesOf sz v)[k] = v.extractLsb' (8 * (sz.bytes - 1 - k)) 8 := by
  have hk : k < sz.bytes := by simpa using h
  cases sz with
  | b =>
    obtain rfl : k = 0 := by simp only [Size.bytes] at hk; omega
    exact BitVec.extractLsb'_eq_self.symm
  | w =>
    have hk : k < 2 := hk
    interval_cases k <;> rfl
  | l =>
    have hk : k < 4 := hk
    interval_cases k <;> rfl

/-- A store leaves its value's bytes in memory, most significant first. -/
theorem State.store_byteAt_same {s : State} (hm : Memory.rising s.mem) {sz : Size} (a : Word) (v : BitVec sz.bits) {k : Nat}
    (h : k < sz.bytes) : (s.store sz a v).byteAt (a.toNat + k) = v.extractLsb' (8 * (sz.bytes - 1 - k)) 8 := by
  have hk : k < (bytesOf sz v).length := by simpa using h
  rw [← bytesOf_getElem v hk]
  exact Memory.read_writeBytes_same hm a.toNat (bytesOf sz v) k hk

/-- Settles O14: the laws of memory for the bytes stored and for the others, and the check of the range. -/
theorem storeThenLoad : Obligations.StoreThenLoad := by
  intro sz a v s hm
  refine ⟨fun h => ?_, fun h => ⟨memWrite_beyond v h, memRead_beyond h⟩⟩
  have hl : (s.latch sz a false v).mem.wf := hm
  have hlen : a.toNat + (bytesOf sz v).length ≤ Config.memTop + 1 := by rwa [bytesOf_length]
  refine ⟨_, memWrite_of_inMemory v h, Memory.wf_writeBytes hl _ _ hlen, ⟨_, memRead_store hl.1 v h, rfl⟩,
    fun k hk => ?_, fun x hx => State.store_byteAt_other hl.1 sz a v hx⟩
  rw [State.store_byteAt_same hl.1 a v hk, BitVec.extractLsb'_toNat, Nat.shiftRight_eq_div_pow]

/-! ### The memory interface -/

@[simp] theorem State.latch_internal (s : State) (sz : Size) (a : Word) (r : Bool) (v : BitVec sz.bits) :
    (s.latch sz a r v).internal =
      { s.internal with mar := a, ds := sz.code, rw := r, mdr := setLow sz s.internal.mdr v } := rfl

/-- Settles O15: a read and a write load the interface by the same `latch`, and the store after it changes memory only. -/
theorem accessLoadsTheMemoryInterface : Obligations.AccessLoadsTheMemoryInterface := by
  intro sz a v s h
  have upper (x : BitVec sz.bits) (j : Nat) (hj : sz.bits ≤ j) := setLow_upper sz s.internal.mdr x hj
  exact ⟨⟨_, _, memRead_of_inMemory h, rfl, rfl, rfl, setLow_read .., upper _⟩,
    ⟨_, memWrite_of_inMemory v h, rfl, rfl, rfl, setLow_read .., upper v⟩⟩

/-! ### The opcode fetch at the end of memory -/

/-- Of the first `n` addresses from `p` on, those up to `top` are a first part. -/
theorem filter_range_add_le (p top n : Nat) :
    (List.range n).filter (p + · ≤ top) = List.range (min n (top + 1 - p)) := by
  induction n with
  | zero => simp
  | succ n ih =>
    rw [List.range_succ, List.filter_append, ih]
    by_cases h : p + n ≤ top
    · rw [show min n (top + 1 - p) = n by omega, show min (n + 1) (top + 1 - p) = n + 1 by omega, List.range_succ]
      simp [h]
    · rw [show min (n + 1) (top + 1 - p) = min n (top + 1 - p) by omega]
      simp [h]

/-- The decoder is given the bytes from PC on, six at most, as far as memory goes (spec/20_memory.md R56). -/
theorem codeBytes_eq (s : State) : codeBytes s =
    (List.range (min 6 (Config.memTop + 1 - s.pc.toNat))).map fun k => s.byteAt (s.pc.toNat + k) := by
  rw [← filter_range_add_le]
  simp only [codeBytes, List.filter_map, List.map_map]
  rfl

theorem codeBytes_length (s : State) : (codeBytes s).length = min 6 (Config.memTop + 1 - s.pc.toNat) := by
  simp [codeBytes_eq]

/-- Two bytes are enough to decode an instruction (spec/30_encoding.md R91). -/
theorem decode_of_two_le {bs : List Byte} (h : 2 ≤ bs.length) : ∃ i rest, decode bs = .ok (i, rest) := by
  match bs with
  | hi :: lo :: rest => exact ⟨_, _, rfl⟩

theorem decode_of_lt_two {bs : List Byte} (h : bs.length < 2) : decode bs = .error .truncatedOpcode := by
  match bs with
  | [] => rfl
  | [_] => rfl

/-- Settles O6: the decoder has both bytes of the opcode word exactly when PC is at most $0FFF. -/
theorem opcodeFetchBeyondMemory : Obligations.OpcodeFetchBeyondMemory := by
  intro s hs
  have hlen : (codeBytes s).length = min 6 (0x1001 - s.pc.toNat) := codeBytes_length s
  constructor
  · intro hpc
    have hd := decode_of_lt_two (bs := codeBytes s) (by omega)
    exact ⟨_, step_eq_next.2 ⟨hs, .inl ⟨hd, rfl⟩⟩, raiseError_errorAction .., raiseError_hostKept ..⟩
  · intro hpc
    exact decode_of_two_le (by omega)

end Sys2Proof.Machine
end

/-! ## Proofs of the family `30_encoding`

First what later families can use too: the fields of an opcode word, what one operand is read as, the four forms in which an
instruction is read, and the opcode's checks one by one. Then the round trip (O10), decoding every opcode word (O11), the
unused fields (O12), known words (O9), the opcode map (O13) and the order of the decode errors (O47). -/

section
namespace Sys2Proof.Laws

open Sys2Proof.Machine Sys2Proof.Claims

/-! ### The fields of an opcode word -/

/-- Words that agree on a range of bits agree on every field inside it. -/
theorem extractLsb'_eq_of_within {w u : Word} {k len : Nat} (h : w.extractLsb' k len = u.extractLsb' k len) (i n : Nat)
    (hk : k ≤ i) (hn : i + n ≤ k + len) : w.extractLsb' i n = u.extractLsb' i n := by
  apply BitVec.eq_of_getLsbD_eq
  intro j hj
  have hbit := congrArg (BitVec.getLsbD · (i - k + j)) h
  simpa [BitVec.getLsbD_extractLsb', hj, show i - k + j < len by omega, show k + (i - k + j) = i + j by omega] using hbit

/-- DS and P stand in the opcode word's high byte (spec/30_encoding.md R81, R82). -/
theorem opInfo_eq_of_high {w u : Word} (h : w.extractLsb' 8 8 = u.extractLsb' 8 8) : opInfo w = opInfo u := by
  have hP := congrArg (BitVec.getLsbD · 0) h
  simp only [BitVec.getLsbD_extractLsb', Nat.zero_lt_succ, decide_true, Bool.true_and] at hP
  rw [opInfo, opInfo, extractLsb'_eq_of_within h 9 2 (by omega) (by omega), hP]

/-- Every OpName is that of the instruction it selects (spec/30_encoding.md R90, R91). -/
theorem opName_ofOpName (o : BitVec 5) : (Mnemonic.ofOpName o).opName = o := by
  revert o; decide

/-- The OpNames that begin 1111 are those of DSR and HLT (spec/30_encoding.md R90). -/
theorem ofOpName_of_1111 {w : Word} (h : w.extractLsb' 12 4 = (0b1111 : BitVec 4)) :
    Mnemonic.ofOpName (w.extractLsb' 11 5) = .DSR ∨ Mnemonic.ofOpName (w.extractLsb' 11 5) = .HLT := by
  have select : ∀ o : BitVec 5, o.extractLsb' 1 4 = (0b1111 : BitVec 4) →
      Mnemonic.ofOpName o = .DSR ∨ Mnemonic.ofOpName o = .HLT := by decide
  refine select _ (Eq.trans ?_ h)
  apply BitVec.eq_of_getLsbD_eq
  intro j hj
  simp [BitVec.getLsbD_extractLsb', show 1 + j < 5 by omega, show 11 + (1 + j) = 12 + j by omega]

/-! ### One operand -/

/-- An operand carries the mode it is read with, and the N bit beside a mode other than 011 (spec/30_encoding.md R84, R85). -/
theorem readOperand_fields (m : BitVec 3) (n : BitVec 1) (rest : List Byte) :
    (readOperand m n rest).1.mode = m ∧
      ((readOperand m n rest).1.mode ≠ 0b011 → (readOperand m n rest).1.regBit = n) := by
  have bit_ofBit : (RegNo.ofBit n).bit = n := by revert n; decide
  have modes : ∀ m : BitVec 3, m = 3 ∨ m = 0 ∨ m = 1 ∨ m = 2 ∨ m = 4 ∨ m = 5 ∨ m = 6 ∨ m = 7 := by decide
  rcases modes m with rfl | rfl | rfl | rfl | rfl | rfl | rfl | rfl
  · rcases rest with _ | ⟨hi, _ | ⟨lo, rest⟩⟩ <;> exact ⟨rfl, fun h => absurd rfl h⟩
  all_goals exact ⟨rfl, fun _ => bit_ofBit⟩

/-- The N bit beside mode 011 is not considered (spec/30_encoding.md R85, decision D15). -/
theorem readOperand_abs (n m : BitVec 1) (rest : List Byte) : readOperand 0b011 n rest = readOperand 0b011 m rest := rfl

/-! ### Which fields an instruction has -/

theorem op1_ne_none_iff (i : Instr) : i.op1 ≠ none ↔ i.mnemonic ∈ withOperand1 := by
  cases i <;> simp [Instr.op1, Instr.mnemonic, withOperand1]

theorem immediateOf_ne_none_iff (i : Instr) : immediateOf i ≠ none ↔ i.mnemonic ∈ withData := by
  cases i <;> simp [immediateOf, Instr.mnemonic, withData]

theorem op2_ne_none_iff (i : Instr) : i.op2 ≠ none ↔ i.mnemonic ∈ withOperand2 := by
  cases i <;> simp [Instr.op2, Instr.mnemonic, withOperand2, withData]

/-- What an operand adds to the length, from its mode field and whether it exists (spec/30_encoding.md R96). -/
theorem extBytes_eq {op : Option Operand} {p : Prop} [Decidable p] {m : BitVec 3} (hp : op ≠ none ↔ p)
    (hm : ∀ o, op = some o → o.mode = m) : extBytes op = if p ∧ m = 0b011 then 2 else 0 := by
  cases op with
  | none => simp [extBytes, ← hp]
  | some o => simp [extBytes, ← hp, hm o rfl]

/-! ### The four forms of an instruction (spec/30_encoding.md R88) -/

/-- The parts an instruction is made of: its name, DS and P, and the operands and the immediate it has. -/
structure MadeOf (i : Instr) (m : Mnemonic) (info : OpInfo) (op1 : Option Operand) (data : Option (BitVec 4))
    (op2 : Option Operand) : Prop where
  mnemonic : i.mnemonic = m
  info : i.info = info
  op1 : i.op1 = op1
  data : immediateOf i = data
  op2 : i.op2 = op2

/-- How the decoder reads the instruction named `m`: F1 with two operands or with one, F2, or without operand fields. -/
inductive ReadForm (m : Mnemonic) : (Word → List Byte → Instr × List Byte) → Prop
  | two {mk : OpInfo → Operand → Operand → Instr}
      (parts : ∀ info o1 o2, MadeOf (mk info o1 o2) m info (some o1) none (some o2)) : ReadForm m (readTwo mk)
  | one {mk : OpInfo → Operand → Instr}
      (parts : ∀ info o1, MadeOf (mk info o1) m info (some o1) none none) : ReadForm m (readOne mk)
  | quick {mk : OpInfo → BitVec 4 → Operand → Instr}
      (parts : ∀ info data o2, MadeOf (mk info data o2) m info none (some data) (some o2)) : ReadForm m (readQuick mk)
  | bare {mk : OpInfo → Instr}
      (parts : ∀ info, MadeOf (mk info) m info none none none) : ReadForm m fun w rest => (mk (opInfo w), rest)

/-- The OpName alone selects the form in which a word is decoded. -/
theorem decodeOpcode_form (m : Mnemonic) : ∃ read, ReadForm m read ∧
    ∀ w rest, Mnemonic.ofOpName (w.extractLsb' 11 5) = m → decodeOpcode w rest = read w rest := by
  cases m with
  | ADD | SUB | MULS | DIVS | AND | OR | EOR | CMP | MOVE | EXG | MOVEA =>
    refine ⟨_, ?_, fun w rest h => by rw [decodeOpcode, h]⟩
    exact .two fun _ _ _ => ⟨rfl, rfl, rfl, rfl, rfl⟩
  | NEG | CLR | NOT | TST | BRA | BVS | BEQ | BCS | BGE | BLE | INP | DSP =>
    refine ⟨_, ?_, fun w rest h => by rw [decodeOpcode, h]⟩
    exact .one fun _ _ => ⟨rfl, rfl, rfl, rfl, rfl⟩
  | ADDQ | SUBQ | ASL | ASR | ROL | ROR | MOVEQ =>
    refine ⟨_, ?_, fun w rest h => by rw [decodeOpcode, h]⟩
    exact .quick fun _ _ _ => ⟨rfl, rfl, rfl, rfl, rfl⟩
  | DSR | HLT =>
    refine ⟨_, ?_, fun w rest h => by rw [decodeOpcode, h]⟩
    exact .bare fun _ => ⟨rfl, rfl, rfl, rfl, rfl⟩

/-- What the decoder makes of an opcode word: the instruction its OpName selects, with each field it has read from the
field's own bits (spec/30_encoding.md R81, R82, R85). -/
structure ReadFrom (w : Word) (i : Instr) : Prop where
  mnemonic : i.mnemonic = Mnemonic.ofOpName (w.extractLsb' 11 5)
  info : i.info = opInfo w
  op1 : ∀ op, i.op1 = some op → op.mode = w.extractLsb' 5 3 ∧ (op.mode ≠ 0b011 → op.regBit = w.extractLsb' 4 1)
  data : ∀ data, immediateOf i = some data → data = w.extractLsb' 4 4
  op2 : ∀ op, i.op2 = some op → op.mode = w.extractLsb' 1 3 ∧ (op.mode ≠ 0b011 → op.regBit = w.extractLsb' 0 1)

/-- An instruction is read from a word when the parts it is made of are. -/
theorem MadeOf.readFrom {w : Word} {i : Instr} {op1 op2 : Option Operand} {data : Option (BitVec 4)}
    (parts : MadeOf i (Mnemonic.ofOpName (w.extractLsb' 11 5)) (opInfo w) op1 data op2)
    (h1 : ∀ op, op1 = some op → op.mode = w.extractLsb' 5 3 ∧ (op.mode ≠ 0b011 → op.regBit = w.extractLsb' 4 1))
    (hd : ∀ x, data = some x → x = w.extractLsb' 4 4)
    (h2 : ∀ op, op2 = some op → op.mode = w.extractLsb' 1 3 ∧ (op.mode ≠ 0b011 → op.regBit = w.extractLsb' 0 1)) :
    ReadFrom w i :=
  ⟨parts.mnemonic, parts.info, parts.op1 ▸ h1, parts.data ▸ hd, parts.op2 ▸ h2⟩

theorem decodeOpcode_readFrom (w : Word) (rest : List Byte) : ReadFrom w (decodeOpcode w rest).1 := by
  obtain ⟨read, form, hread⟩ := decodeOpcode_form (Mnemonic.ofOpName (w.extractLsb' 11 5))
  rw [hread w rest rfl]
  cases form with
  | two parts =>
    exact (parts ..).readFrom (fun | _, rfl => readOperand_fields ..) nofun (fun | _, rfl => readOperand_fields ..)
  | one parts => exact (parts ..).readFrom (fun | _, rfl => readOperand_fields ..) nofun nofun
  | quick parts => exact (parts ..).readFrom nofun (fun | _, rfl => rfl) (fun | _, rfl => readOperand_fields ..)
  | bare parts => exact (parts ..).readFrom nofun nofun nofun

/-! ### Decoding and encoding -/

/-- Settles O10: the round trip of each instruction (`RoundTrip`). -/
theorem decodeOfEncode : Obligations.DecodeOfEncode := by
  intro i rest h
  cases i with
  | add info o1 o2 => exact RoundTrip.add info o1 o2 rest h
  | addq info data o2 => exact RoundTrip.addq info data o2 rest h
  | sub info o1 o2 => exact RoundTrip.sub info o1 o2 rest h
  | subq info data o2 => exact RoundTrip.subq info data o2 rest h
  | muls info o1 o2 => exact RoundTrip.muls info o1 o2 rest h
  | divs info o1 o2 => exact RoundTrip.divs info o1 o2 rest h
  | neg info o1 => exact RoundTrip.neg info o1 rest h
  | clr info o1 => exact RoundTrip.clr info o1 rest h
  | not info o1 => exact RoundTrip.not info o1 rest h
  | and info o1 o2 => exact RoundTrip.and info o1 o2 rest h
  | or info o1 o2 => exact RoundTrip.or info o1 o2 rest h
  | eor info o1 o2 => exact RoundTrip.eor info o1 o2 rest h
  | asl info data o2 => exact RoundTrip.asl info data o2 rest h
  | asr info data o2 => exact RoundTrip.asr info data o2 rest h
  | rol info data o2 => exact RoundTrip.rol info data o2 rest h
  | ror info data o2 => exact RoundTrip.ror info data o2 rest h
  | cmp info o1 o2 => exact RoundTrip.cmp info o1 o2 rest h
  | tst info o1 => exact RoundTrip.tst info o1 rest h
  | bra info o1 => exact RoundTrip.bra info o1 rest h
  | bvs info o1 => exact RoundTrip.bvs info o1 rest h
  | beq info o1 => exact RoundTrip.beq info o1 rest h
  | bcs info o1 => exact RoundTrip.bcs info o1 rest h
  | bge info o1 => exact RoundTrip.bge info o1 rest h
  | ble info o1 => exact RoundTrip.ble info o1 rest h
  | move info o1 o2 => exact RoundTrip.move info o1 o2 rest h
  | moveq info data o2 => exact RoundTrip.moveq info data o2 rest h
  | exg info o1 o2 => exact RoundTrip.exg info o1 o2 rest h
  | movea info o1 o2 => exact RoundTrip.movea info o1 o2 rest h
  | inp info o1 => exact RoundTrip.inp info o1 rest h
  | dsp info o1 => exact RoundTrip.dsp info o1 rest h
  | dsr info => exact RoundTrip.dsr info rest h
  | hlt info => exact RoundTrip.hlt info rest h

/-- A word's two bytes and what follows them decode as that opcode word. -/
theorem decode_wordBytes (w : Word) (rest : List Byte) :
    decode (w.extractLsb' 8 8 :: w.extractLsb' 0 8 :: rest) = .ok (decodeOpcode w rest) := by
  rw [decode, append_bytes_word]

/-- Settles O11: `ReadFrom` for the fields; which of them there are, and the length, follow from the name and the modes. -/
theorem everyOpcodeWordDecodes : Obligations.EveryOpcodeWordDecodes := by
  intro w rest
  obtain ⟨hm, hi, h1, hd, h2⟩ := decodeOpcode_readFrom w rest
  refine ⟨(decodeOpcode w rest).1, (decodeOpcode w rest).2, decode_wordBytes w rest, ?_, ?_, ?_, op1_ne_none_iff _,
    immediateOf_ne_none_iff _, op2_ne_none_iff _, h1, hd, h2, ?_⟩
  · rw [hm, opName_ofOpName]
  · exact congrArg OpInfo.ds hi
  · exact congrArg OpInfo.p hi
  · rw [Instr.length, extBytes_eq (op1_ne_none_iff _) fun op h => (h1 op h).1,
      extBytes_eq (op2_ne_none_iff _) fun op h => (h2 op h).1]

/-! ### Unused fields -/

/-- DSR and HLT are read from the high byte alone (spec/30_encoding.md R89). -/
theorem decodeOpcode_of_1111 {w u : Word} (h : w.extractLsb' 8 8 = u.extractLsb' 8 8)
    (hw : w.extractLsb' 12 4 = (0b1111 : BitVec 4)) (rest : List Byte) : decodeOpcode w rest = decodeOpcode u rest := by
  have hO := extractLsb'_eq_of_within h 11 5 (by omega) (by omega)
  rcases ofOpName_of_1111 hw with hm | hm <;>
    rw [decodeOpcode, decodeOpcode, ← hO, hm, opInfo_eq_of_high h]

/-- A one-operand F1 instruction is read from bits 15..4 (spec/30_encoding.md R89). -/
theorem readOne_eq_of_high {w u : Word} (h : w.extractLsb' 4 12 = u.extractLsb' 4 12)
    (mk : OpInfo → Operand → Instr) (rest : List Byte) : readOne mk w rest = readOne mk u rest := by
  rw [readOne, readOne, readOp1, readOp1, extractLsb'_eq_of_within h 5 3 (by omega) (by omega),
    extractLsb'_eq_of_within h 4 1 (by omega) (by omega),
    opInfo_eq_of_high (extractLsb'_eq_of_within h 8 8 (by omega) (by omega))]

/-- Settles O12: the instruction with an operand-1 and no operand-2 has the one-operand form. -/
theorem unusedFieldsAreIgnored : Obligations.UnusedFieldsAreIgnored := by
  refine ⟨fun w u rest h hw => decodeOpcode_of_1111 h hw rest, fun w u rest i r h hd h2 h1 => ?_, readOperand_abs⟩
  have hO := extractLsb'_eq_of_within h 11 5 (by omega) (by omega)
  obtain ⟨read, form, hread⟩ := decodeOpcode_form (Mnemonic.ofOpName (w.extractLsb' 11 5))
  rw [hread w rest rfl] at hd
  rw [hread u rest (by rw [hO])]
  cases form with
  | two parts => cases hd; cases (parts _ _ _).op2.symm.trans h2
  | one parts => rw [← readOne_eq_of_high h, hd]
  | quick parts => cases hd; exact absurd (parts _ _ _).op1 h1
  | bare parts => cases hd; exact absurd (parts _).op1 h1

/-- Settles O9: the decoder evaluated on each word's bytes. -/
theorem knownWordsDecode : Obligations.KnownWordsDecode := ⟨rfl, rfl, rfl, rfl, rfl, rfl⟩

/-! ### The opcode map and the three checks -/

/-- A size is the one its DS code names (spec/30_encoding.md R83). -/
theorem sizeOfCode_eq_some {ds : BitVec 2} {sz : Size} : Size.ofCode ds = some sz ↔ sz.code = ds := by
  revert ds; cases sz <;> decide

theorem modeAllowed_iff {allowed : List (BitVec 3)} {op : Option Operand} :
    modeAllowed allowed op = true ↔ ∀ o, op = some o → o.mode ∈ allowed := by
  cases op with
  | none => simp [modeAllowed]
  | some o => simp [modeAllowed]

/-- Settles O13: the tables are R90's and R94's by evaluation, and an opcode passes the checks when it agrees with them. -/
theorem opcodeMapIsTheSpecs : Obligations.OpcodeMapIsTheSpecs := by
  refine ⟨rfl, by decide, by decide, by decide, rfl, rfl, rfl, fun i sz => ?_⟩
  rw [Instr.check, checkOpcode_eq_ok, sizeOfCode_eq_some, modeAllowed_iff, modeAllowed_iff]

end Sys2Proof.Laws

namespace Sys2Proof.Machine

open Sys2Proof.Claims

/-! ### The order of the decode errors (decision D14) -/

theorem check_of_nbOperands_failed {i : Instr} (hp : i.nbOperandsOk = false) : i.check = .error .invalidNbOperands := by
  simp only [Instr.nbOperandsOk, beq_eq_false_iff_ne] at hp
  rw [Instr.check, checkOpcode, if_neg hp]

theorem check_of_dataSize_failed {i : Instr} (hp : i.nbOperandsOk = true) (hs : i.dataSizeOk = false) :
    i.check = .error .invalidDataSize := by
  simp only [Instr.nbOperandsOk, beq_iff_eq] at hp
  rw [Instr.check, checkOpcode, if_pos hp]
  unfold Instr.dataSizeOk at hs
  cases hc : Size.ofCode i.info.ds with
  | none => rfl
  | some sz =>
    simp only [hc, decide_eq_false_iff_not] at hs
    simp only [if_neg hs]

theorem check_of_modes_failed {i : Instr} (hp : i.nbOperandsOk = true) (hs : i.dataSizeOk = true)
    (hm : i.modesOk = false) : i.check = .error .invalidAddressingMode := by
  simp only [Instr.nbOperandsOk, beq_iff_eq] at hp
  rw [Instr.check, checkOpcode, if_pos hp]
  unfold Instr.dataSizeOk at hs
  cases hc : Size.ofCode i.info.ds with
  | none => simp [hc] at hs
  | some sz =>
    simp only [hc, decide_eq_true_eq] at hs
    rw [Instr.modesOk] at hm
    simp [if_pos hs, hm]

/-- A failed check ends the instruction with its error: only DS has been loaded (spec/60_exceptions.md R245). -/
theorem exec_of_check_error {i : Instr} {k : ErrorKind} (h : i.check = .error k) (s : State) :
    ∃ t, exec i s = .next t ∧ ErrorAction k (some i.mnemonic) (s.pc - 2) s t ∧ HostKept s t := by
  refine ⟨raiseError k (some i.mnemonic) (s.pc - 2) (s.loadDS i.info.ds), ?_,
    (Quiet.loadDS s i.info.ds).unwritten.errorAction .., rfl, rfl, rfl⟩
  rw [Instr.check] at h
  rw [exec_eq_instruction, instruction, h]
  rfl

/-- Settles O47: the first check that fails is the one `Instr.check` answers, and its error ends the instruction. -/
theorem decodeErrorsInOrder : Obligations.DecodeErrorsInOrder := fun _ s =>
  ⟨fun hp => exec_of_check_error (check_of_nbOperands_failed hp) s,
    fun hp hs => exec_of_check_error (check_of_dataSize_failed hp hs) s,
    fun hp hs hm => exec_of_check_error (check_of_modes_failed hp hs hm) s⟩

end Sys2Proof.Machine
end

/-! ## Proofs of the family `40_cycle_and_addressing`

First what later families can use too: how locating an operand and Fetch_Operands end, the bytes a step decodes, the frame of
every Execute and the two ways an instruction ends. With them Fetch_Operands (O17, O18, O48), the step (O3, O4, O5, O7), the
extension words (O60), who writes H (O52) and the frame of every instruction (O53). -/

section
namespace Sys2Proof.Machine

open Sys2Proof.Claims

/-! ### Locating an operand -/

theorem State.setA_areg (s : State) (m n : RegNo) (v : Long) :
    (s.setA m v).areg n = if m = n then v else s.areg n := by
  split
  · next h => rw [← h, State.setA_areg_same]
  · next h => exact State.setA_areg_other s (fun g => h g.symm) v

theorem Located.hostKept {s t : State} (h : Located s t) : HostKept s t := ⟨h.input, h.drawn, h.free⟩

theorem Located.raiseError_hostKept {s t : State} (h : Located s t) (k : ErrorKind) (m : Option Mnemonic) (a : Word) :
    HostKept s (raiseError k m a t) := ⟨h.input, h.drawn, h.free⟩

/-- Locating operand `k` has taken `s` to `t`: PC is past the extension word, the address registers are stepped and OpAddrk
holds the operand's address (spec/40_cycle_and_addressing.md R126 to R130). -/
structure LocatedAt (k : Slot) (sz : Size) (op : Option Operand) (s t : State) : Prop extends Located s t where
  pc : t.pc = s.pc + pastExtension op
  areg : ∀ n, t.areg n = s.areg n + stepBy sz op n
  address : AddressOf sz op s.areg (t.opAddr k)
  otherSlot : ∀ j, j ≠ k → t.opAddr j = s.opAddr j

/-- Locating an operand has failed and left `t` of `s`: only a pre-decrement's step is made
(spec/40_cycle_and_addressing.md R128, spec/60_exceptions.md R245). -/
structure LocationFailed (sz : Size) (op : Option Operand) (s t : State) : Prop extends Located s t where
  pc : t.pc = s.pc
  areg : ∀ n, t.areg n = s.areg n + failedStep sz op n

/-- Locating operand `k` ends as the registers' content decides: the operand is located, or AddressOutOfRange is raised. -/
def LocationEnds (k : Slot) (sz : Size) (op : Option Operand) (s : State) (r : Result Unit) : Prop :=
  (Locatable sz op s.areg ∧ ∃ t, r = .ok () t ∧ LocatedAt k sz op s t) ∨
  (¬ Locatable sz op s.areg ∧ ∃ t, r = .raised .addressOutOfRange t ∧ LocationFailed sz op s t)

/-- Where an operand forms an address, that address alone decides (spec/40_cycle_and_addressing.md R129, decision D6). -/
theorem locatable_iff_of_formed {sz : Size} {op : Option Operand} {A : RegNo → Long} {x : Long}
    (h : formedAddress sz op A = some x) : Locatable sz op A ↔ x.toNat ≤ Config.memTop := by
  refine ⟨fun ⟨_, _, hx⟩ => hx x h, fun hx => ⟨?_, ?_, fun y hy => ?_⟩⟩
  · rintro rfl
    cases h
  · rintro m n rfl
    cases h
  · cases h.symm.trans hy
    exact hx

/-- Where an operand forms an address, that address is the operand's. -/
theorem addressOf_of_formed {sz : Size} {op : Option Operand} {A : RegNo → Long} {x : Long}
    (h : formedAddress sz op A = some x) : AddressOf sz op A (x.extractLsb' 0 16) := by
  refine ⟨?_, fun y hy => ?_⟩
  · rintro y rfl
    cases h
  · cases h.symm.trans hy
    rfl

/-- An operand that is nowhere, or in a register, needs no locating (spec/40_cycle_and_addressing.md R130). -/
theorem locationEnds_of_no_address {k : Slot} {sz : Size} {op : Option Operand} {s : State}
    (h : ∀ o, op = some o → isReg o = true) : LocationEnds k sz op s (.ok () s) := by
  rcases op with _ | _ | _ | _ | _ | _ | _ | _ | _
  case none | some.dreg | some.areg =>
    refine .inl ⟨⟨nofun, nofun, nofun⟩, s, rfl, Located.refl s, ?_, fun n => ?_, ⟨nofun, nofun⟩, fun _ _ => rfl⟩
    · simp [pastExtension]
    · simp [stepBy]
  all_goals cases h _ rfl

/-- How locating an operand with an addressing mode ends. -/
theorem locateOpt_ends (k : Slot) (sz : Size) (op : Option Operand) (s : State)
    (hm : ∀ m n, op ≠ some (.noMode m n)) : LocationEnds k sz op s (locateOpt k sz op s) := by
  rcases op with _ | op
  · exact locationEnds_of_no_address nofun
  cases op with
  | dreg | areg => exact locationEnds_of_no_address fun | _, rfl => rfl
  | abs a =>
    refine .inl ⟨⟨nofun, nofun, nofun⟩, _, rfl, by constructor <;> simp [fetchExtension], ?_, fun n => ?_, ⟨?_, nofun⟩,
      fun j hj => ?_⟩
    · simp [fetchExtension, pastExtension]
    · simp [fetchExtension, stepBy]
    · rintro _ ⟨⟩
      simp [fetchExtension]
    · simp [fetchExtension, State.setOpAddr_other _ hj]
  | absTruncated =>
    exact .inr ⟨fun h => h.1 rfl, s, rfl, Located.refl s, rfl, fun n => by simp [failedStep]⟩
  | ind n =>
    rw [LocationEnds, locatable_iff_of_formed rfl]
    rcases captureEA_spec k (s.areg n) s with ⟨h, e⟩ | ⟨h, e⟩ <;> simp only [locateOpt, locate, e]
    · refine .inl ⟨h, _, rfl, by constructor <;> simp, ?_, fun m => ?_, ?_, fun j hj => State.setOpAddr_other s hj _⟩
      · simp [pastExtension]
      · simp [stepBy]
      · rw [State.setOpAddr_same]
        exact addressOf_of_formed rfl
    · exact .inr ⟨by omega, s, rfl, Located.refl s, rfl, fun m => by simp [failedStep]⟩
  | postInc n =>
    rw [LocationEnds, locatable_iff_of_formed rfl]
    rcases captureEA_spec k (s.areg n) s with ⟨h, e⟩ | ⟨h, e⟩ <;> simp only [locateOpt, locate, e, Result.andThen]
    · refine .inl ⟨h, _, rfl, by constructor <;> simp, ?_, fun m => ?_, ?_, fun j hj => ?_⟩
      · simp [pastExtension]
      · by_cases hn : n = m
        · simp [stepBy, stepOf, hn]
        · simp [State.setA_areg, stepBy, hn]
      · rw [State.setA_opAddr, State.setOpAddr_same]
        exact addressOf_of_formed rfl
      · rw [State.setA_opAddr, State.setOpAddr_other s hj]
    · exact .inr ⟨by omega, s, rfl, Located.refl s, rfl, fun m => by simp [failedStep]⟩
  | preDec n =>
    have step (m : RegNo) : (s.setA n (s.areg n - stepOf sz)).areg m = s.areg m + failedStep sz (some (.preDec n)) m := by
      by_cases hn : n = m
      · simp [failedStep, stepOf, hn, BitVec.sub_eq_add_neg]
      · simp [State.setA_areg, failedStep, hn]
    rw [LocationEnds, locatable_iff_of_formed rfl]
    rcases captureEA_spec k ((s.setA n (s.areg n - stepOf sz)).areg n) (s.setA n (s.areg n - stepOf sz)) with
      ⟨h, e⟩ | ⟨h, e⟩ <;> simp only [locateOpt, locate, e] <;> rw [State.setA_areg_same] at h
    · refine .inl ⟨h, _, rfl, by constructor <;> simp, ?_, fun m => ?_, ?_, fun j hj => ?_⟩
      · simp [pastExtension]
      · rw [State.setOpAddr_areg, step]
        rfl
      · rw [State.setOpAddr_same, State.setA_areg_same]
        exact addressOf_of_formed rfl
      · rw [State.setOpAddr_other _ hj, State.setA_opAddr]
    · exact .inr ⟨by simpa [stepOf] using h, _, rfl, by constructor <;> simp, by simp, step⟩
  | noMode m n => exact absurd rfl (hm m n)

/-- A quiet change before an operand is located makes no difference. -/
theorem LocationEnds.of_quiet {k : Slot} {sz : Size} {op : Option Operand} {s u : State} {r : Result Unit} (q : Quiet s u)
    (h : LocationEnds k sz op u r) : LocationEnds k sz op s r := by
  have hareg : u.areg = s.areg := funext q.areg
  have hl : Located s u := ⟨q.dreg, q.status, q.mem, q.trace, q.input, q.drawn, q.free⟩
  rw [LocationEnds, ← hareg]
  rcases h with ⟨hl1, t, rfl, h⟩ | ⟨hl1, t, rfl, h⟩
  · exact .inl ⟨hl1, t, rfl, hl.trans h.toLocated, q.pc ▸ h.pc, hareg ▸ h.areg, hareg ▸ h.address,
      fun j hj => (h.otherSlot j hj).trans (q.opAddr j)⟩
  · exact .inr ⟨hl1, t, rfl, hl.trans h.toLocated, q.pc ▸ h.pc, hareg ▸ h.areg⟩

/-! ### Fetch_Operands -/

/-- No instruction allows a mode value that names no addressing mode (spec/30_encoding.md R84, R94). -/
theorem allowedModes_spec (m : Mnemonic) :
    (0b010 ∉ m.allowedModes1 ∧ 0b101 ∉ m.allowedModes1) ∧ 0b010 ∉ m.allowedModes2 ∧ 0b101 ∉ m.allowedModes2 := by
  cases m <;> decide

theorem ne_noMode_of_modeAllowed {allowed : List (BitVec 3)} {op : Option Operand}
    (h : modeAllowed allowed op = true) (hm : 0b010 ∉ allowed ∧ 0b101 ∉ allowed) (m : NoMode) (n : RegNo) :
    op ≠ some (.noMode m n) := by
  rintro rfl
  have := of_decide_eq_true h
  cases m with
  | m010 => exact hm.1 this
  | m101 => exact hm.2 this

/-- How Fetch_Operands of a valid opcode ends, in the order of its two operands (spec/40_cycle_and_addressing.md R124). -/
theorem fetchOperands_ends {i : Instr} {sz : Size} (hc : i.check = .ok sz) (s : State) :
    (Locatable sz i.op1 s.areg ∧ ∃ t, LocatedAt .first sz i.op1 s t ∧ Locatable sz i.op2 t.areg ∧
      ∃ e, fetchOperands sz i.op1 i.op2 (s.loadDS i.info.ds) = .ok () e ∧ LocatedAt .second sz i.op2 t e) ∨
    (¬ Locatable sz i.op1 s.areg ∧ ∃ u,
      fetchOperands sz i.op1 i.op2 (s.loadDS i.info.ds) = .raised .addressOutOfRange u ∧ LocationFailed sz i.op1 s u) ∨
    (Locatable sz i.op1 s.areg ∧ ∃ t, LocatedAt .first sz i.op1 s t ∧ ¬ Locatable sz i.op2 t.areg ∧ ∃ u,
      fetchOperands sz i.op1 i.op2 (s.loadDS i.info.ds) = .raised .addressOutOfRange u ∧ LocationFailed sz i.op2 t u) := by
  obtain ⟨_, _, _, hm1, hm2⟩ := checkOpcode_eq_ok.1 hc
  obtain ⟨hn1, hn2⟩ := allowedModes_spec i.mnemonic
  have first : LocationEnds .first sz i.op1 s (locateOpt .first sz i.op1 (s.loadDS i.info.ds)) :=
    (locateOpt_ends _ _ _ _ (ne_noMode_of_modeAllowed hm1 hn1)).of_quiet (Quiet.loadDS ..)
  have second (t : State) : LocationEnds .second sz i.op2 t (locateOpt .second sz i.op2 t) :=
    locateOpt_ends _ _ _ _ (ne_noMode_of_modeAllowed hm2 hn2)
  unfold fetchOperands
  rcases first with ⟨h1, t, e1, ht⟩ | ⟨h1, u, e1, hu⟩ <;> rw [e1]
  · rcases second t with ⟨h2, e, e2, he⟩ | ⟨h2, u, e2, hu⟩
    · exact .inl ⟨h1, t, ht, h2, e, e2, he⟩
    · exact .inr (.inr ⟨h1, t, ht, h2, u, e2, hu⟩)
  · exact .inr (.inl ⟨h1, u, rfl, hu⟩)

/-- An operand that was located moves PC by what it adds to the instruction's length (spec/30_encoding.md R96). -/
theorem pastExtension_eq_extBytes {sz : Size} {op : Option Operand} {A : RegNo → Long} (h : Locatable sz op A) :
    pastExtension op = BitVec.ofNat 16 (extBytes op) := by
  rcases op with _ | _ | _ | _ | _ | _ | _ | _ | ⟨_ | _, _⟩
  case some.absTruncated => exact absurd rfl h.1
  all_goals rfl

/-- An operand that cannot be located has had no extension word fetched (spec/40_cycle_and_addressing.md R127). -/
theorem pastExtension_of_not_locatable {sz : Size} {op : Option Operand} {A : RegNo → Long} (h : ¬ Locatable sz op A) :
    pastExtension op = 0 := by
  rcases op with _ | _ | _ | _ | _ | _ | _ | _ | _
  case some.abs => exact absurd ⟨nofun, nofun, nofun⟩ h
  all_goals rfl

/-- Settles O17: what locating operand-1 leaves, and then operand-2, put together. -/
theorem fetchOperandsEffect : Obligations.FetchOperandsEffect := by
  intro i sz s e ⟨hc, hf⟩
  rcases fetchOperands_ends hc s with ⟨h1, t, ht, h2, e', he', h⟩ | ⟨_, u, hu, _⟩ | ⟨_, _, _, _, u, hu, _⟩
  · cases hf.symm.trans he'
    have hl := ht.toLocated.trans h.toLocated
    have hpc : e.pc = s.pc - 2 + BitVec.ofNat 16 i.length := by
      rw [h.pc, ht.pc, pastExtension_eq_extBytes h1, pastExtension_eq_extBytes h2, Instr.length, BitVec.ofNat_add,
        BitVec.ofNat_add, ← BitVec.add_assoc, ← BitVec.add_assoc, show s.pc - 2 + BitVec.ofNat 16 2 = s.pc from
          BitVec.sub_add_cancel ..]
    refine ⟨hl.dreg, hl.mem, hl.status, hl.trace, hl.hostKept, hpc, fun n => by rw [h.areg, ht.areg], ?_, ?_⟩
    · rw [h.otherSlot .first nofun]
      exact ht.address
    · rw [← funext ht.areg]
      exact h.address
  · cases hf.symm.trans hu
  · cases hf.symm.trans hu

/-- Settles O18: Fetch_Operands ends as the registers' content decides, for operand-1 and then for operand-2. -/
theorem fetchOperandsSucceedsIff : Obligations.FetchOperandsSucceedsIff := by
  intro i sz s hc
  rcases fetchOperands_ends hc s with ⟨h1, t, ht, h2, e, he, _⟩ | ⟨h1, u, hu, _⟩ | ⟨h1, t, ht, h2, u, hu, _⟩
  · rw [funext ht.areg] at h2
    exact iff_of_true ⟨e, hc, he⟩ ⟨h1, h2⟩
  · exact iff_of_false (fun ⟨_, h⟩ => nomatch hu.symm.trans h.located) fun h => h1 h.1
  · rw [funext ht.areg] at h2
    exact iff_of_false (fun ⟨_, h⟩ => nomatch hu.symm.trans h.located) fun h => h2 h.2

/-- An error of Fetch_Operands ends the instruction with the error action (spec/60_exceptions.md R245). -/
theorem exec_of_fetchOperands_raised {i : Instr} {sz : Size} {s u : State} {k : ErrorKind} (hc : i.check = .ok sz)
    (hf : fetchOperands sz i.op1 i.op2 (s.loadDS i.info.ds) = .raised k u) :
    exec i s = .next (raiseError k (some i.mnemonic) (s.pc - 2) u) := by
  rw [Instr.check] at hc
  simp only [exec_eq_instruction, instruction, hc, hf]
  rfl

/-- Settles O48: operand-1's failure, or operand-2's after operand-1 was located, and the error action. -/
theorem locationErrorsEndTheInstruction : Obligations.LocationErrorsEndTheInstruction := by
  intro i sz s k u hc hf
  have hx := exec_of_fetchOperands_raised hc hf
  rcases fetchOperands_ends hc s with ⟨_, _, _, _, e, he, _⟩ | ⟨h1, v, hv, hu⟩ | ⟨h1, t, ht, h2, v, hv, hu⟩
  · cases hf.symm.trans he
  · cases hf.symm.trans hv
    exact ⟨rfl, hu.dreg, hu.mem, hu.status, hu.trace, .inl ⟨h1, hu.pc, hu.areg⟩, _, hx, raiseError_errorAction ..,
      hu.raiseError_hostKept ..⟩
  · cases hf.symm.trans hv
    have hl := ht.toLocated.trans hu.toLocated
    rw [funext ht.areg] at h2
    exact ⟨rfl, hl.dreg, hl.mem, hl.status, hl.trace,
      .inr ⟨h1, h2, hu.pc.trans ht.pc, fun n => by rw [hu.areg, ht.areg]⟩, _, hx, raiseError_errorAction ..,
      hl.raiseError_hostKept ..⟩

end Sys2Proof.Machine
end

section
namespace Sys2Proof.Machine

open Sys2Proof.Claims Sys2Proof.Laws

/-! ### A step answers -/

theorem Result.finish_eq_next (m : Mnemonic) (a : Word) (r : Result Unit) : ∃ t, r.finish m a = .next t := by
  cases r with
  | ok _ s => exact ⟨s, rfl⟩
  | raised k s => exact ⟨_, rfl⟩

/-- Settles O4: each of the three ways an instruction ends is a next state. -/
theorem everyInstructionHasANextState : Obligations.EveryInstructionHasANextState := by
  intro i s
  rw [exec_eq_instruction]
  rcases instruction_spec i.mnemonic i.info i.op1 i.op2 (execute i) s with
    ⟨_, _, e⟩ | ⟨_, _, _, _, _, e⟩ | ⟨_, _, _, _, e⟩ <;> rw [e]
  · exact ⟨_, rfl⟩
  · exact ⟨_, rfl⟩
  · exact Result.finish_eq_next ..

theorem step_of_halted {s : State} (h : s.status.h = true) : step s = .fault .halted := by
  simp [step, h]

/-- A step whose opcode word is in memory runs the decoded instruction (spec/40_cycle_and_addressing.md R121). -/
theorem step_of_decode {s : State} {i : Instr} {rest : List Byte} (h : s.status.h = false)
    (hd : decode (codeBytes s) = .ok (i, rest)) : step s = exec i (fetchOpCode s) := by
  simp [step, h, hd]

/-- Settles O3: the opcode fetch raises or the decoded instruction has a next state. -/
theorem stepAnswersUnlessHalted : Obligations.StepAnswersUnlessHalted := by
  refine fun s => ⟨step_of_halted, fun h => ?_⟩
  cases hd : decode (codeBytes s) with
  | error r =>
    cases r
    exact ⟨_, step_eq_next.2 ⟨h, .inl ⟨hd, rfl⟩⟩⟩
  | ok p =>
    rw [step_of_decode h hd]
    exact everyInstructionHasANextState ..

/-! ### The bytes a step decodes -/

theorem codeBytes_getElem? (s : State) {k : Nat} (h : k < (codeBytes s).length) :
    (codeBytes s)[k]? = some (s.byteAt (s.pc.toNat + k)) := by
  rw [codeBytes_length] at h
  simp [codeBytes_eq, List.getElem?_range h]

/-- Settles O5: Fetch_OpCode writes PC and internal registers, OpCode among them. -/
theorem stepRunsTheDecodedInstruction : Obligations.StepRunsTheDecodedInstruction :=
  ⟨fun s => ⟨codeBytes_length s, fun _ => codeBytes_getElem? s⟩,
    fun _ _ _ h hd => ⟨step_of_decode h hd, rfl, rfl, rfl⟩⟩

/-- Where code fits in memory, the host's placement of it is a write of its bytes. -/
theorem storeCode_eq_writeBytes (m : Memory) (a : Nat) (bs : List Byte) (h : a + bs.length ≤ Config.memTop + 1) :
    storeCode m a bs = Memory.writeBytes m a bs := by
  induction bs generalizing m a with
  | nil => rfl
  | cons b bs ih =>
    rw [List.length_cons] at h
    rw [storeCode, Memory.writeBytes, if_pos (by omega), ih _ _ (by omega)]

/-- The bytes placed by `withFetchWord` are the ones the next step decodes (log 4). -/
theorem codeBytes_withFetchWord {s : State} (hm : s.mem.wf) (hpc : s.pc.toNat ≤ 0x0FFB) (nbits w : Nat) :
    codeBytes (s.withFetchWord nbits w) = tableBytes nbits w := by
  have fits : s.pc.toNat + 6 ≤ Config.memTop + 1 := by
    rw [Config.memTop]
    omega
  have hlen : (codeBytes (s.withFetchWord nbits w)).length = 6 := by
    rw [codeBytes_length]
    exact Nat.min_eq_left (Nat.le_sub_of_add_le (Nat.add_comm _ _ ▸ fits))
  refine List.ext_getElem hlen fun k hk hk' => ?_
  have placed := Memory.read_writeBytes_same hm.1 s.pc.toNat (tableBytes nbits w) k hk'
  rw [← storeCode_eq_writeBytes _ _ _ fits] at placed
  rw [← placed]
  exact Option.some.inj ((List.getElem?_eq_getElem hk).symm.trans (codeBytes_getElem? _ hk))

/-- Settles O7: the step decodes the placed bytes. -/
theorem fetchWordRuns : Obligations.FetchWordRuns := by
  intro s nbits w i hh hm hpc hi
  unfold decodeTableWord at hi
  split at hi
  · next hd =>
    cases hi
    exact step_of_decode hh ((codeBytes_withFetchWord hm hpc nbits w).symm ▸ hd)
  · cases hi

/-! ### Extension words -/

/-- `bs` begins with the word at address `a`, as far as that is wholly in memory. -/
def BeginsWithWordAt (s : State) (a : Nat) (bs : List Byte) : Prop :=
  (a + 1 ≤ Config.memTop ∧ ∃ rest, bs = s.byteAt a :: s.byteAt (a + 1) :: rest) ∨ (Config.memTop < a + 1 ∧ bs.length < 2)

/-- The bytes of memory from address `a` on, `n` at most, as far as memory goes (spec/20_memory.md R56). -/
def bytesFrom (s : State) (a n : Nat) : List Byte :=
  (List.range (min n (Config.memTop + 1 - a))).map fun k => s.byteAt (a + k)

theorem codeBytes_eq_bytesFrom (s : State) : codeBytes s = bytesFrom s s.pc.toNat 6 := codeBytes_eq s

theorem bytesFrom_succ (s : State) {a : Nat} (n : Nat) (h : a ≤ Config.memTop) :
    bytesFrom s a (n + 1) = s.byteAt a :: bytesFrom s (a + 1) n := by
  rw [bytesFrom, bytesFrom, show min (n + 1) (Config.memTop + 1 - a) = min n (Config.memTop + 1 - (a + 1)) + 1 by omega,
    List.range_succ_eq_map, List.map_cons, List.map_map]
  congr 2
  funext k
  exact congrArg s.byteAt (by simp; omega)

theorem bytesFrom_length (s : State) (a n : Nat) : (bytesFrom s a n).length = min n (Config.memTop + 1 - a) := by
  simp [bytesFrom]

theorem bytesFrom_two (s : State) {a : Nat} (n : Nat) (h : a + 1 ≤ Config.memTop) :
    bytesFrom s a (n + 2) = s.byteAt a :: s.byteAt (a + 1) :: bytesFrom s (a + 2) n := by
  rw [bytesFrom_succ s (n + 1) (by omega), bytesFrom_succ s n h]

theorem bytesFrom_beginsWithWordAt (s : State) (a n : Nat) : BeginsWithWordAt s a (bytesFrom s a (n + 2)) := by
  by_cases h : a + 1 ≤ Config.memTop
  · exact .inl ⟨h, _, bytesFrom_two s n h⟩
  · exact .inr ⟨by omega, by rw [bytesFrom_length]; omega⟩

/-- Mode 011 takes the word the bytes begin with (spec/30_encoding.md R86). -/
theorem readOperand_extensionAt {s : State} {a : Nat} {bs : List Byte} (h : BeginsWithWordAt s a bs) (m : BitVec 3)
    (n : BitVec 1) (hm : (readOperand m n bs).1.mode = 0b011) : (readOperand m n bs).1 = extensionAt s a := by
  rw [(readOperand_fields m n bs).1] at hm
  subst hm
  rcases h with ⟨ha, rest, rfl⟩ | ⟨ha, hl⟩
  · exact (if_pos ha).symm
  · refine Eq.trans ?_ (if_neg (Nat.not_le.2 ha)).symm
    match bs with
    | [] => rfl
    | [_] => rfl

/-- A mode other than 011 takes no bytes (spec/30_encoding.md R86). -/
theorem readOperand_rest_of_ne {m : BitVec 3} (hm : m ≠ 0b011) (n : BitVec 1) (bs : List Byte) :
    (readOperand m n bs).2 = bs := by
  unfold readOperand
  split
  case h_4 h => exact absurd (BitVec.eq_of_toNat_eq h) hm
  all_goals rfl

theorem readOperand_extBytes (m : BitVec 3) (n : BitVec 1) (bs : List Byte) :
    extBytes (some (readOperand m n bs).1) = if m = 0b011 then 2 else 0 := by
  rw [extBytes, (readOperand_fields m n bs).1]

/-- What operand-1 leaves of the bytes begins with the word past operand-1's extension word. -/
theorem readOperand_rest_beginsWithWordAt (s : State) (a k : Nat) (m : BitVec 3) (n : BitVec 1) :
    BeginsWithWordAt s (a + extBytes (some (readOperand m n (bytesFrom s a (k + 4))).1))
      (readOperand m n (bytesFrom s a (k + 4))).2 := by
  rw [readOperand_extBytes]
  by_cases hm : m = 0b011
  · subst hm
    rw [if_pos rfl]
    rcases bytesFrom_beginsWithWordAt s a (k + 2) with ⟨ha, -⟩ | ⟨ha, hl⟩
    · rw [bytesFrom_two s (k + 2) ha]
      exact bytesFrom_beginsWithWordAt s (a + 2) k
    · refine .inr ⟨by omega, ?_⟩
      match bytesFrom s a (k + 2 + 2), hl with
      | [], _ => exact Nat.zero_lt_two
      | [_], _ => exact Nat.one_lt_two
  · rw [if_neg hm, readOperand_rest_of_ne hm]
    exact bytesFrom_beginsWithWordAt s a (k + 2)

/-- The decoder reads each operand of mode 011 from its place in memory (spec/40_cycle_and_addressing.md R127,
decision D3). -/
theorem decode_extensionAt {s : State} {i : Instr} {rest : List Byte} (h : decode (codeBytes s) = .ok (i, rest)) :
    (∀ op, i.op1 = some op → op.mode = 0b011 → op = extensionAt s (s.pc.toNat + 2)) ∧
    (∀ op, i.op2 = some op → op.mode = 0b011 → op = extensionAt s (s.pc.toNat + 2 + extBytes i.op1)) := by
  have hpc : s.pc.toNat + 1 ≤ Config.memTop := by
    by_contra hpc
    rw [decode_of_lt_two (by rw [codeBytes_length]; omega)] at h
    cases h
  rw [codeBytes_eq_bytesFrom, bytesFrom_two s 4 hpc, decode] at h
  have here := bytesFrom_beginsWithWordAt s (s.pc.toNat + 2) 2
  have past := readOperand_rest_beginsWithWordAt s (s.pc.toNat + 2) 0
  generalize s.byteAt s.pc.toNat ++ s.byteAt (s.pc.toNat + 1) = w at h
  obtain ⟨read, form, hread⟩ := decodeOpcode_form (Mnemonic.ofOpName (w.extractLsb' 11 5))
  rw [hread w _ rfl] at h
  cases form with
  | two parts =>
    cases h
    rw [(parts ..).op1, (parts ..).op2]
    exact ⟨fun | _, rfl => readOperand_extensionAt here _ _, fun | _, rfl => readOperand_extensionAt (past _ _) _ _⟩
  | one parts =>
    cases h
    rw [(parts ..).op1, (parts ..).op2]
    exact ⟨fun | _, rfl => readOperand_extensionAt here _ _, nofun⟩
  | quick parts =>
    cases h
    rw [(parts ..).op1, (parts ..).op2]
    exact ⟨nofun, fun | _, rfl => readOperand_extensionAt here _ _⟩
  | bare parts =>
    cases h
    rw [(parts ..).op1, (parts ..).op2]
    exact ⟨nofun, nofun⟩

/-- An instruction with an operand whose extension word lies beyond memory raises in Fetch_Operands, and PC is past the words
fetched so far (spec/60_exceptions.md R245, decision D5). -/
theorem exec_of_absTruncated {i : Instr} {sz : Size} (hc : i.check = .ok sz) (s : State)
    (ht : i.op1 = some .absTruncated ∨ i.op2 = some .absTruncated) :
    ∃ u, exec i s = .next (raiseError .addressOutOfRange (some i.mnemonic) (s.pc - 2) u) ∧ Located s u ∧
      u.pc = s.pc + pastExtension i.op1 := by
  rcases fetchOperands_ends hc s with ⟨h1, _, _, h2, _⟩ | ⟨h1, u, hu, h⟩ | ⟨_, t, hl, _, u, hu, h⟩
  · exact absurd ht (not_or.2 ⟨h1.1, h2.1⟩)
  · refine ⟨u, exec_of_fetchOperands_raised hc hu, h.toLocated, ?_⟩
    rw [h.pc, pastExtension_of_not_locatable h1]
    exact (BitVec.add_zero _).symm
  · exact ⟨u, exec_of_fetchOperands_raised hc hu, hl.toLocated.trans h.toLocated, h.pc.trans hl.pc⟩

/-- Settles O60: where the decoder reads the extension words, and how Fetch_Operands fails without one. -/
theorem extensionWordFetch : Obligations.ExtensionWordFetch := by
  intro s i rest hh hd
  obtain ⟨h1, h2⟩ := decode_extensionAt hd
  refine ⟨h1, h2, fun sz hc ht => ?_⟩
  obtain ⟨u, hx, hl, hpc⟩ := exec_of_absTruncated hc (fetchOpCode s) ht
  have back : (fetchOpCode s).pc - 2 = s.pc := BitVec.add_sub_cancel ..
  rw [back] at hx
  refine ⟨_, (step_of_decode hh hd).trans hx, ?_, rfl, hpc, ?_, hl.dreg, hl.mem, hl.input, hl.drawn, hl.free⟩
  · rw [raiseError_trace, hl.trace]
    rfl
  · constructor <;> simp [hl.status, fetchOpCode]

end Sys2Proof.Machine
end

section
namespace Sys2Proof.Machine

open Sys2Proof.Claims

/-! ### The frame of Execute -/

/-- The instruction sets all four flags (spec/30_encoding.md R90); EXG sets V and C alone. -/
def setsFlags (i : Instr) : Bool := !leavesFlags i && i.mnemonic != .EXG

/-- `t` is what Execute of `i` may make of `s`: registers and memory change only in the destinations of `i`, with the
addresses `s` holds for them, and each other part of the state only where `i` is an instruction that changes it. -/
structure ExecuteFrame (i : Instr) (sz : Size) (s t : State) : Prop where
  opAddr : ∀ k, t.opAddr k = s.opAddr k
  dreg : ∀ n, (∀ x ∈ destinations i sz, x.2.2 ≠ .dreg n) → t.dreg n = s.dreg n
  areg : ∀ n, (∀ x ∈ destinations i sz, x.2.2 ≠ .areg n) → t.areg n = s.areg n
  wf : s.mem.wf → t.mem.wf
  byteAt : s.mem.wf → ∀ x, (∀ y ∈ destinations i sz, isReg y.2.2 = true ∨ x < (s.opAddr y.1).toNat ∨
    (s.opAddr y.1).toNat + y.2.1.bytes ≤ x) → t.byteAt x = s.byteAt x
  flags : leavesFlags i = true → FlagsKept s t
  nz : i.mnemonic = .EXG → t.status.n = s.status.n ∧ t.status.z = s.status.z
  h : i.mnemonic ≠ .HLT → t.status.h = s.status.h
  trace : i.mnemonic ≠ .DSP → i.mnemonic ≠ .DSR → t.trace = s.trace
  draws : i.mnemonic ≠ .INP → t.input = s.input ∧ t.drawn = s.drawn
  free : i.mnemonic ≠ .DIVS → t.free = s.free

section
variable {i : Instr} {sz : Size} {s t u : State}

theorem ExecuteFrame.trans (h : ExecuteFrame i sz s t) (g : ExecuteFrame i sz t u) : ExecuteFrame i sz s u where
  opAddr k := (g.opAddr k).trans (h.opAddr k)
  dreg n hn := (g.dreg n hn).trans (h.dreg n hn)
  areg n hn := (g.areg n hn).trans (h.areg n hn)
  wf hm := g.wf (h.wf hm)
  byteAt hm x hx := (g.byteAt (h.wf hm) x (by simpa only [h.opAddr] using hx)).trans (h.byteAt hm x hx)
  flags hl :=
    have hst := h.flags hl
    have htu := g.flags hl
    ⟨htu.n.trans hst.n, htu.z.trans hst.z, htu.v.trans hst.v, htu.c.trans hst.c⟩
  nz hi := ⟨(g.nz hi).1.trans (h.nz hi).1, (g.nz hi).2.trans (h.nz hi).2⟩
  h hi := (g.h hi).trans (h.h hi)
  trace h1 h2 := (g.trace h1 h2).trans (h.trace h1 h2)
  draws hi := ⟨(g.draws hi).1.trans (h.draws hi).1, (g.draws hi).2.trans (h.draws hi).2⟩
  free hi := (g.free hi).trans (h.free hi)

/-! #### The updates an Execute is made of -/

theorem Quiet.executeFrame (q : Quiet s t) : ExecuteFrame i sz s t where
  opAddr := q.opAddr
  dreg n _ := q.dreg n
  areg n _ := q.areg n
  wf hm := q.mem ▸ hm
  byteAt _ x _ := q.byteAt x
  flags _ := by constructor <;> rw [q.status]
  nz _ := by rw [q.status]; exact ⟨rfl, rfl⟩
  h _ := by rw [q.status]
  trace _ _ := q.trace
  draws _ := ⟨q.input, q.drawn⟩
  free _ := q.free

/-- A store to one of the destinations. -/
theorem Stored.executeFrame {k : Slot} {z : Size} {op : Operand} {v : BitVec z.bits} (h : Stored k z op v s t)
    (hd : (k, z, op) ∈ destinations i sz) : ExecuteFrame i sz s t where
  opAddr := h.opAddr
  dreg _ hn := h.dreg_other (hn _ hd)
  areg _ hn := h.areg_other (hn _ hd)
  wf hm := h.wf hm
  byteAt hm _ hx := h.byteAt_other hm.1 (hx _ hd)
  flags _ := by constructor <;> rw [h.status]
  nz _ := by rw [h.status]; exact ⟨rfl, rfl⟩
  h _ := by rw [h.status]
  trace _ _ := h.trace
  draws _ := ⟨h.input, h.drawn⟩
  free _ := h.free

theorem setNZVC_executeFrame (h : setsFlags i = true) (n z v c : Bool) :
    ExecuteFrame i sz s (s.setNZVC n z v c) := by
  obtain ⟨hl, hx⟩ : leavesFlags i = false ∧ i.mnemonic ≠ .EXG := by simpa [setsFlags] using h
  exact { (Quiet.refl s).executeFrame with
    flags := fun h => by simp [hl] at h
    nz := fun h => absurd h hx }

/-- EXG's update of the flags: N and Z as they were (spec/46_transfer.md R222). -/
theorem setVC_executeFrame (h : leavesFlags i = false) (v c : Bool) :
    ExecuteFrame i sz s (s.setNZVC s.status.n s.status.z v c) :=
  { (Quiet.refl s).executeFrame with flags := fun hl => by simp [h] at hl }

theorem setPC_executeFrame (v : Word) : ExecuteFrame i sz s (s.setPC v) :=
  { (Quiet.refl s).executeFrame with flags := fun _ => ⟨rfl, rfl, rfl, rfl⟩ }

theorem setH_executeFrame (h : i.mnemonic = .HLT) : ExecuteFrame i sz s s.setH :=
  { (Quiet.refl s).executeFrame with
    flags := fun _ => ⟨rfl, rfl, rfl, rfl⟩
    h := fun hn => absurd h hn }

theorem emit_executeFrame (h : i.mnemonic = .DSP ∨ i.mnemonic = .DSR) (e : Event) : ExecuteFrame i sz s (s.emit e) :=
  { (Quiet.refl s).executeFrame with
    flags := fun _ => ⟨rfl, rfl, rfl, rfl⟩
    trace := fun h1 h2 => absurd h (not_or.2 ⟨h1, h2⟩) }

theorem dropDraw_executeFrame (h : i.mnemonic = .INP) : ExecuteFrame i sz s s.dropDraw :=
  { (Quiet.refl s).executeFrame with
    flags := fun _ => ⟨rfl, rfl, rfl, rfl⟩
    draws := fun hn => absurd h hn }

theorem bumpFree_executeFrame (h : i.mnemonic = .DIVS) : ExecuteFrame i sz s s.bumpFree :=
  { (Quiet.refl s).executeFrame with
    flags := fun _ => ⟨rfl, rfl, rfl, rfl⟩
    free := fun hn => absurd h hn }

/-! #### The parts of an Execute, after changes that lead from `s` to `u` -/

theorem andThen_executeFrame {α β : Type} {r : Result α} {f : α → State → Result β} (hr : ExecuteFrame i sz s r.state)
    (hf : ∀ a t, ExecuteFrame i sz s t → ExecuteFrame i sz s (f a t).state) :
    ExecuteFrame i sz s (r.andThen f).state := by
  cases r with
  | ok a t => exact hf a t hr
  | raised k t => exact hr

theorem readSource_executeFrame (h : ExecuteFrame i sz s u) (k : Slot) (z : Size) (op : Operand) :
    ExecuteFrame i sz s (readSource k z op u).state := by
  rcases readSource_spec k z op u with ⟨_, t, e, q⟩ | ⟨_, e⟩ <;> rw [e]
  · exact h.trans q.executeFrame
  · exact h

theorem readDest_executeFrame (h : ExecuteFrame i sz s u) (k : Slot) (z : Size) (op : Operand) :
    ExecuteFrame i sz s (readDest k z op u).state := by
  rcases readDest_spec k z op u with ⟨_, t, e, q⟩ | ⟨_, e⟩ <;> rw [e]
  · exact h.trans q.executeFrame
  · exact h

theorem writeOp_executeFrame (h : ExecuteFrame i sz s u) {k : Slot} {z : Size} {op : Operand}
    (hd : (k, z, op) ∈ destinations i sz) (v : BitVec z.bits) : ExecuteFrame i sz s (writeOp k z op v u).state := by
  rcases writeOp_spec k z op v u with ⟨_, t, e, hs⟩ | ⟨_, e⟩ <;> rw [e]
  · exact h.trans (hs.executeFrame hd)
  · exact h

theorem storeResult_executeFrame (h : ExecuteFrame i sz s u) {k : Slot} {z : Size} {op : Operand}
    (hd : (k, z, op) ∈ destinations i sz) (hf : setsFlags i = true) (o : AluOut z.bits) :
    ExecuteFrame i sz s (storeResult k z op o u).state :=
  andThen_executeFrame (writeOp_executeFrame (h.trans (Quiet.fillR ..).executeFrame) hd o.r) fun _ _ ht =>
    ht.trans (setNZVC_executeFrame hf ..)

/-- `D <- ReadOp(k)`, then a result stored there. -/
theorem modify_executeFrame (h : ExecuteFrame i sz s u) {k : Slot} {z : Size} {op : Operand}
    (hd : (k, z, op) ∈ destinations i sz) (hf : setsFlags i = true)
    (f : BitVec z.bits → AluOut z.bits) :
    ExecuteFrame i sz s ((readDest k z op u).andThen fun dv t => storeResult k z op (f dv) t).state :=
  andThen_executeFrame (readDest_executeFrame h k z op) fun _ _ ht => storeResult_executeFrame ht hd hf _

end

/-- Execute of a valid instruction stays within its frame, however it ends. -/
theorem execute_frame {i : Instr} {sz : Size} (hc : i.check = .ok sz) (s : State) :
    ExecuteFrame i sz s (execute i sz s).state := by
  have start {i : Instr} {sz : Size} : ExecuteFrame i sz s s := (Quiet.refl s).executeFrame
  obtain ⟨_, _, hsz, _, _⟩ := checkOpcode_eq_ok.1 hc
  cases i with
  | add _ src dst | sub _ src dst | and _ src dst | or _ src dst | eor _ src dst =>
    exact andThen_executeFrame (readSource_executeFrame start ..) fun _ _ ht =>
      modify_executeFrame ht (List.mem_singleton_self _) rfl _
  | addq _ data dst | subq _ data dst =>
    exact modify_executeFrame (Quiet.fillS ..).executeFrame (List.mem_singleton_self _) rfl _
  | asl _ data dst | asr _ data dst | rol _ data dst | ror _ data dst =>
    exact modify_executeFrame start (List.mem_singleton_self _) rfl _
  | neg _ dst | not _ dst => exact modify_executeFrame start (List.mem_singleton_self _) rfl _
  | muls _ src dst =>
    exact andThen_executeFrame (readSource_executeFrame start ..) fun _ _ ht =>
      andThen_executeFrame (readDest_executeFrame ht ..) fun _ _ hu =>
        storeResult_executeFrame hu (List.mem_singleton_self _) rfl _
  | divs _ src dst =>
    obtain rfl : sz = .l := by simpa [Instr.mnemonic, Mnemonic.allowedSizes] using hsz
    refine andThen_executeFrame (readSource_executeFrame start ..) fun _ _ ht =>
      andThen_executeFrame (readDest_executeFrame ht ..) fun _ u hu => ?_
    dsimp only
    split
    · exact hu
    · split
      · exact andThen_executeFrame
          (writeOp_executeFrame (hu.trans (Quiet.fillR ..).executeFrame) (List.mem_singleton_self _) _)
          fun _ _ hv => (hv.trans (setNZVC_executeFrame rfl ..)).trans (bumpFree_executeFrame rfl)
      · exact storeResult_executeFrame hu (List.mem_singleton_self _) rfl _
  | clr _ dst => exact storeResult_executeFrame start (List.mem_singleton_self _) rfl _
  | cmp _ src dst =>
    exact andThen_executeFrame (readSource_executeFrame start ..) fun _ _ ht =>
      andThen_executeFrame (readDest_executeFrame ht ..) fun _ _ hu =>
        (hu.trans (Quiet.fillR ..).executeFrame).trans (setNZVC_executeFrame rfl ..)
  | tst _ dst =>
    exact andThen_executeFrame (readDest_executeFrame start ..) fun _ _ ht =>
      ht.trans (setNZVC_executeFrame rfl ..)
  | bra | bvs | beq | bcs | bge | ble =>
    rw [execute, runBranch_spec]
    exact setPC_executeFrame _
  | move _ src dst =>
    exact andThen_executeFrame (readSource_executeFrame start ..) fun _ _ ht =>
      storeResult_executeFrame ht (List.mem_singleton_self _) rfl _
  | moveq _ data dst =>
    exact storeResult_executeFrame (Quiet.fillS ..).executeFrame (List.mem_singleton_self _) rfl _
  | exg _ src dst =>
    exact andThen_executeFrame (readSource_executeFrame start ..) fun _ _ ht =>
      andThen_executeFrame (readDest_executeFrame ht ..) fun _ _ hu =>
        andThen_executeFrame (writeOp_executeFrame hu (List.mem_cons_self ..) _) fun _ _ hp =>
          andThen_executeFrame (writeOp_executeFrame hp (List.mem_cons_of_mem _ (List.mem_singleton_self _)) _)
            fun _ _ hq => hq.trans (setVC_executeFrame rfl ..)
  | movea _ src dst =>
    obtain rfl : sz = .w := by simpa [Instr.mnemonic, Mnemonic.allowedSizes] using hsz
    exact storeResult_executeFrame start (List.mem_singleton_self _) rfl _
  | inp _ dst =>
    exact storeResult_executeFrame (dropDraw_executeFrame rfl) (List.mem_singleton_self _) rfl _
  | dsp _ src =>
    exact andThen_executeFrame (readSource_executeFrame start ..) fun _ _ ht =>
      ht.trans (emit_executeFrame (.inl rfl) _)
  | dsr => exact emit_executeFrame (.inr rfl) _
  | hlt => exact setH_executeFrame rfl

/-! ### How any instruction ends -/

/-- A part of an instruction that began in `s` has appended no Error event, and where it has raised, no event at all. -/
def NoErrorReported (s : State) : Result Unit → Prop
  | .ok _ t => ¬ EndsInError s t
  | .raised _ t => t.trace = s.trace

theorem noErrorReported_of_trace {s : State} {r : Result Unit} (h : r.state.trace = s.trace) : NoErrorReported s r := by
  cases r with
  | ok _ t =>
    rintro ⟨_, _, _, ht⟩
    simp [ht] at h
  | raised _ t => exact h

/-- Execute appends no Error event itself: DSP and DSR append another event, and neither raises after that. -/
theorem execute_noErrorReported {i : Instr} {sz : Size} (hc : i.check = .ok sz) (s : State) :
    NoErrorReported s (execute i sz s) := by
  have kept := (execute_frame hc s).trace
  cases i with
  | dsp _ src =>
    rw [execute, runDsp]
    rcases readSource_spec .first sz src s with ⟨_, u, e, q⟩ | ⟨_, e⟩ <;> rw [e]
    · rintro ⟨_, _, _, ht⟩
      simp [q.trace] at ht
    · exact noErrorReported_of_trace rfl
  | dsr =>
    rintro ⟨_, _, _, ht⟩
    simp at ht
  | _ => exact noErrorReported_of_trace (kept nofun nofun)

theorem fetchOperands_located (sz : Size) (op1 op2 : Option Operand) (ds : BitVec 2) (s : State) :
    Located s (fetchOperands sz op1 op2 (s.loadDS ds)).state := by
  refine (Located.loadDS s ds).trans ?_
  rcases fetchOperands_spec sz op1 op2 (s.loadDS ds) with ⟨_, e, hl⟩ | ⟨_, _, e, hl, _⟩ <;> rw [e] <;> exact hl

/-- An instruction ends in one of two ways: with an Error event and H set, or, without an Error event, in what its Execute
makes of the state Fetch_Operands left (spec/60_exceptions.md R245). -/
theorem exec_ends {i : Instr} {s t : State} (h : exec i s = .next t) :
    (EndsInError s t ∧ t.status.h = true) ∨
    (¬ EndsInError s t ∧ ∃ sz e, Begins i sz s e ∧ Located s e ∧ ExecuteFrame i sz e t ∧ execute i sz e = .ok () t) := by
  rw [exec_eq_instruction] at h
  have raises {u : State} {k : ErrorKind} (hu : u.trace = s.trace) :
      EndsInError s (raiseError k (some i.mnemonic) (opcodeAddress s) u) := by
    refine ⟨k, some i.mnemonic, opcodeAddress s, ?_⟩
    rw [raiseError_trace, hu]
  have located (sz : Size) := fetchOperands_located sz i.op1 i.op2 i.info.ds s
  rcases instruction_spec i.mnemonic i.info i.op1 i.op2 (execute i) s with
    ⟨k, _, e⟩ | ⟨sz, k, u, _, hu, e⟩ | ⟨sz, u, hc, hu, e⟩ <;> rw [e] at h
  · cases h
    exact .inl ⟨raises rfl, rfl⟩
  · have hl : Located s u := by simpa [hu] using located sz
    cases h
    exact .inl ⟨raises hl.trace, rfl⟩
  · have hl : Located s u := by simpa [hu] using located sz
    have reported := execute_noErrorReported hc u
    have frame := execute_frame hc u
    cases hx : execute i sz u with
    | raised k v =>
      rw [hx] at h reported
      cases h
      exact .inl ⟨raises (reported.trans hl.trace), rfl⟩
    | ok _ v =>
      rw [hx] at h reported frame
      cases h
      rw [NoErrorReported, EndsInError, hl.trace] at reported
      exact .inr ⟨reported, sz, u, ⟨hc, hu⟩, hl, frame, hx⟩

/-- Settles O52: the error action sets H, and within Execute only HLT writes it. -/
theorem onlyHltAndErrorsWriteH : Obligations.OnlyHltAndErrorsWriteH := by
  have halts {i : Instr} {s t : State} (h : exec i s = .next t) (hi : i.mnemonic = .HLT) : t.status.h = true := by
    rcases exec_ends h with ⟨_, hh⟩ | ⟨_, sz, e, _, _, _, hx⟩
    · exact hh
    · cases i <;> cases hi
      cases hx
      rfl
  refine ⟨fun i s t h => ?_, fun i s t h he => ?_, fun i s t _ h hi _ => halts h hi, fun s t h hh => ?_⟩
  · rcases exec_ends h with ⟨he, hh⟩ | ⟨_, sz, e, _, hl, frame, _⟩
    · exact .inr ⟨hh, .inr he⟩
    · by_cases hi : i.mnemonic = .HLT
      · exact .inr ⟨halts h hi, .inl hi⟩
      · exact .inl ((frame.h hi).trans (congrArg Status.h hl.status))
  · rcases exec_ends h with ⟨_, hh⟩ | ⟨hne, _⟩
    · exact hh
    · exact absurd he hne
  · rw [(step_eq_next.1 h).1] at hh
    cases hh

/-- Settles O53: what Fetch_Operands leaves (O17), and the frame of Execute from there. -/
theorem frameOfEveryInstruction : Obligations.FrameOfEveryInstruction := by
  intro i sz s e t hb hm hx hne
  obtain ⟨he, _⟩ | ⟨_, sz', e', hb', hl, frame, _⟩ := exec_ends hx
  · exact absurd he hne
  obtain rfl : sz = sz' := Except.ok.inj (hb.valid.symm.trans hb'.valid)
  cases hb.located.symm.trans hb'.located
  obtain ⟨_, _, _, _, _, _, hareg, _, _⟩ := fetchOperandsEffect i sz s e hb
  have hbyte (x : Nat) : e.byteAt x = s.byteAt x := by rw [State.byteAt, hl.mem, State.byteAt]
  refine ⟨fun n hn => (frame.dreg n hn).trans (hl.dreg n), fun n hn => (frame.areg n hn).trans (hareg n),
    fun x hx => (frame.byteAt (hl.mem ▸ hm) x hx).trans (hbyte x), ?_, hl.status ▸ frame.nz,
    hl.status ▸ frame.h, fun h1 h2 => (frame.trace h1 h2).trans hl.trace, fun h => ?_,
    fun h => (frame.free h).trans hl.free⟩
  · rw [FlagsKept, ← hl.status]
    exact frame.flags
  · obtain ⟨hi, hd⟩ := frame.draws h
    exact ⟨hi.trans hl.input, hd.trans hl.drawn⟩

end Sys2Proof.Machine
end

/-! ## Proofs of the family `41_arithmetic`

First what later families can use too: what a store leaves in terms of `Puts`, an instruction that ends in a store, and the two
shapes `TwoOperandEffect` and `QuickEffect`. With them ADD and SUB (O19), ADDQ and SUBQ (O20), the meaning of C and V (O21),
MULS (O22), DIVS (O23, O24), NEG (O26) and CLR (O27). -/

section
namespace Sys2Proof.Machine

open Sys2Proof.Claims

/-! ### A store in terms of `Puts` -/

theorem located_of_begins {i : Instr} {sz : Size} {s e : State} (h : Begins i sz s e) : Located s e := by
  simpa [h.located] using fetchOperands_located sz i.op1 i.op2 i.info.ds s

section
variable {k : Slot} {sz : Size} {op : Operand} {v : BitVec sz.bits} {e t : State}

theorem Stored.puts (h : Stored k sz op v e t) (hm : Memory.rising e.mem) : Puts k sz op v e t where
  value := h.value hm
  slot := h.opAddr k
  upperD := by rintro n j rfl hj; exact h.dreg_upper hj
  upperA := by rintro n j rfl hj; exact h.areg_upper hj
  otherD _ hn := h.dreg_other hn
  otherA _ hn := h.areg_other hn
  byte _ hx := h.byteAt_other hm hx
  pc := h.pc
  h := by rw [h.status]
  trace := h.trace

theorem Stored.hostKept (h : Stored k sz op v e t) : HostKept e t := ⟨h.input, h.drawn, h.free⟩

/-- The flags are no part of what `Puts` speaks of. -/
theorem puts_setNZVC (h : Puts k sz op v e t) (n z v' c : Bool) : Puts k sz op v e (t.setNZVC n z v' c) :=
  { h with }

/-- Nor is the count of division overflows. -/
theorem puts_bumpFree (h : Puts k sz op v e t) : Puts k sz op v e t.bumpFree :=
  { h with }

end

/-! ### An instruction that ends in a store -/

theorem exec_of_execute_ok {i : Instr} {sz : Size} {s e t : State} (hb : Begins i sz s e)
    (h : execute i sz e = .ok () t) : exec i s = .next t := by
  rw [exec_of_begins hb, h]
  rfl

/-- `t` is what storing `o.r` in operand `k` and setting the flags of `o` leaves of `e`. -/
structure Leaves (k : Slot) (sz : Size) (dst : Operand) (o : AluOut sz.bits) (e t : State) : Prop where
  puts : Puts k sz dst o.r e t
  flags : Flags t o.r.msb (o.r == 0) o.v o.c
  host : HostKept e t

/-- An instruction whose Execute is a store, with every access in range, has a next state that `Leaves` describes. -/
theorem exec_leaves {i : Instr} {sz z : Size} {s e : State} {k : Slot} {dst : Operand} {o : AluOut z.bits} {inRange : Prop}
    (hb : Begins i sz s e) (hm : s.mem.wf) (h : Stores k z dst o inRange e (execute i sz e)) (hr : inRange) :
    ∃ t, exec i s = .next t ∧ Leaves k z dst o e t := by
  have hme : e.mem.wf := (located_of_begins hb).mem ▸ hm
  rcases h with ⟨_, t, ht, hs⟩ | ⟨hn, _⟩
  · have hhost := hs.hostKept
    exact ⟨t.setFlags o, exec_of_execute_ok hb ht, puts_setNZVC (hs.puts hme.1) .., ⟨rfl, rfl, rfl, rfl⟩,
      ⟨hhost.input, hhost.drawn, hhost.free⟩⟩
  · exact absurd hr hn

/-! ### The shapes with two operands and with an immediate -/

section
variable {f : (sz : Size) → BitVec sz.bits → BitVec sz.bits → AluOut sz.bits}
  {result : (w : Nat) → BitVec w → BitVec w → BitVec w} {v c : Bool → Bool → Bool → Bool}

/-- The ALU operation `f` computes `result`, with V and C given from the sign bits of its operands and its result. -/
def FromSignBits (f : (sz : Size) → BitVec sz.bits → BitVec sz.bits → AluOut sz.bits)
    (result : (w : Nat) → BitVec w → BitVec w → BitVec w) (v c : Bool → Bool → Bool → Bool) : Prop :=
  ∀ sz S D, f sz S D =
    ⟨result sz.bits S D, v S.msb D.msb (result sz.bits S D).msb, c S.msb D.msb (result sz.bits S D).msb⟩

theorem twoOperandEffect_of_runTwo {mk : OpInfo → Operand → Operand → Instr} (hf : FromSignBits f result v c)
    (hx : ∀ info src dst sz s, execute (mk info src dst) sz s = runTwo f src dst sz s) :
    TwoOperandEffect mk result v c := by
  intro info src dst sz s e hb hm h1 h2
  have hstores := runTwo_spec f src dst sz e
  rw [← hx info, hf] at hstores
  obtain ⟨t, ht, hl⟩ := exec_leaves hb hm hstores ⟨h1, h2⟩
  exact ⟨t, ht, hl.puts, hl.flags, hl.host⟩

theorem immediate_eq_ofNat (sz : Size) (data : BitVec 4) : immediate sz data = BitVec.ofNat sz.bits data.toNat :=
  (BitVec.ofNat_toNat ..).symm

theorem quickEffect_of_runQuick {mk : OpInfo → BitVec 4 → Operand → Instr} (hf : FromSignBits f result v c)
    (hx : ∀ info data dst sz s, execute (mk info data dst) sz s = runQuick f data dst sz s) :
    QuickEffect mk result v c := by
  intro info data dst sz s e hb hm h2
  have hstores := runQuick_spec f data dst sz e
  rw [← hx info, hf, immediate_eq_ofNat] at hstores
  obtain ⟨t, ht, hl⟩ := exec_leaves hb hm hstores h2
  exact ⟨t, ht, hl.puts, hl.flags, hl.host⟩

end

/-! ### ADD, SUB, ADDQ, SUBQ -/

theorem aluAdd_fromSignBits : FromSignBits (fun _ => aluAdd) (fun _ S D => D + S) addV addC := fun _ _ _ => rfl

theorem aluSub_fromSignBits : FromSignBits (fun _ => aluSub) (fun _ S D => D - S) subV subC := fun _ _ _ => rfl

/-- Settles O19: both are the two-operand shape with an ALU operation whose flags come from the sign bits. -/
theorem addAndSubEffect : Obligations.AddAndSubEffect :=
  ⟨twoOperandEffect_of_runTwo aluAdd_fromSignBits fun _ _ _ _ _ => rfl,
    twoOperandEffect_of_runTwo aluSub_fromSignBits fun _ _ _ _ _ => rfl⟩

/-- Settles O20: the same two ALU operations on the zero-extended immediate. -/
theorem addqAndSubqEffect : Obligations.AddqAndSubqEffect :=
  ⟨quickEffect_of_runQuick aluAdd_fromSignBits fun _ _ _ _ _ => rfl,
    quickEffect_of_runQuick aluSub_fromSignBits fun _ _ _ _ _ => rfl⟩

/-! ### The meaning of C and V -/

section
variable {w : Nat}

/-- The sign-bit formula of C is the carry out of the top bit: Rm is Sm + Dm plus the carry into the top bit, and the carry
out is the majority of those three. -/
theorem aluAdd_c_eq_carry (S D : BitVec w) (hw : 0 < w) : (aluAdd S D).c = BitVec.carry w D S false := by
  obtain ⟨m, rfl⟩ : ∃ m, w = m + 1 := ⟨w - 1, by omega⟩
  have hR : (D + S).msb = (D.msb ^^ (S.msb ^^ BitVec.carry m D S false)) := BitVec.msb_add
  have hcarry : BitVec.carry (m + 1) D S false = D.msb.atLeastTwo S.msb (BitVec.carry m D S false) := by
    rw [BitVec.carry_succ, BitVec.msb_eq_getLsbD_last, BitVec.msb_eq_getLsbD_last, Nat.add_sub_cancel]
  simp only [aluAdd, addC, hR, hcarry]
  cases D.msb <;> cases S.msb <;> cases BitVec.carry m D S false <;> rfl

theorem aluAdd_c_iff (S D : BitVec w) (hw : 0 < w) : (aluAdd S D).c = true ↔ 2 ^ w ≤ S.toNat + D.toNat := by
  rw [aluAdd_c_eq_carry S D hw, BitVec.carry_width]
  simp [Nat.add_comm]

/-- The borrow of D - S is the carry of the addition (D - S) + S that undoes it. -/
theorem aluSub_c_eq_aluAdd_c (S D : BitVec w) : (aluSub S D).c = (aluAdd S (D - S)).c := by
  simp only [aluSub, aluAdd, BitVec.sub_add_cancel, subC, addC]
  cases S.msb <;> cases D.msb <;> cases (D - S).msb <;> rfl

theorem aluSub_c_iff (S D : BitVec w) (hw : 0 < w) : (aluSub S D).c = true ↔ D.toNat < S.toNat := by
  have hS := S.isLt
  have hD := D.isLt
  rw [aluSub_c_eq_aluAdd_c, aluAdd_c_iff S _ hw, BitVec.toNat_sub']
  by_cases h : D.toNat < S.toNat
  · rw [Nat.mod_eq_of_lt (by omega)]
    omega
  · rw [Nat.mod_eq_sub_mod (by omega), Nat.mod_eq_of_lt (by omega)]
    omega

theorem aluAdd_v_eq_saddOverflow (S D : BitVec w) : (aluAdd S D).v = D.saddOverflow S := by
  rw [BitVec.saddOverflow_eq]
  simp only [aluAdd, addV]
  cases S.msb <;> cases D.msb <;> cases (D + S).msb <;> rfl

theorem aluSub_v_eq_ssubOverflow (S D : BitVec w) : (aluSub S D).v = D.ssubOverflow S := by
  rw [BitVec.ssubOverflow_eq]
  simp only [aluSub, subV]
  cases S.msb <;> cases D.msb <;> cases (D - S).msb <;> rfl

end

/-- Settles O21: C through the carry out of the top bit, V through the library's signed overflow. -/
theorem carryAndOverflowMeaning : Obligations.CarryAndOverflowMeaning := by
  refine fun w S D hw => ⟨aluAdd_c_iff S D hw, ?_, aluSub_c_iff S D hw, ?_⟩
  · simp [aluAdd_v_eq_saddOverflow, BitVec.saddOverflow, or_comm]
  · simp [aluSub_v_eq_ssubOverflow, BitVec.ssubOverflow, or_comm]

/-! ### NEG and CLR -/

section
variable {w : Nat}

theorem toNat_eq_half_iff (hw : 0 < w) (D : BitVec w) : D.toNat = 2 ^ (w - 1) ↔ D = BitVec.intMin w := by
  rw [← BitVec.toNat_inj, BitVec.toNat_intMin, Nat.mod_eq_of_lt (Nat.pow_lt_pow_right (by decide) (by omega))]

theorem aluNeg_eq (D : BitVec w) : aluNeg D = ⟨-D, D.msb && (-D).msb, D.msb || (-D).msb⟩ := by
  simp [aluNeg]

/-- Negation flips the sign of every value but the two that it leaves as they are. -/
theorem msb_neg_of_ne {D : BitVec w} (h0 : D ≠ 0#w) (hmin : D ≠ BitVec.intMin w) : (-D).msb = !D.msb := by
  simp [BitVec.msb_neg, bne_iff_ne.2 h0, bne_iff_ne.2 hmin]

/-- V of NEG: D and 0 - D are both negative for the most negative value alone. -/
theorem aluNeg_v (hw : 0 < w) (D : BitVec w) : (aluNeg D).v = decide (D.toNat = 2 ^ (w - 1)) := by
  simp only [aluNeg_eq, toNat_eq_half_iff hw]
  by_cases hmin : D = BitVec.intMin w
  · simp [hmin, BitVec.msb_intMin, hw]
  · by_cases h0 : D = 0#w
    · simp [h0, show 0#w ≠ BitVec.intMin w from h0 ▸ hmin]
    · simp [msb_neg_of_ne h0 hmin, hmin]

/-- C of NEG: D and 0 - D are both non-negative for 0 alone. -/
theorem aluNeg_c (hw : 0 < w) (D : BitVec w) : (aluNeg D).c = decide (D ≠ 0) := by
  simp only [aluNeg_eq]
  by_cases h0 : D = 0#w
  · simp [h0]
  · by_cases hmin : D = BitVec.intMin w
    · simp [hmin, BitVec.msb_intMin, hw] at h0 ⊢
    · simp [msb_neg_of_ne h0 hmin, h0]

end

theorem Size.bits_pos (sz : Size) : 0 < sz.bits := by cases sz <;> decide

/-- Settles O26: the one-operand shape with 0 - D, and V and C of NEG by meaning. -/
theorem negEffect : Obligations.NegEffect := by
  intro info dst sz s e hb hm hr
  obtain ⟨t, ht, hl⟩ := exec_leaves hb hm (runOne_spec (fun _ => aluNeg) dst sz e) hr
  have hflags := hl.flags
  rw [aluNeg_v (Size.bits_pos sz), aluNeg_c (Size.bits_pos sz)] at hflags
  exact ⟨t, ht, hl.puts, hflags, hl.host⟩

/-- Settles O27: CLR stores 0 without a read, and the flags are those of 0. -/
theorem clrEffect : Obligations.ClrEffect := by
  intro info dst sz s e hb hm hr
  obtain ⟨t, ht, hl⟩ := exec_leaves hb hm (Stores.of_quiet (k := .first) (dst := dst) (aluMove 0) (Quiet.refl e)) hr
  exact ⟨t, ht, hl.puts, by simpa [aluMove] using hl.flags, hl.host⟩

/-! ### MULS -/

theorem runMuls_spec (src dst : Operand) (s : State) :
    Stores .second .l dst (aluMuls (operandValue .first .w src s) (operandValue .second .w dst s))
      (operandInRange .first .w src s = true ∧ operandInRange .second .w dst s = true ∧
        operandInRange .second .l dst s = true) s (runMuls src dst s) := by
  unfold runMuls
  rcases readSource_spec .first .w src s with ⟨h1, t, e1, q1⟩ | ⟨h1, e1⟩ <;> rw [e1]
  · rcases readDest_spec .second .w dst t with ⟨h2, u, e2, q2⟩ | ⟨h2, e2⟩ <;>
      rw [q1.operandInRange] at h2 <;> rw [Result.andThen_ok, e2]
    · simp only [h1, h2, true_and, q1.operandValue]
      exact Stores.of_quiet _ (q1.trans q2)
    · exact .inr ⟨by simp [h2], t, rfl, q1⟩
  · exact .inr ⟨by simp [h1], s, rfl, Quiet.refl s⟩

/-- Where a long lies in memory, so does a word at the same address. -/
theorem operandInRange_w_of_l {k : Slot} {op : Operand} {s : State} (h : operandInRange k .l op s = true) :
    operandInRange k .w op s = true := by
  simp only [operandInRange, Bool.or_eq_true, inMemory_iff, Size.bytes] at h ⊢
  exact h.imp_right (by omega)

/-- A long holds every product of two signed words (spec/41_arithmetic.md R165). -/
theorem aluMuls_toInt (S D : Word) : (aluMuls S D).r.toInt = D.toInt * S.toInt := by
  have hlow : -2 ^ 30 ≤ D.toInt * S.toInt := BitVec.le_toInt_mul_toInt
  have hhigh : D.toInt * S.toInt ≤ 2 ^ 30 := BitVec.toInt_mul_toInt_le
  exact BitVec.toInt_ofInt_eq_self (by decide) (by omega) (by omega)

/-- Settles O22: the product is exact, and MULS stores it as a long. -/
theorem mulsEffect : Obligations.MulsEffect := by
  intro info src dst sz s e hb hm h1 h2
  obtain ⟨t, ht, hl⟩ := exec_leaves hb hm (runMuls_spec src dst e) ⟨h1, operandInRange_w_of_l h2, h2⟩
  exact ⟨t, _, ht, aluMuls_toInt .., hl.puts, hl.flags, hl.host⟩

/-! ### DIVS -/

/-- DIVS with both operands in range: after quiet reads it raises, overflows or stores, as the divisor and the quotient have
it (spec/41_arithmetic.md R166, spec/60_exceptions.md R246). -/
theorem runDivs_of_inRange {src dst : Operand} {s : State} {S : Word} {D : Long}
    (h1 : operandInRange .first .l src s = true) (h2 : operandInRange .second .l dst s = true)
    (hS : (operandValue .first .l src s).extractLsb' 0 16 = S) (hD : operandValue .second .l dst s = D) :
    ∃ u, Quiet s u ∧ runDivs src dst s =
      if S = 0 then .raised .divisionByZero u
      else if divOverflows S D then storeOverflow dst u
      else storeResult .second .l dst (aluDivs S D) u := by
  unfold runDivs
  rcases readSource_spec .first .l src s with ⟨_, t, e1, q1⟩ | ⟨hn, _⟩
  · rcases readDest_spec .second .l dst t with ⟨_, u, e2, q2⟩ | ⟨hn, _⟩
    · refine ⟨u, q1.trans q2, ?_⟩
      rw [e1, Result.andThen_ok, e2, Result.andThen_ok, q1.operandValue, hS, hD]
    · simp [q1.operandInRange, h2] at hn
  · simp [h1] at hn

theorem divOverflows_iff (S : Word) (D : Long) :
    divOverflows S D = true ↔ D.toInt.tdiv S.toInt < -32768 ∨ 32767 < D.toInt.tdiv S.toInt :=
  decide_eq_true_iff

theorem aluDivs_low {S : Word} {D : Long} (h : ¬ divOverflows S D) :
    ((aluDivs S D).r.extractLsb' 0 16).toInt = D.toInt.tdiv S.toInt := by
  rw [divOverflows_iff] at h
  have hr : (aluDivs S D).r.extractLsb' 0 16 = BitVec.ofInt 16 (divQuotient S D) := BitVec.extractLsb'_append_eq_right
  rw [hr]
  exact BitVec.toInt_ofInt_eq_self (by decide) (by simp only [divQuotient]; omega) (by simp only [divQuotient]; omega)

/-- What is left of the dividend is smaller than the divisor, so it fits a signed word. -/
theorem aluDivs_high {S : Word} (D : Long) (hS : S ≠ 0) :
    ((aluDivs S D).r.extractLsb' 16 16).toInt = D.toInt - D.toInt.tdiv S.toInt * S.toInt := by
  have hmod : divRemainder S D = D.toInt.tmod S.toInt := by
    rw [divRemainder, divQuotient, Int.tmod_def, Int.mul_comm]
  have hS0 : S.toInt ≠ 0 := fun h => hS (BitVec.toInt_inj.1 h)
  have hlow : -2 ^ 15 ≤ S.toInt := S.le_toInt
  have hhigh : S.toInt < 2 ^ 15 := S.toInt_lt
  have hlt : (divRemainder S D).natAbs < S.toInt.natAbs := by
    rw [hmod, Int.natAbs_tmod]
    exact Nat.mod_lt _ (by omega)
  have hr : (aluDivs S D).r.extractLsb' 16 16 = BitVec.ofInt 16 (divRemainder S D) := BitVec.extractLsb'_append_eq_left
  rw [hr]
  exact BitVec.toInt_ofInt_eq_self (by decide) (by omega) (by omega)

/-- Settles O23: DIVS stores remainder and quotient, and both fit their words. -/
theorem divsEffect : Obligations.DivsEffect := by
  intro info src dst sz s e hb hm h1 h2 S D hS hlow hhigh
  have hov : ¬ divOverflows S D := by
    rw [divOverflows_iff]
    omega
  obtain ⟨u, q, hu⟩ := runDivs_of_inRange (S := S) (D := D) h1 h2 rfl rfl
  rw [if_neg hS, if_neg hov] at hu
  have hstores := Stores.of_quiet (k := .second) (sz := .l) (dst := dst) (aluDivs S D) q
  rw [← hu] at hstores
  obtain ⟨t, ht, hl⟩ := exec_leaves hb hm hstores h2
  exact ⟨t, _, ht, aluDivs_low hov, aluDivs_high D hS, hl.puts, hl.flags, hl.host⟩

/-- A division overflow stores the free value in the destination, then sets the flags and counts (decision D12). -/
theorem storeOverflow_of_inRange {dst : Operand} {s u : State} (q : Quiet s u) (h : operandInRange .second .l dst s = true) :
    ∃ t, Stored .second .l dst (Config.divsOverflowResult s.free) s t ∧ storeOverflow dst u =
      .ok () (t.setNZVC (Config.divsOverflowN s.free) (Config.divsOverflowZ s.free) true false).bumpFree := by
  have q' := q.trans (Quiet.fillR u .l (Config.divsOverflowResult u.free))
  rcases writeOp_spec .second .l dst (Config.divsOverflowResult u.free) (u.fillR .l (Config.divsOverflowResult u.free)) with
    ⟨_, t, e, hs⟩ | ⟨hn, _⟩
  · refine ⟨t, q.free ▸ hs.of_quiet q', ?_⟩
    rw [storeOverflow, e, q.free]
    rfl
  · simp [q'.operandInRange, h] at hn

/-- Settles O24: the overflow's store, with the counter Fetch_Operands left as it was. -/
theorem divsOverflowEffect : Obligations.DivsOverflowEffect := by
  intro info src dst sz s e hb hm h1 h2 S D hS hq
  have hl := located_of_begins hb
  have hme : e.mem.wf := hl.mem ▸ hm
  obtain ⟨u, q, hu⟩ := runDivs_of_inRange (S := S) (D := D) h1 h2 rfl rfl
  rw [if_neg hS, if_pos ((divOverflows_iff S D).2 hq)] at hu
  obtain ⟨t, hs, ht⟩ := storeOverflow_of_inRange q h2
  rw [hl.free] at hs ht
  exact ⟨_, exec_of_execute_ok hb (hu.trans ht), puts_bumpFree (puts_setNZVC (hs.puts hme.1) ..), ⟨rfl, rfl, rfl, rfl⟩,
    hs.input.trans hl.input, hs.drawn.trans hl.drawn, congrArg (· + 1) (hs.free.trans hl.free)⟩

end Sys2Proof.Machine
end

/-! ## Proofs of the family `42_logic`

The two shapes of the family: AND, OR and EOR (O28) are `TwoOperandEffect`, NOT (O29) is the one-operand shape. All four go
through `aluMove`, which clears V and C whatever the operands are (spec/42_logic.md R180). -/

section
namespace Sys2Proof.Machine

open Sys2Proof.Claims

theorem aluAnd_fromSignBits :
    FromSignBits (fun _ => aluAnd) (fun _ S D => D &&& S) (fun _ _ _ => false) (fun _ _ _ => false) :=
  fun _ _ _ => rfl

theorem aluOr_fromSignBits :
    FromSignBits (fun _ => aluOr) (fun _ S D => D ||| S) (fun _ _ _ => false) (fun _ _ _ => false) :=
  fun _ _ _ => rfl

theorem aluEor_fromSignBits :
    FromSignBits (fun _ => aluEor) (fun _ S D => D ^^^ S) (fun _ _ _ => false) (fun _ _ _ => false) :=
  fun _ _ _ => rfl

/-- Settles O28: each is the two-operand shape with an ALU operation that clears V and C. -/
theorem andOrEorEffect : Obligations.AndOrEorEffect :=
  ⟨twoOperandEffect_of_runTwo aluAnd_fromSignBits fun _ _ _ _ _ => rfl,
    twoOperandEffect_of_runTwo aluOr_fromSignBits fun _ _ _ _ _ => rfl,
    twoOperandEffect_of_runTwo aluEor_fromSignBits fun _ _ _ _ _ => rfl⟩

/-- Inverting every bit is the `xor` with all ones of spec/42_logic.md R181. -/
theorem aluNot_eq_aluMove_xor {w : Nat} (D : BitVec w) : aluNot D = aluMove (D ^^^ BitVec.allOnes w) := by
  rw [aluNot, BitVec.not_def, BitVec.xor_comm]

/-- Settles O29: the one-operand shape with the inverted operand. -/
theorem notEffect : Obligations.NotEffect := by
  intro info dst sz s e hb hm hr
  obtain ⟨t, ht, hl⟩ := exec_leaves hb hm (runOne_spec (fun _ => aluNot) dst sz e) hr
  rw [aluNot_eq_aluMove_xor] at hl
  exact ⟨t, ht, hl.puts, hl.flags, hl.host⟩

end Sys2Proof.Machine
end

/-! ## Proofs of the family `43_shift_rotate`

ASL (O30), ASR (O31), ROL and ROR (O32) are `ShiftEffect`. Execute is `runShift` for all four, so what is left is the ALU
operation of each: an arithmetic reading of the two shifts, and for the rotates where each bit goes. V and C stand in the
model as the statements have them, decision D13 for a count above the width included. -/

section
namespace Sys2Proof.Machine

open Sys2Proof.Claims

section
variable {f : (sz : Size) → Nat → BitVec sz.bits → AluOut sz.bits}
  {result : (w : Nat) → Nat → BitVec w → BitVec w → Prop} {v : Bool → Bool → Bool} {c : (w : Nat) → Nat → BitVec w → Bool}

/-- The ALU operation `f` relates its operand and its result by `result`, with V from their signs and C from the count and the
operand. -/
structure ShiftsBy (f : (sz : Size) → Nat → BitVec sz.bits → AluOut sz.bits)
    (result : (w : Nat) → Nat → BitVec w → BitVec w → Prop) (v : Bool → Bool → Bool)
    (c : (w : Nat) → Nat → BitVec w → Bool) : Prop where
  result (sz : Size) (r : Nat) (D : BitVec sz.bits) : result sz.bits r D (f sz r D).r
  overflow (sz : Size) (r : Nat) (D : BitVec sz.bits) : (f sz r D).v = v D.msb (f sz r D).r.msb
  carry (sz : Size) (r : Nat) (D : BitVec sz.bits) : (f sz r D).c = c sz.bits r D

theorem shiftEffect_of_runShift {mk : OpInfo → BitVec 4 → Operand → Instr} (hf : ShiftsBy f result v c)
    (hx : ∀ info data dst sz s, execute (mk info data dst) sz s = runShift f data dst sz s) :
    ShiftEffect mk result v c := by
  intro info data dst sz s e hb hm hr
  have hstores := runShift_spec f data dst sz e
  rw [← hx info] at hstores
  obtain ⟨t, ht, hl⟩ := exec_leaves hb hm hstores hr
  have hflags := hl.flags
  rw [hf.overflow, hf.carry] at hflags
  exact ⟨t, _, ht, hf.result sz data.toNat _, hl.puts, hflags, hl.host⟩

end

/-! ### What the shifts and rotates compute -/

section
variable {w : Nat} (r : Nat) (D : BitVec w)

/-- What a shift to the left loses is what does not fit the width (spec/43_shift_rotate.md R191). -/
theorem aluAsl_toNat : (aluAsl r D).r.toNat = D.toNat * 2 ^ r % 2 ^ w := by
  rw [aluAsl, BitVec.toNat_shiftLeft, Nat.shiftLeft_eq]

/-- Copies of the sign entering at the top are division rounded toward minus infinity (spec/43_shift_rotate.md R192). -/
theorem aluAsr_toInt : (aluAsr r D).r.toInt = D.toInt.fdiv (2 ^ r) := by
  rw [aluAsr, BitVec.toInt_sshiftRight, Int.shiftRight_eq_div_pow, Int.fdiv_eq_ediv_of_nonneg _ (by positivity)]
  norm_cast

theorem aluRol_r : (aluRol r D).r = D.rotateLeft r := rfl

theorem aluRor_r : (aluRor r D).r = D.rotateRight r := rfl

/-- A place in the width, moved by a count: the sum with the count's residue, less the width where it runs over. -/
theorem place_add_mod {j : Nat} (hj : j < w) (r : Nat) :
    (j + r) % w = if w ≤ j + r % w then j + r % w - w else j + r % w := by
  rw [Nat.add_mod_eq_ite, Nat.mod_eq_of_lt hj]

/-- Bit j goes to place (j + r) mod w: r places up, or round to the low end (spec/43_shift_rotate.md R193). -/
theorem aluRol_getLsbD {j : Nat} (hj : j < w) : (aluRol r D).r.getLsbD ((j + r) % w) = D.getLsbD j := by
  have hr : r % w < w := Nat.mod_lt _ (by omega)
  rw [aluRol_r, BitVec.getLsbD_rotateLeft, place_add_mod hj]
  split
  · next hround =>
    rw [decide_eq_true (by omega), cond_true]
    congr 1
    omega
  · next hup =>
    rw [decide_eq_false (by omega), cond_false, decide_eq_true (by omega), Bool.true_and, Nat.add_sub_cancel]

/-- Bit j comes from place (j + r) mod w: r places down, or round from the low end (spec/43_shift_rotate.md R194). -/
theorem aluRor_getLsbD {j : Nat} (hj : j < w) : (aluRor r D).r.getLsbD j = D.getLsbD ((j + r) % w) := by
  have hr : r % w < w := Nat.mod_lt _ (by omega)
  rw [aluRor_r, BitVec.getLsbD_rotateRight, place_add_mod hj]
  split
  · next hround =>
    rw [decide_eq_false (by omega), cond_false, decide_eq_true hj, Bool.true_and]
    congr 1
    omega
  · next hdown => rw [decide_eq_true (by omega), cond_true, Nat.add_comm]

end

/-! ### The obligations -/

/-- Settles O30: ASL multiplies by the power of two modulo the width. -/
theorem aslEffect : Obligations.AslEffect :=
  shiftEffect_of_runShift ⟨fun _ => aluAsl_toNat, fun _ _ _ => rfl, fun _ _ _ => rfl⟩ fun _ _ _ _ _ => rfl

/-- Settles O31: ASR divides by the power of two, rounding down. -/
theorem asrEffect : Obligations.AsrEffect :=
  shiftEffect_of_runShift ⟨fun _ => aluAsr_toInt, fun _ _ _ => rfl, fun _ _ _ => rfl⟩ fun _ _ _ _ _ => rfl

/-- Settles O32: ROL sends each bit to its place, ROR takes it from there. -/
theorem rotateEffect : Obligations.RotateEffect :=
  ⟨shiftEffect_of_runShift ⟨fun _ r D _ => aluRol_getLsbD r D, fun _ _ _ => rfl, fun _ _ _ => rfl⟩ fun _ _ _ _ _ => rfl,
    shiftEffect_of_runShift ⟨fun _ r D _ => aluRor_getLsbD r D, fun _ _ _ => rfl, fun _ _ _ => rfl⟩ fun _ _ _ _ _ => rfl⟩

end Sys2Proof.Machine
end

/-! ## Proofs of the family `44_compare`

CMP (O33) and TST (O34) read their operands and set the four flags from an ALU output; the output's result goes to no operand.
What that leaves of a state is `Tested`, for any ALU output. -/

section
namespace Sys2Proof.Machine

open Sys2Proof.Claims

/-! ### A read in range, and what a quiet change keeps -/

section
variable {k : Slot} {sz : Size} {op : Operand} {s t : State}

theorem readSource_of_inRange (h : operandInRange k sz op s = true) :
    ∃ t, readSource k sz op s = .ok (operandValue k sz op s) t ∧ Quiet s t := by
  rcases readSource_spec k sz op s with ⟨_, hread⟩ | ⟨hn, _⟩
  · exact hread
  · simp [h] at hn

theorem readDest_of_inRange (h : operandInRange k sz op s = true) :
    ∃ t, readDest k sz op s = .ok (operandValue k sz op s) t ∧ Quiet s t := by
  rcases readDest_spec k sz op s with ⟨_, hread⟩ | ⟨hn, _⟩
  · exact hread
  · simp [h] at hn

theorem Quiet.dataKept (q : Quiet s t) : DataKept s t where
  d := q.dreg
  a := q.areg
  byte := q.byteAt
  pc := q.pc
  h := by rw [q.status]
  trace := q.trace

theorem Quiet.hostKept (q : Quiet s t) : HostKept s t := ⟨q.input, q.drawn, q.free⟩

end

/-! ### Flags set and nothing written -/

/-- `t` has the flags of `o` and everything else a program can see as in `e`: what `Leaves` is for an instruction that stores
its result. -/
structure Tested {w : Nat} (o : AluOut w) (e t : State) : Prop where
  data : DataKept e t
  host : HostKept e t
  flags : Flags t o.r.msb (o.r == 0) o.v o.c

/-- The flags set after quiet changes alone. H is not one of the four, so it is kept (spec/44_compare.md R200, R201,
conflict C3). -/
theorem Quiet.tested {w : Nat} {s t : State} (q : Quiet s t) (o : AluOut w) : Tested o s (t.setFlags o) where
  data := { q.dataKept with d := by simp [q.dreg], a := by simp [q.areg], byte := by simp [q.byteAt] }
  host := { q.hostKept with }
  flags := ⟨rfl, rfl, rfl, rfl⟩

theorem runCmp_tested {sz : Size} {src dst : Operand} {s : State} (h1 : operandInRange .first sz src s = true)
    (h2 : operandInRange .second sz dst s = true) :
    ∃ t, runCmp src dst sz s = .ok () t ∧
      Tested (aluSub (operandValue .first sz src s) (operandValue .second sz dst s)) s t := by
  obtain ⟨t, hsrc, qt⟩ := readSource_of_inRange h1
  obtain ⟨u, hdst, qu⟩ := readDest_of_inRange ((qt.operandInRange ..).trans h2)
  rw [qt.operandValue] at hdst
  rw [runCmp, hsrc, Result.andThen_ok, hdst, Result.andThen_ok]
  exact ⟨_, rfl, ((qt.trans qu).trans (Quiet.fillR ..)).tested _⟩

theorem runTst_tested {sz : Size} {dst : Operand} {s : State} (h : operandInRange .first sz dst s = true) :
    ∃ t, runTst dst sz s = .ok () t ∧ Tested (aluMove (operandValue .first sz dst s)) s t := by
  obtain ⟨t, hdst, qt⟩ := readDest_of_inRange h
  rw [runTst, hdst, Result.andThen_ok]
  exact ⟨_, rfl, qt.tested _⟩

/-! ### The obligations -/

/-- Settles O33: CMP sets the flags of the ALU operation SUB has, `aluSub`, after two reads. -/
theorem cmpEffect : Obligations.CmpEffect := by
  intro info src dst sz s e hb h1 h2
  obtain ⟨t, ht, tested⟩ := runCmp_tested h1 h2
  exact ⟨t, exec_of_execute_ok hb ht, tested.data, tested.host, tested.flags⟩

/-- Settles O34: TST sets the flags of the operand it read, through `aluMove`, which clears V and C. -/
theorem tstEffect : Obligations.TstEffect := by
  intro info dst sz s e hb h
  obtain ⟨t, ht, tested⟩ := runTst_tested h
  exact ⟨t, exec_of_execute_ok hb ht, tested.data, tested.host, tested.flags⟩

end Sys2Proof.Machine
end

/-! ## Proofs of the family `45_branch`

The six branches are `BranchEffect` (O35, O36, O37): with its one valid form each begins in the same state, its target in OpAddr1
and PC past the extension word, and Execute is `runBranch` with its own condition. What the conditions mean after a CMP (O38) is
then a fact about the flags of `aluSub` alone. -/

section
namespace Sys2Proof.Machine

open Sys2Proof.Claims

/-! ### A branch is `runBranch` on its extension word -/

/-- The opcode word of a branch in its one valid form, `ooooo 01 0 011 0 000 0` (spec/45_branch.md R210). -/
def branchOpcode (m : Mnemonic) : Word := m.opName ++ 0b01#2 ++ 0b0#1 ++ (0b011#3 ++ 0b0#1 ++ 0b0000#4)

/-- `mk` makes the branch named `m`: with a target as its extension word it is encoded as that branch, it begins with the target
in OpAddr1, and its Execute is `runBranch` on `cond` of N, Z, V, C (spec/45_branch.md R210). -/
structure MakesBranch (mk : OpInfo → Operand → Instr) (m : Mnemonic) (cond : Bool → Bool → Bool → Bool → Bool) : Prop where
  encode (target : Word) : encode (mk ⟨0b01, false⟩ (.abs target)) = [branchOpcode m, target]
  begins (target : Word) (s : State) :
    Begins (mk ⟨0b01, false⟩ (.abs target)) .w s (fetchExtension .first target (s.loadDS 0b01))
  execute (info : OpInfo) (op : Operand) (sz : Size) (s : State) :
    execute (mk info op) sz s = runBranch (fun b => cond b.n b.z b.v b.c) s

section
variable {mk : OpInfo → Operand → Instr} {m : Mnemonic} {opcode : Word} {cond : Bool → Bool → Bool → Bool → Bool}

/-- Fetch_Operands moves PC past the target, and Execute moves PC and nothing else. -/
theorem MakesBranch.branchEffect (h : MakesBranch mk m cond) (hm : branchOpcode m = opcode) :
    BranchEffect mk opcode cond := by
  intro target s
  have hx := exec_of_execute_ok (h.begins target s) ((h.execute ..).trans (runBranch_spec ..))
  refine ⟨hm ▸ h.encode target, _, hx, ?_, ?_, ?_, ?_, ?_, ?_, ?_, ?_⟩ <;> simp [fetchExtension]

/-- Where the condition says `p`, the branch is taken if and only if `p`. -/
theorem exec_branch_pc (h : BranchEffect mk opcode cond) (target : Word) {u : State} {p : Prop} [Decidable p]
    (hp : cond u.status.n u.status.z u.status.v u.status.c = true ↔ p) :
    ∃ x, exec (mk ⟨0b01, false⟩ (.abs target)) u = .next x ∧ x.pc = if p then target else u.pc + 2 := by
  obtain ⟨_, x, hx, hpc, _⟩ := h target u
  exact ⟨x, hx, by simp only [hpc, hp]⟩

end

theorem bra_makesBranch : MakesBranch .bra .BRA (fun _ _ _ _ => true) :=
  ⟨fun _ => rfl, fun _ _ => ⟨rfl, rfl⟩, fun _ _ _ _ => rfl⟩

theorem bvs_makesBranch : MakesBranch .bvs .BVS (fun _ _ v _ => v) :=
  ⟨fun _ => rfl, fun _ _ => ⟨rfl, rfl⟩, fun _ _ _ _ => rfl⟩

theorem beq_makesBranch : MakesBranch .beq .BEQ (fun _ z _ _ => z) :=
  ⟨fun _ => rfl, fun _ _ => ⟨rfl, rfl⟩, fun _ _ _ _ => rfl⟩

theorem bcs_makesBranch : MakesBranch .bcs .BCS (fun _ _ _ c => c) :=
  ⟨fun _ => rfl, fun _ _ => ⟨rfl, rfl⟩, fun _ _ _ _ => rfl⟩

theorem bge_makesBranch : MakesBranch .bge .BGE (fun n _ v _ => !(n ^^ v)) :=
  ⟨fun _ => rfl, fun _ _ => ⟨rfl, rfl⟩, fun _ _ _ _ => rfl⟩

theorem ble_makesBranch : MakesBranch .ble .BLE (fun n z v _ => (n ^^ v) || z) :=
  ⟨fun _ => rfl, fun _ _ => ⟨rfl, rfl⟩, fun _ _ _ _ => rfl⟩

/-- Settles O35: BRA is a branch whose condition is constant. -/
theorem braEffect : Obligations.BraEffect := bra_makesBranch.branchEffect (by decide)

/-- Settles O36: BVS, BEQ and BCS are branches that each look at one bit. -/
theorem oneBitBranchEffect : Obligations.OneBitBranchEffect :=
  ⟨bvs_makesBranch.branchEffect (by decide), beq_makesBranch.branchEffect (by decide),
    bcs_makesBranch.branchEffect (by decide)⟩

/-- Settles O37: BGE and BLE are branches on N xor V, BLE on Z too. -/
theorem signedBranchEffect : Obligations.SignedBranchEffect :=
  ⟨bge_makesBranch.branchEffect (by decide), ble_makesBranch.branchEffect (by decide)⟩

/-! ### What the flags of D - S say of D and S -/

section
variable {w : Nat} (S D : BitVec w)

theorem aluSub_r_eq_zero_iff : ((aluSub S D).r == 0) = true ↔ D = S := by
  rw [beq_iff_eq]
  exact sub_eq_zero

theorem aluSub_c_eq_ult (hw : 0 < w) : (aluSub S D).c = D.ult S := by
  rw [Bool.eq_iff_iff, aluSub_c_iff S D hw, BitVec.ult_iff_lt, BitVec.lt_def]

/-- N xor V is the signed comparison: the unsigned one, which is C, turned over where the signs of D and S differ. -/
theorem aluSub_n_xor_v_eq_slt (hw : 0 < w) : ((aluSub S D).r.msb ^^ (aluSub S D).v) = D.slt S := by
  rw [BitVec.slt_eq_ult, ← aluSub_c_eq_ult S D hw]
  simp only [aluSub, subV, subC]
  cases S.msb <;> cases D.msb <;> cases (D - S).msb <;> rfl

theorem aluSub_n_xor_v_iff (hw : 0 < w) :
    ((aluSub S D).r.msb ^^ (aluSub S D).v) = true ↔ D.toInt < S.toInt := by
  rw [aluSub_n_xor_v_eq_slt S D hw, BitVec.slt_iff_toInt_lt]

/-- BGE's condition (spec/45_branch.md R215). -/
theorem aluSub_ge_iff (hw : 0 < w) :
    (!((aluSub S D).r.msb ^^ (aluSub S D).v)) = true ↔ S.toInt ≤ D.toInt := by
  rw [Bool.not_eq_true', ← Bool.not_eq_true, aluSub_n_xor_v_iff S D hw, Int.not_lt]

/-- BLE's condition (spec/45_branch.md R216). -/
theorem aluSub_le_iff (hw : 0 < w) :
    (((aluSub S D).r.msb ^^ (aluSub S D).v) || (aluSub S D).r == 0) = true ↔ D.toInt ≤ S.toInt := by
  rw [Bool.or_eq_true, aluSub_n_xor_v_iff S D hw, aluSub_r_eq_zero_iff, ← BitVec.toInt_inj, Int.le_iff_lt_or_eq]

end

/-- The state CMP answers has the flags of `aluSub` on its operands. -/
theorem exec_cmp_flags {info : OpInfo} {src dst : Operand} {sz : Size} {s e t : State}
    (hb : Begins (.cmp info src dst) sz s e) (h1 : operandInRange .first sz src e = true)
    (h2 : operandInRange .second sz dst e = true) (hx : exec (.cmp info src dst) s = .next t) :
    let o := aluSub (operandValue .first sz src e) (operandValue .second sz dst e)
    Flags t o.r.msb (o.r == 0) o.v o.c := by
  obtain ⟨t', hx', _, _, flags⟩ := cmpEffect info src dst sz s e hb h1 h2
  cases hx.symm.trans hx'
  exact flags

/-- Settles O38: each branch's condition on the flags CMP left, read as a comparison of D and S. -/
theorem compareThenBranch : Obligations.CompareThenBranch := by
  intro info src dst sz s e t target u hb h1 h2 hx hu S D
  obtain ⟨hn, hz, hv, hc⟩ := exec_cmp_flags hb h1 h2 hx
  have hw : 0 < sz.bits := Size.bits_pos sz
  obtain ⟨_, beq, bcs⟩ := oneBitBranchEffect
  obtain ⟨bge, ble⟩ := signedBranchEffect
  refine ⟨exec_branch_pc beq target ?_, exec_branch_pc bcs target ?_, exec_branch_pc bge target ?_,
    exec_branch_pc ble target ?_⟩ <;> rw [hu]
  · rw [hz]
    exact aluSub_r_eq_zero_iff S D
  · rw [hc]
    exact aluSub_c_iff S D hw
  · rw [hn, hv]
    exact aluSub_ge_iff S D hw
  · rw [hn, hv, hz]
    exact aluSub_le_iff S D hw

end Sys2Proof.Machine
end

/-! ## Proofs of the family `46_transfer`

MOVE (O39) and MOVEQ (O40) end in a store of what `aluMove` gives, so `exec_leaves` describes them. EXG (O41) is two stores to
registers, the second after the first; MOVEA (O42) is one, of OpAddr1. What a store to a register leaves of registers and of
memory does not need memory to be canonical, so O41 and O42 hold in every state. -/

section
namespace Sys2Proof.Machine

open Sys2Proof.Claims

/-! ### MOVE and MOVEQ -/

theorem runMove_spec (src dst : Operand) (sz : Size) (s : State) :
    Stores .second sz dst (aluMove (operandValue .first sz src s))
      (operandInRange .first sz src s = true ∧ operandInRange .second sz dst s = true) s (runMove src dst sz s) := by
  unfold runMove
  rcases readSource_spec .first sz src s with ⟨h, t, e, q⟩ | ⟨h, e⟩ <;> rw [e]
  · simp only [h, true_and]
    exact Stores.of_quiet _ q
  · exact .inr ⟨by simp [h], s, rfl, Quiet.refl s⟩

/-- Settles O39: MOVE stores the value it read, and `aluMove` clears V and C. -/
theorem moveEffect : Obligations.MoveEffect := by
  intro info src dst sz s e hb hm h1 h2
  obtain ⟨t, ht, hl⟩ := exec_leaves hb hm (runMove_spec src dst sz e) ⟨h1, h2⟩
  exact ⟨t, ht, hl.puts, hl.flags, hl.host⟩

/-- Every size is wider than the immediate. -/
theorem Size.four_lt_bits (sz : Size) : 4 < sz.bits := by cases sz <;> decide

/-- The immediate is zero-extended, so it is never negative (spec/30_encoding.md R87, spec/46_transfer.md R221). -/
theorem immediate_msb (sz : Size) (data : BitVec 4) : (immediate sz data).msb = false := by
  have hfour := Size.four_lt_bits sz
  rw [immediate, BitVec.msb_setWidth, BitVec.getLsbD_of_ge _ _ (by omega), Bool.and_false]

theorem immediate_beq_zero (sz : Size) (data : BitVec 4) : (immediate sz data == 0) = (data == 0) := by
  have hkept : (immediate sz data).toNat = data.toNat := BitVec.toNat_setWidth_of_le (Size.four_lt_bits sz).le
  rw [Bool.eq_iff_iff, beq_iff_eq, beq_iff_eq, ← BitVec.toNat_inj, ← BitVec.toNat_inj, hkept]
  simp

/-- Settles O40: MOVEQ stores the immediate without a read, and the flags are those of the immediate. -/
theorem moveqEffect : Obligations.MoveqEffect := by
  intro info data dst sz s e hb hm h2
  have hstores := Stores.of_quiet (dst := dst) (k := .second) (aluMove (immediate sz data))
    (Quiet.fillS e sz (immediate sz data))
  obtain ⟨t, ht, hl⟩ := exec_leaves hb hm hstores h2
  have hflags := hl.flags
  rw [aluMove, immediate_msb, immediate_beq_zero] at hflags
  exact ⟨t, ht, immediate_eq_ofNat sz data ▸ hl.puts, hflags, hl.host⟩

/-! ### Registers as operands -/

section
variable {k : Slot} {sz : Size} {op : Operand} {v : BitVec sz.bits} {s t : State}

/-- The value of a register operand does not depend on the operand's position: no OpAddrk is read. -/
theorem operandValue_slot_of_isReg (hr : isReg op = true) (j k : Slot) (sz : Size) (s : State) :
    operandValue j sz op s = operandValue k sz op s := by
  cases op with
  | dreg | areg => rfl
  | _ => cases hr

/-- A register stored to holds the value, whatever the form of memory. -/
theorem Stored.value_of_isReg (h : Stored k sz op v s t) (hr : isReg op = true) (j : Slot) :
    operandValue j sz op t = v := by
  obtain ⟨u, _, e⟩ := h
  cases op with
  | dreg | areg => subst e; simp [operandValue]
  | _ => cases hr

/-- A store to another operand leaves a register operand's value. -/
theorem Stored.value_other (h : Stored k sz op v s t) {op' : Operand} (hne : op ≠ op') (hr : isReg op' = true) (j : Slot)
    (sz' : Size) : operandValue j sz' op' t = operandValue j sz' op' s := by
  cases op' with
  | dreg n => simp only [operandValue, h.dreg_other hne]
  | areg n => simp only [operandValue, h.areg_other hne]
  | _ => cases hr

theorem Stored.areg_same {n : RegNo} (h : Stored k sz (.areg n) v s t) : t.areg n = setLow sz (s.areg n) v := by
  obtain ⟨u, q, rfl⟩ := h
  rw [State.setA_areg_same, q.areg]

theorem writeOp_of_inRange (v : BitVec sz.bits) (h : operandInRange k sz op s = true) :
    ∃ t, writeOp k sz op v s = .ok () t ∧ Stored k sz op v s t := by
  rcases writeOp_spec k sz op v s with ⟨_, hwrite⟩ | ⟨hn, _⟩
  · exact hwrite
  · simp [h] at hn

/-- Locating a register changes nothing (spec/40_cycle_and_addressing.md R126). -/
theorem locate_of_isReg (hr : isReg op = true) (k : Slot) (sz : Size) (s : State) : locate k sz op s = .ok () s := by
  cases op with
  | dreg | areg => rfl
  | _ => cases hr

end

/-! ### EXG -/

section
variable {info : OpInfo} {src dst : Operand} {s : State}

theorem isReg_of_exg_check {sz : Size} (h : (Instr.exg info src dst).check = .ok sz) :
    isReg src = true ∧ isReg dst = true := by
  obtain ⟨_, _, _, h1, h2⟩ := checkOpcode_eq_ok.1 h
  exact ⟨isReg_of_mode_register (of_decide_eq_true h1), isReg_of_mode_register (of_decide_eq_true h2)⟩

/-- A valid EXG begins in the state that loading DS leaves: both its operands are registers. -/
theorem exg_begins (h : (Instr.exg info src dst).check = .ok .l) :
    Begins (.exg info src dst) .l s (s.loadDS info.ds) where
  valid := h
  located := by
    obtain ⟨hsrc, hdst⟩ := isReg_of_exg_check h
    change (locate .first .l src (s.loadDS info.ds)).andThen (fun _ t => locate .second .l dst t) =
      .ok () (s.loadDS info.ds)
    rw [locate_of_isReg hsrc, Result.andThen_ok, locate_of_isReg hdst]

/-- EXG's Execute on registers: D's old value goes to S, then S's old value to D, then V and C are cleared. -/
theorem runExg_of_isReg (hsrc : isReg src = true) (hdst : isReg dst = true) (s : State) :
    ∃ p q, runExg src dst s = .ok () (q.setNZVC q.status.n q.status.z false false) ∧
      Stored .first .l src (operandValue .second .l dst s) s p ∧
      Stored .second .l dst (operandValue .first .l src s) p q := by
  obtain ⟨t, hreadS, qt⟩ := readSource_of_inRange (operandInRange_of_isReg hsrc .first .l s)
  obtain ⟨u, hreadD, qu⟩ := readDest_of_inRange (operandInRange_of_isReg hdst .second .l t)
  obtain ⟨p, hwriteS, hp⟩ := writeOp_of_inRange (operandValue .second .l dst t) (operandInRange_of_isReg hsrc .first .l u)
  obtain ⟨q, hwriteD, hq⟩ := writeOp_of_inRange (operandValue .first .l src s) (operandInRange_of_isReg hdst .second .l p)
  refine ⟨p, q, ?_, qt.operandValue .. ▸ hp.of_quiet (qt.trans qu), hq⟩
  simp only [runExg, hreadS, hreadD, hwriteS, hwriteD, Result.andThen_ok]

/-- Two such stores exchange the registers, the same register twice included. -/
theorem exchanged_of_stored {p q : State} (hsrc : isReg src = true) (hdst : isReg dst = true)
    (hp : Stored .first .l src (operandValue .second .l dst s) s p)
    (hq : Stored .second .l dst (operandValue .first .l src s) p q) :
    operandValue .second .l dst q = operandValue .first .l src s ∧
      operandValue .first .l src q = operandValue .second .l dst s := by
  refine ⟨hq.value_of_isReg hdst .second, ?_⟩
  by_cases hne : dst = src
  · subst hne
    exact (hq.value_of_isReg hdst .first).trans (operandValue_slot_of_isReg hdst ..)
  · exact (hq.value_other hne hsrc .first .l).trans (hp.value_of_isReg hsrc .first)

end

/-- Settles O41: both operands are registers, so EXG is the two stores of `runExg_of_isReg`, and what both leave is its
frame. -/
theorem exgEffect : Obligations.ExgEffect := by
  intro info src dst s hc
  obtain ⟨hsrc, hdst⟩ := isReg_of_exg_check hc
  have qds := Quiet.loadDS s info.ds
  obtain ⟨p, q, hrun, hp, hq⟩ := runExg_of_isReg hsrc hdst (s.loadDS info.ds)
  have hp := hp.of_quiet qds
  rw [qds.operandValue] at hp hq
  obtain ⟨hD, hS⟩ := exchanged_of_stored hsrc hdst hp hq
  have hstatus : q.status = s.status := hq.status.trans hp.status
  have flags : Flags (q.setNZVC q.status.n q.status.z false false) s.status.n s.status.z false false :=
    ⟨by simp [hstatus], by simp [hstatus], rfl, rfl⟩
  have mem : q.mem = s.mem := (hq.mem_of_reg hdst).trans (hp.mem_of_reg hsrc)
  refine ⟨hsrc, hdst, _, exec_of_execute_ok (exg_begins hc) hrun, hD, hS, ?dreg, ?areg, mem, hq.pc.trans hp.pc,
    hq.trace.trans hp.trace, by simp [hstatus], flags,
    ⟨hq.input.trans hp.input, hq.drawn.trans hp.drawn, hq.free.trans hp.free⟩⟩
  case dreg =>
    intro n h1 h2
    exact (hq.dreg_other h2).trans (hp.dreg_other h1)
  case areg =>
    intro n h1 h2
    exact (hq.areg_other h2).trans (hp.areg_other h1)

/-! ### MOVEA -/

/-- MOVEA in its one valid form begins with the address in OpAddr1 and PC past the extension word; its destination is a
register, which Fetch_Operands passes by (spec/46_transfer.md R223). -/
theorem movea_begins (a : Word) (n : RegNo) (s : State) :
    Begins (.movea ⟨0b01, true⟩ (.abs a) (.areg n)) .w s (fetchExtension .first a (s.loadDS 0b01)) :=
  ⟨rfl, rfl⟩

/-- MOVEA's Execute is a store to a register, which raises nothing. -/
theorem runMovea_areg (n : RegNo) (s : State) :
    ∃ t, runMovea (.areg n) s = .ok () (t.setFlags (aluMove (s.opAddr .first))) ∧
      Stored .second .w (.areg n) (s.opAddr .first) s t := by
  rcases storeResult_spec .second .w (.areg n) (aluMove (s.opAddr .first)) s with ⟨_, t, ht, hs⟩ | ⟨hn, _⟩
  · exact ⟨t, ht, hs⟩
  · cases hn

/-- Settles O42: the word stored in Ai is OpAddr1, which Fetch_Operands took from the extension word. -/
theorem moveaEffect : Obligations.MoveaEffect := by
  intro n a s
  obtain ⟨t, hrun, hs⟩ := runMovea_areg n (fetchExtension .first a (s.loadDS 0b01))
  have haddr : (fetchExtension .first a (s.loadDS 0b01)).opAddr .first = a := State.setOpAddr_same ..
  rw [haddr] at hrun hs
  refine ⟨_, exec_of_execute_ok (movea_begins a n s) hrun, hs.areg_same, ?areg, fun m => hs.dreg_other nofun,
    hs.mem_of_reg rfl, hs.pc, by simp [hs.status, fetchExtension], hs.trace, ⟨rfl, rfl, rfl, rfl⟩,
    ⟨hs.input, hs.drawn, hs.free⟩⟩
  intro m hm
  exact hs.areg_other fun h => hm (Operand.areg.inj h).symm

end Sys2Proof.Machine
end

/-! ## Proofs of the family `47_io_and_halt`

The two streams to and from the host. `State.extend p r` is a state with the events `p` before its trace and the draws `r` behind
its draws. Each part of a step does on the extended state what it does on the state itself, extended (`step_extend`): nothing
reads the trace, and INP takes the first draw. Both statements about the streams are instances, O58 with no draws added and O59
with no events. Then INP (O43), DSP (O44), DSR (O45) and HLT (O46). -/

section
namespace Sys2Proof.Machine

open Sys2Proof.Claims

/-! ### A state with a longer past and more draws to come -/

/-- The state with the events `p` before its trace and the draws `r` behind its draws. -/
def State.extend (p : List Event) (r : List Long) (s : State) : State :=
  { s with trace := p ++ s.trace, input := s.input ++ r }

/-- What a part of an instruction ends in, with its state extended. -/
def Result.extend {α : Type} (p : List Event) (r : List Long) : Result α → Result α
  | .ok a s => .ok a (s.extend p r)
  | .raised k s => .raised k (s.extend p r)

section
variable {p : List Event} {r : List Long} {k : Slot} {sz : Size} {op dst : Operand} {s : State}

theorem setD_extend (n : RegNo) (v : Long) : (s.extend p r).setD n v = (s.setD n v).extend p r := by cases n <;> rfl

theorem setA_extend (n : RegNo) (v : Long) : (s.extend p r).setA n v = (s.setA n v).extend p r := by cases n <;> rfl

theorem areg_extend (n : RegNo) : (s.extend p r).areg n = s.areg n := rfl

theorem setOpAddr_extend (a : Word) : (s.extend p r).setOpAddr k a = (s.setOpAddr k a).extend p r := by cases k <;> rfl

/-- An event goes behind the earlier ones, whatever stands before them (spec/47_io_and_halt.md R230). -/
theorem emit_extend (e : Event) : (s.extend p r).emit e = (s.emit e).extend p r := by
  simp [State.emit, State.extend]

theorem raiseError_extend (e : ErrorKind) (m : Option Mnemonic) (a : Word) :
    raiseError e m a (s.extend p r) = (raiseError e m a s).extend p r :=
  congrArg State.setH (emit_extend (.error e m a))

/-- The next draw is the first one: draws behind it do not matter, and no draw is added where there is none
(spec/47_io_and_halt.md R231). -/
theorem nextDraw_extend (h : s.input = [] → r = []) : (s.extend p r).nextDraw = s.nextDraw := by
  unfold State.nextDraw State.extend
  cases hi : s.input with
  | nil => simp [h hi]
  | cons x xs => rfl

theorem dropDraw_extend (h : s.input = [] → r = []) : (s.extend p r).dropDraw = s.dropDraw.extend p r := by
  have htail : (s.input ++ r).tail = s.input.tail ++ r := by
    cases hi : s.input with
    | nil => simp [h hi]
    | cons x xs => rfl
  simp [State.dropDraw, State.extend, htail]

/-! ### Parts of an instruction on an extended state -/

/-- Parts in sequence on an extended state, from what each does there. -/
theorem andThen_extend {α β : Type} {x x' : Result α} {f f' : α → State → Result β} (hx : x' = x.extend p r)
    (hf : ∀ a t, f' a (t.extend p r) = (f a t).extend p r) : x'.andThen f' = (x.andThen f).extend p r := by
  subst hx
  cases x with
  | ok a t => exact hf a t
  | raised k t => rfl

theorem finish_extend {x : Result Unit} {m : Mnemonic} {a : Word} {t : State} (h : x.finish m a = .next t) :
    (x.extend p r).finish m a = .next (t.extend p r) := by
  cases x with
  | ok _ u => cases h; rfl
  | raised k u => cases h; exact congrArg Host.Outcome.next (raiseError_extend ..)

theorem captureEA_extend (v : Long) : captureEA k v (s.extend p r) = (captureEA k v s).extend p r := by
  unfold captureEA
  split
  · exact congrArg (Result.ok ()) (setOpAddr_extend _)
  · rfl

theorem locate_extend : locate k sz op (s.extend p r) = (locate k sz op s).extend p r := by
  cases op with
  | dreg | areg | absTruncated | noMode => rfl
  | abs a => exact congrArg (Result.ok ()) (setOpAddr_extend (s := (s.latch .w s.pc true a).setPC (s.pc + 2)) a)
  | ind n => exact captureEA_extend _
  | postInc n => exact andThen_extend (captureEA_extend _) fun _ _ => congrArg (Result.ok ()) (setA_extend ..)
  | preDec n =>
    simp only [locate, areg_extend, setA_extend]
    exact captureEA_extend _

theorem locateOpt_extend (o : Option Operand) : locateOpt k sz o (s.extend p r) = (locateOpt k sz o s).extend p r := by
  cases o with
  | none => rfl
  | some op => exact locate_extend

theorem fetchOperands_extend (op1 op2 : Option Operand) :
    fetchOperands sz op1 op2 (s.extend p r) = (fetchOperands sz op1 op2 s).extend p r :=
  andThen_extend (locateOpt_extend _) fun _ _ => locateOpt_extend _

theorem memRead_extend (a : Word) : memRead sz a (s.extend p r) = (memRead sz a s).extend p r := by
  unfold memRead
  split <;> rfl

theorem memWrite_extend (a : Word) (v : BitVec sz.bits) :
    memWrite sz a v (s.extend p r) = (memWrite sz a v s).extend p r := by
  unfold memWrite
  split <;> rfl

theorem readOp_extend : readOp k sz op (s.extend p r) = (readOp k sz op s).extend p r := by
  cases op with
  | dreg | areg => rfl
  | abs | absTruncated | ind | postInc | preDec | noMode => exact memRead_extend _

theorem writeOp_extend (v : BitVec sz.bits) : writeOp k sz op v (s.extend p r) = (writeOp k sz op v s).extend p r := by
  cases op with
  | dreg n => exact congrArg (Result.ok ()) (setD_extend ..)
  | areg n => exact congrArg (Result.ok ()) (setA_extend ..)
  | abs | absTruncated | ind | postInc | preDec | noMode => exact memWrite_extend _ v

theorem readSource_extend : readSource k sz op (s.extend p r) = (readSource k sz op s).extend p r :=
  andThen_extend readOp_extend fun _ _ => rfl

theorem readDest_extend : readDest k sz op (s.extend p r) = (readDest k sz op s).extend p r :=
  andThen_extend readOp_extend fun _ _ => rfl

theorem storeResult_extend (o : AluOut sz.bits) :
    storeResult k sz op o (s.extend p r) = (storeResult k sz op o s).extend p r :=
  andThen_extend (writeOp_extend (s := s.fillR sz o.r) o.r) fun _ _ => rfl

/-- `D <- ReadOp(k)`, then a result stored there. -/
theorem modify_extend (f : BitVec sz.bits → AluOut sz.bits) :
    ((readDest k sz op (s.extend p r)).andThen fun dv t => storeResult k sz op (f dv) t) =
      ((readDest k sz op s).andThen fun dv t => storeResult k sz op (f dv) t).extend p r :=
  andThen_extend readDest_extend fun _ _ => storeResult_extend _

theorem storeOverflow_extend : storeOverflow dst (s.extend p r) = (storeOverflow dst s).extend p r :=
  andThen_extend (writeOp_extend (s := s.fillR .l (Config.divsOverflowResult s.free)) _) fun _ _ => rfl

theorem runBranch_extend (cond : Status → Bool) : runBranch cond (s.extend p r) = (runBranch cond s).extend p r := by
  rw [runBranch_spec, runBranch_spec]
  rfl

end

/-- Execute of each instruction on an extended state: DSP and DSR append their event behind the longer trace, INP takes its draw
before the added ones, and no other instruction has to do with either. -/
theorem execute_extend (i : Instr) {sz : Size} {s : State} {p : List Event} {r : List Long} (h : s.input = [] → r = []) :
    execute i sz (s.extend p r) = (execute i sz s).extend p r := by
  unfold execute
  cases i with
  | add | sub | and | or | eor => exact andThen_extend readSource_extend fun _ _ => modify_extend _
  | addq _ data | subq _ data => exact modify_extend (s := s.fillS sz (immediate sz data)) _
  | asl | asr | rol | ror | neg | not => exact modify_extend _
  | muls =>
    exact andThen_extend readSource_extend fun _ _ => andThen_extend readDest_extend fun _ _ => storeResult_extend _
  | divs =>
    refine andThen_extend readSource_extend fun _ _ => andThen_extend readDest_extend fun _ _ => ?_
    dsimp only
    split
    · rfl
    · split
      · exact storeOverflow_extend
      · exact storeResult_extend _
  | clr | movea => exact storeResult_extend _
  | cmp => exact andThen_extend readSource_extend fun _ _ => andThen_extend readDest_extend fun _ _ => rfl
  | tst => exact andThen_extend readDest_extend fun _ _ => rfl
  | bra | bvs | beq | bcs | bge | ble => exact runBranch_extend _
  | move => exact andThen_extend readSource_extend fun _ _ => storeResult_extend _
  | moveq _ data => exact storeResult_extend (s := s.fillS sz (immediate sz data)) _
  | exg =>
    exact andThen_extend readSource_extend fun _ _ => andThen_extend readDest_extend fun _ _ =>
      andThen_extend (writeOp_extend _) fun _ _ => andThen_extend (writeOp_extend _) fun _ _ => rfl
  | inp =>
    simp only [runInp, nextDraw_extend h, dropDraw_extend h]
    exact storeResult_extend _
  | dsp => exact andThen_extend readSource_extend fun _ _ => congrArg (Result.ok ()) (emit_extend _)
  | dsr => exact congrArg (Result.ok ()) (emit_extend _)
  | hlt => rfl

/-! ### A step on an extended state -/

theorem exec_extend {i : Instr} {s t : State} {p : List Event} {r : List Long} (hr : s.input = [] → r = [])
    (h : exec i s = .next t) : exec i (s.extend p r) = .next (t.extend p r) := by
  rw [exec_eq_instruction] at h ⊢
  have fetched (sz : Size) : fetchOperands sz i.op1 i.op2 ((s.extend p r).loadDS i.info.ds) =
      (fetchOperands sz i.op1 i.op2 (s.loadDS i.info.ds)).extend p r := fetchOperands_extend (s := s.loadDS i.info.ds) ..
  rcases instruction_spec i.mnemonic i.info i.op1 i.op2 (execute i) s with
    ⟨k, hc, hx⟩ | ⟨sz, k, u, hc, hf, hx⟩ | ⟨sz, u, hc, hf, hx⟩ <;> rw [hx] at h
  · cases h
    simp only [instruction, hc]
    exact congrArg Host.Outcome.next (raiseError_extend (s := s.loadDS i.info.ds) ..)
  · cases h
    simp only [instruction, hc, fetched, hf]
    exact finish_extend (x := .raised k u) rfl
  · have hinput : u.input = s.input := (located_of_begins ⟨hc, hf⟩).input
    rw [instruction_of_located _ hc ((fetched sz).trans (congrArg (Result.extend p r) hf)),
      execute_extend i (hinput ▸ hr)]
    exact finish_extend h

/-- A step does on an extended state what it does on the state itself, extended. Where no draw is left none may be added: an INP
would take it in place of a free value (log 17). -/
theorem step_extend {s t : State} {p : List Event} {r : List Long} (hr : s.input = [] → r = []) (h : step s = .next t) :
    step (s.extend p r) = .next (t.extend p r) := by
  obtain ⟨hh, ⟨hd, rfl⟩ | ⟨i, rest, hd, hi⟩⟩ := step_eq_next.1 h
  · exact step_eq_next.2 ⟨hh, .inl ⟨hd, (raiseError_extend ..).symm⟩⟩
  · exact step_eq_next.2 ⟨hh, .inr ⟨i, rest, hd, exec_extend (s := fetchOpCode s) hr hi⟩⟩

/-! ### A step appends at most one event -/

/-- Execute appends an event for DSP and for DSR, and none for another instruction. -/
theorem execute_trace_length {i : Instr} {sz : Size} (hc : i.check = .ok sz) (s : State) :
    (execute i sz s).state.trace.length ≤ s.trace.length + 1 := by
  have kept := (execute_frame hc s).trace
  cases i with
  | dsp _ src =>
    rw [execute, runDsp]
    rcases readSource_spec .first sz src s with ⟨_, u, e, q⟩ | ⟨_, e⟩ <;> rw [e]
    · simp [q.trace]
    · simp
  | dsr => simp [execute, runDsr]
  | _ => simp [kept nofun nofun]

theorem exec_trace_length {i : Instr} {s t : State} (h : exec i s = .next t) : t.trace.length ≤ s.trace.length + 1 := by
  rcases exec_ends h with ⟨⟨_, _, _, ht⟩, _⟩ | ⟨_, sz, e, hb, located, _, hx⟩
  · simp [ht]
  · have hlen := execute_trace_length hb.valid e
    rwa [hx, located.trace] at hlen

theorem step_trace_length {s t : State} (h : step s = .next t) : t.trace.length ≤ s.trace.length + 1 := by
  obtain ⟨_, ⟨_, rfl⟩ | ⟨i, _, _, hi⟩⟩ := step_eq_next.1 h
  · simp
  · exact exec_trace_length (s := fetchOpCode s) hi

/-- Settles O58: `s` is the state with an empty trace, extended by its own trace; what the step appends there is what it appends
behind any trace. -/
theorem traceIsNeverRead : Obligations.TraceIsNeverRead := by
  intro s t h
  have behind (u : State) (tr : List Event) : u.extend tr [] = { u with trace := tr ++ u.trace } := by
    simp [State.extend]
  obtain ⟨u, hu⟩ := (stepAnswersUnlessHalted { s with trace := [] }).2 (step_eq_next.1 h).1
  have hstep (tr : List Event) : step { s with trace := tr } = .next { u with trace := tr ++ u.trace } := by
    simpa [behind] using step_extend (p := tr) (r := []) (fun _ => rfl) hu
  cases h.symm.trans (hstep s.trace)
  exact ⟨u.trace, step_trace_length hu, rfl, hstep⟩

/-- Settles O59: with one draw in the list, the draws behind it extend the state. -/
theorem laterDrawsDecideNothing : Obligations.LaterDrawsDecideNothing := by
  intro s t x rest hx h
  simpa [State.extend, hx] using step_extend (p := []) (r := rest) (by simp [hx]) h

/-! ### INP -/

theorem nextDraw_eq_headD (s : State) : s.nextDraw = s.input.headD (Config.hostDraw s.drawn) := by
  unfold State.nextDraw
  cases s.input <;> rfl

/-- The draws are no part of what `Puts` speaks of. -/
theorem puts_of_dropDraw {k : Slot} {sz : Size} {op : Operand} {v : BitVec sz.bits} {e t : State}
    (h : Puts k sz op v e.dropDraw t) : Puts k sz op v e t :=
  { h with }

/-- Settles O43: INP stores the draw it took, after dropping it from the host's draws. -/
theorem inpEffect : Obligations.InpEffect := by
  intro info dst sz s e hb hm hr
  have located := located_of_begins hb
  have hdraw : e.nextDraw = s.input.headD (Config.hostDraw s.drawn) := by
    rw [nextDraw_eq_headD, located.input, located.drawn]
  rcases storeResult_spec .first sz dst (aluMove (e.nextDraw.setWidth sz.bits)) e.dropDraw with
    ⟨_, t, ht, hs⟩ | ⟨hn, _⟩
  · refine ⟨_, exec_of_execute_ok hb ht, ?_⟩
    have hputs := puts_of_dropDraw (hs.puts (located.mem ▸ hm).1)
    have host := hs.hostKept
    rw [← hdraw]
    exact ⟨puts_setNZVC hputs .., ⟨rfl, rfl, rfl, rfl⟩, host.input.trans (congrArg List.tail located.input),
      host.drawn.trans (congrArg (· + 1) located.drawn), host.free.trans located.free⟩
  · exact absurd (hr.symm.trans hn) nofun

/-! ### DSP, DSR and HLT -/

theorem Quiet.displayRef {s t : State} (q : Quiet s t) (k : Slot) (op : Operand) :
    displayRef k op t = displayRef k op s := by
  cases op with
  | dreg | areg => rfl
  | abs | absTruncated | ind | postInc | preDec | noMode => exact congrArg DisplayRef.mem (q.opAddr k)

/-- An operand in memory is displayed by its effective address (spec/47_io_and_halt.md R233). -/
theorem displayRef_of_not_isReg {op : Operand} (h : isReg op = false) (k : Slot) (s : State) :
    displayRef k op s = .mem (s.opAddr k) := by
  cases op with
  | dreg | areg => cases h
  | abs | absTruncated | ind | postInc | preDec | noMode => rfl

/-- Settles O44: DSP is a read, which is a quiet change, and the event with what was read. -/
theorem dspEffect : Obligations.DspEffect := by
  intro info src sz s e hb hr
  obtain ⟨u, hread, q⟩ := readSource_of_inRange hr
  have hrun : execute (.dsp info src) sz e =
      .ok () (u.emit (.display (displayRef .first src u) sz ((operandValue .first sz src e).setWidth 32))) := by
    rw [execute, runDsp, hread, Result.andThen_ok]
  rw [q.displayRef] at hrun
  refine ⟨_, displayRef .first src e, exec_of_execute_ok hb hrun, by rintro n rfl; rfl, by rintro n rfl; rfl,
    fun hmem => displayRef_of_not_isReg hmem .., ?trace, { q.dataKept with trace := rfl }, ?flags, { q.hostKept with }⟩
  case trace => rw [State.emit_trace, q.trace]
  case flags =>
    rw [FlagsKept, ← q.status]
    exact ⟨rfl, rfl, rfl, rfl⟩

/-- Settles O45: with its one valid form DSR has no operand to locate, and its Execute is the event. -/
theorem dsrEffect : Obligations.DsrEffect := by
  intro s
  have begins : Begins (.dsr ⟨0b00, false⟩) .b s (s.loadDS 0b00) := ⟨rfl, rfl⟩
  exact ⟨_, exec_of_execute_ok begins rfl, rfl, rfl, rfl, rfl, rfl, ⟨rfl, rfl, rfl⟩⟩

/-- Settles O46: with its one valid form HLT has no operand to locate, and its Execute sets H. -/
theorem hltEffect : Obligations.HltEffect := by
  intro s
  have begins : Begins (.hlt ⟨0b00, false⟩) .b s (s.loadDS 0b00) := ⟨rfl, rfl⟩
  exact ⟨_, exec_of_execute_ok begins rfl, rfl, ⟨rfl, rfl, rfl, rfl⟩, rfl, rfl, rfl, rfl, ⟨rfl, rfl, rfl⟩,
    step_of_halted rfl⟩

end Sys2Proof.Machine
end

/-! ## Proofs of the families `60_exceptions` and `70_reset_and_hazards`

Execute raises exactly where an access leaves memory or a divisor is zero, and then it has written nothing
(`execute_ends`). From that follow what an error leaves of an instruction (O51) and when Execute ends in one (O25, O50). What a
step appends to the trace (O58) and what sets H (O52) give the invariant of the trace (O55), and with the canonical form of
memory (O54) the soundness of every run (O56). The loader (O8) rests on the laws of memory alone. -/

section
namespace Sys2Proof.Machine

open Sys2Proof.Claims

/-! ### How Execute ends -/

section
variable {i : Instr} {sz : Size} {src dst : Operand} {s : State}

/-- An operand access of `i` is not wholly inside memory (spec/20_memory.md R56). -/
def AccessLeavesMemory (i : Instr) (sz : Size) (s : State) : Prop :=
  ∃ x ∈ accesses i sz, operandInRange x.1 x.2.1 x.2.2 s = false

theorem not_accessLeavesMemory_iff :
    ¬ AccessLeavesMemory i sz s ↔ ∀ x ∈ accesses i sz, operandInRange x.1 x.2.1 x.2.2 s = true := by
  simp only [AccessLeavesMemory, not_exists, not_and, Bool.not_eq_false]

theorem Stores.completes {k : Slot} {z : Size} {o : AluOut z.bits} {inRange : Prop} {r : Result Unit}
    (h : Stores k z dst o inRange s r) (hr : inRange) : ∃ t, r = .ok () t := by
  rcases h with ⟨_, t, e, _⟩ | ⟨hn, _⟩
  · exact ⟨_, e⟩
  · exact absurd hr hn

/-- DIVS by zero raises after its two reads (spec/60_exceptions.md R246). -/
theorem runDivs_of_zero (h1 : operandInRange .first .l src s = true) (h2 : operandInRange .second .l dst s = true)
    (h0 : (operandValue .first .l src s).extractLsb' 0 16 = (0 : Word)) :
    ∃ u, Quiet s u ∧ runDivs src dst s = .raised .divisionByZero u := by
  obtain ⟨u, q, e⟩ := runDivs_of_inRange h1 h2 h0 rfl
  exact ⟨u, q, e.trans (if_pos rfl)⟩

theorem runDivs_completes (h1 : operandInRange .first .l src s = true) (h2 : operandInRange .second .l dst s = true)
    (h0 : (operandValue .first .l src s).extractLsb' 0 16 ≠ (0 : Word)) : ∃ t, runDivs src dst s = .ok () t := by
  obtain ⟨u, q, e⟩ := runDivs_of_inRange h1 h2 rfl rfl
  rw [if_neg h0] at e
  rw [e]
  split
  · obtain ⟨t, _, ht⟩ := storeOverflow_of_inRange q h2
    exact ⟨_, ht⟩
  · exact (Stores.of_quiet _ q).completes h2

theorem runExg_completes (hsrc : isReg src = true) (hdst : isReg dst = true) : ∃ t, runExg src dst s = .ok () t := by
  obtain ⟨_, _, h, _⟩ := runExg_of_isReg hsrc hdst s
  exact ⟨_, h⟩

/-- The draw INP takes moves no operand. -/
theorem runInp_completes (h : operandInRange .first sz dst s = true) : ∃ t, runInp dst sz s = .ok () t :=
  (Stores.of_quiet _ (Quiet.refl s.dropDraw)).completes (by simpa [operandInRange] using h)

/-- With every access in memory and no zero divisor, Execute of a valid instruction raises nothing
(spec/60_exceptions.md R240, R247). -/
theorem execute_completes (hc : i.check = .ok sz) (hr : ¬ AccessLeavesMemory i sz s) (hz : ¬ zeroDivisor i s) :
    ∃ t, execute i sz s = .ok () t := by
  have inRange := not_accessLeavesMemory_iff.1 hr
  obtain ⟨_, _, hsz, _, h2⟩ := checkOpcode_eq_ok.1 hc
  cases i with
  | add _ src dst | sub _ src dst | and _ src dst | or _ src dst | eor _ src dst =>
    rw [execute]
    exact (runTwo_spec _ src dst sz s).completes (by simpa [accesses] using inRange)
  | addq _ data dst | subq _ data dst =>
    rw [execute]
    exact (runQuick_spec _ data dst sz s).completes (by simpa [accesses] using inRange)
  | asl _ data dst | asr _ data dst | rol _ data dst | ror _ data dst =>
    rw [execute]
    exact (runShift_spec _ data dst sz s).completes (by simpa [accesses] using inRange)
  | neg _ dst | not _ dst =>
    rw [execute]
    exact (runOne_spec _ dst sz s).completes (by simpa [accesses] using inRange)
  | muls _ src dst => exact (runMuls_spec src dst s).completes (by simpa [accesses] using inRange)
  | divs _ src dst =>
    obtain rfl : sz = .l := by simpa [Instr.mnemonic, Mnemonic.allowedSizes] using hsz
    obtain ⟨h1, h2⟩ := by simpa [accesses] using inRange
    exact runDivs_completes h1 h2 hz
  | clr _ dst =>
    exact (Stores.of_quiet (dst := dst) _ (Quiet.refl s)).completes (by simpa [accesses] using inRange)
  | cmp _ src dst =>
    obtain ⟨h1, h2⟩ := by simpa [accesses] using inRange
    obtain ⟨t, ht, _⟩ := runCmp_tested h1 h2
    exact ⟨t, ht⟩
  | tst _ dst =>
    obtain ⟨t, ht, _⟩ := runTst_tested (by simpa [accesses] using inRange)
    exact ⟨t, ht⟩
  | bra | bvs | beq | bcs | bge | ble =>
    rw [execute, runBranch_spec]
    exact ⟨_, rfl⟩
  | move _ src dst => exact (runMove_spec src dst sz s).completes (by simpa [accesses] using inRange)
  | moveq _ data dst =>
    exact (Stores.of_quiet (dst := dst) _ (Quiet.fillS s sz (immediate sz data))).completes
      (by simpa [accesses] using inRange)
  | exg _ src dst =>
    obtain ⟨hsrc, hdst⟩ := isReg_of_exg_check hc
    exact runExg_completes hsrc hdst
  | movea _ src dst =>
    have hdst : isReg dst = true := isReg_of_mode_register (List.mem_cons_of_mem _ (of_decide_eq_true h2))
    exact (Stores.of_quiet (dst := dst) _ (Quiet.refl s)).completes (operandInRange_of_isReg hdst ..)
  | inp _ dst => exact runInp_completes (by simpa [accesses] using inRange)
  | dsp _ src =>
    obtain ⟨t, ht, _⟩ := readSource_of_inRange (by simpa [accesses] using inRange)
    rw [execute, runDsp, ht]
    exact ⟨_, rfl⟩
  | dsr | hlt => exact ⟨_, rfl⟩

/-- A valid DIVS whose divisor is zero raises DivisionByZero where both its operands can be read
(spec/60_exceptions.md R246, R248). -/
theorem execute_of_zeroDivisor (hc : i.check = .ok sz) (hr : ¬ AccessLeavesMemory i sz s) (hz : zeroDivisor i s) :
    ∃ u, Quiet s u ∧ execute i sz s = .raised .divisionByZero u := by
  have inRange := not_accessLeavesMemory_iff.1 hr
  obtain ⟨_, _, hsz, _, _⟩ := checkOpcode_eq_ok.1 hc
  cases i with
  | divs _ src dst =>
    obtain rfl : sz = .l := by simpa [Instr.mnemonic, Mnemonic.allowedSizes] using hsz
    obtain ⟨h1, h2⟩ := by simpa [accesses] using inRange
    exact runDivs_of_zero h1 h2 hz
  | _ => exact hz.elim

/-- Execute of a valid instruction raises, with nothing written, exactly where an access leaves memory or a divisor is zero
(spec/60_exceptions.md R240, R245 to R247). -/
theorem execute_ends (hc : i.check = .ok sz) (s : State) :
    ((AccessLeavesMemory i sz s ∨ zeroDivisor i s) ∧ ∃ k u, execute i sz s = .raised k u ∧ Unwritten s u) ∨
    (¬ (AccessLeavesMemory i sz s ∨ zeroDivisor i s) ∧ ∃ t, execute i sz s = .ok () t) := by
  by_cases hr : AccessLeavesMemory i sz s
  · exact .inl ⟨.inl hr, _, execute_raises hc hr⟩
  · by_cases hz : zeroDivisor i s
    · obtain ⟨u, q, e⟩ := execute_of_zeroDivisor hc hr hz
      exact .inl ⟨.inr hz, _, u, e, q.unwritten⟩
    · exact .inr ⟨not_or.2 ⟨hr, hz⟩, execute_completes hc hr hz⟩

end

/-! ### What an error leaves -/

/-- An instruction that ends in an error ends in its error action, with its mnemonic and its opcode's address, on a state in
which Fetch_Operands may have located operands and Execute has written nothing (spec/60_exceptions.md R245). -/
theorem exec_of_endsInError {i : Instr} {s t : State} (h : exec i s = .next t) (he : EndsInError s t) :
    ∃ k e u, Located s e ∧ Unwritten e u ∧ t = raiseError k (some i.mnemonic) (s.pc - 2) u := by
  rw [exec_eq_instruction] at h
  have located (sz : Size) := fetchOperands_located sz i.op1 i.op2 i.info.ds s
  rcases instruction_spec i.mnemonic i.info i.op1 i.op2 (execute i) s with
    ⟨k, _, e⟩ | ⟨sz, k, u, _, hu, e⟩ | ⟨sz, u, hc, hu, e⟩ <;> rw [e] at h
  · cases h
    exact ⟨k, _, _, Located.loadDS s i.info.ds, (Quiet.refl _).unwritten, rfl⟩
  · cases h
    exact ⟨k, u, u, by simpa [hu] using located sz, (Quiet.refl u).unwritten, rfl⟩
  · have hl : Located s u := by simpa [hu] using located sz
    rcases execute_ends hc u with ⟨_, k, v, hx, hv⟩ | ⟨_, v, hx⟩ <;> rw [hx] at h <;> cases h
    · exact ⟨k, u, v, hl, hv, rfl⟩
    · have reported := execute_noErrorReported hc u
      rw [hx, NoErrorReported, EndsInError, hl.trace] at reported
      exact absurd he reported

/-- Settles O51: locating operands leaves D0, D1, flags and memory, Execute has written nothing, and the error action appends
the one event. -/
theorem errorsArePrecise : Obligations.ErrorsArePrecise := by
  intro i s t k m a h htrace
  obtain ⟨k', e, u, hl, hu, rfl⟩ := exec_of_endsInError h ⟨k, m, a, htrace⟩
  have hstatus : u.status = s.status := hu.status.trans hl.status
  have hevent : Event.error k' (some i.mnemonic) (s.pc - 2) = .error k m a := by
    simpa [hu.trace, hl.trace] using htrace
  obtain ⟨-, rfl, rfl⟩ := Event.error.inj hevent
  have action := hu.errorAction k' (some i.mnemonic) (s.pc - 2)
  exact ⟨rfl, rfl, action.h, by constructor <;> simp [hstatus], fun n => (action.d n).trans (hl.dreg n),
    action.mem.trans hl.mem⟩

/-! ### When Execute ends in an error -/

/-- Settles O25: after the two reads the error action ends the instruction. -/
theorem divisionByZeroRaises : Obligations.DivisionByZeroRaises := by
  intro info src dst sz s e hb h1 h2 h0
  obtain ⟨u, q, hu⟩ := runDivs_of_zero h1 h2 h0
  refine ⟨_, ?_, q.unwritten.errorAction .divisionByZero (some .DIVS) (s.pc - 2)⟩
  rw [exec_of_begins hb, execute, hu]
  rfl

/-- Settles O50: the two conditions are those under which Execute raises, and without a raise no Error event is appended. -/
theorem errorsOfExecuteAreExactly : Obligations.ErrorsOfExecuteAreExactly := by
  intro i sz s e t hb h
  have htrace : e.trace = s.trace := (located_of_begins hb).trace
  rw [exec_of_begins hb] at h
  rcases execute_ends hb.valid e with ⟨hfail, k, u, hx, hu⟩ | ⟨hok, u, hx⟩ <;> rw [hx] at h <;> cases h
  · refine iff_of_true ⟨k, some i.mnemonic, opcodeAddress s, ?_⟩ hfail
    rw [raiseError_trace, hu.trace, htrace]
  · have reported := execute_noErrorReported hb.valid e
    rw [hx, NoErrorReported, EndsInError, htrace] at reported
    exact iff_of_false reported hok

/-! ### The trace of a run -/

theorem hasError_append (es fs : List Event) : hasError (es ++ fs) = (hasError es || hasError fs) := List.any_append

/-- What stands before the last event is no Error event. -/
theorem errorOnlyLast_append_singleton (es : List Event) (e : Event) : errorOnlyLast (es ++ [e]) = !hasError es := by
  induction es with
  | nil => rfl
  | cons x xs ih =>
    have hcons : errorOnlyLast (x :: (xs ++ [e])) = (!x.isError && errorOnlyLast (xs ++ [e])) := by
      cases xs <;> rfl
    rw [List.cons_append, hcons, ih]
    simp [hasError]

theorem errorOnlyLast_of_not_hasError {es : List Event} (h : hasError es = false) : errorOnlyLast es = true := by
  rcases List.eq_nil_or_concat' es with rfl | ⟨es, e, rfl⟩
  · rfl
  · obtain ⟨hes, _⟩ := Bool.or_eq_false_iff.1 (hasError_append es [e] ▸ h)
    rw [errorOnlyLast_append_singleton, hes]
    rfl

theorem State.traceOk_of_not_hasError {s : State} (h : hasError s.trace = false) : s.traceOk = true := by
  simp [State.traceOk, errorOnlyLast_of_not_hasError h, h]

/-- Before the machine is halted there is no Error event. -/
theorem State.not_hasError_of_running {s : State} (h : s.traceOk = true) (hh : s.status.h = false) :
    hasError s.trace = false := by
  simp only [State.traceOk, hh, Bool.or_false, Bool.and_eq_true, Bool.not_eq_true'] at h
  exact h.2

/-- A step that ends in an error halts the machine (spec/60_exceptions.md R245). -/
theorem step_halts_of_endsInError {s t : State} (h : step s = .next t) (he : EndsInError s t) : t.status.h = true := by
  obtain ⟨_, ⟨_, rfl⟩ | ⟨i, _, _, hi⟩⟩ := step_eq_next.1 h
  · rfl
  · obtain ⟨_, halts, _⟩ := onlyHltAndErrorsWriteH
    exact halts i (fetchOpCode s) t hi he

/-- Settles O55: before the step there is no Error event, the step appends one event at most, and if that is an Error event the
machine is halted. -/
theorem stepKeepsErrorLast : Obligations.StepKeepsErrorLast := by
  intro s t hs h
  have hnone := State.not_hasError_of_running hs (step_eq_next.1 h).1
  obtain ⟨new, hlen, htrace, _⟩ := traceIsNeverRead s t h
  match new with
  | [] => exact State.traceOk_of_not_hasError (by simpa [htrace] using hnone)
  | [e] =>
    cases e with
    | display | status =>
      refine State.traceOk_of_not_hasError ?_
      rw [htrace, hasError_append, hnone]
      rfl
    | error k m a =>
      have hh := step_halts_of_endsInError h ⟨k, m, a, htrace⟩
      simp [State.traceOk, htrace, errorOnlyLast_append_singleton, hnone, hh]

/-! ### Runs -/

/-- What every step keeps, a run of any length keeps. -/
theorem run_keeps {P : State → Prop} (hstep : ∀ s t, P s → step s = .next t → P t) (n : Nat) {s t : State} (hs : P s)
    (h : Sys2Proof.core.run n s = .next t) : P t := by
  induction n generalizing s with
  | zero =>
    cases h
    exact hs
  | succ n ih =>
    simp only [Host.Core.run] at h
    split at h
    · next u hu => exact ih (hstep s u hs hu) h
    · cases h
    · cases h

/-- Settles O56: both halves of `State.Sound` are kept by every step. -/
theorem runsStaySound : Obligations.RunsStaySound := by
  intro n s t hs h
  refine run_keeps (P := State.Sound) (fun u v hu hv => ?_) n hs h
  exact ⟨stepKeepsMemoryCanonical u v hu.1 hv, stepKeepsErrorLast u v hu.2 hv⟩

/-! ### The loader -/

/-- Settles O8: the loader is one store of the file's bytes from address 0 on. -/
theorem loaderPlacesTheProgram : Obligations.LoaderPlacesTheProgram := by
  intro s bytes hm
  constructor
  · intro hlen
    refine ⟨_, if_pos hlen, Memory.wf_writeBytes hm 0 bytes (by simpa [Config.memTop] using hlen), fun i hi => ?_,
      fun x hx => Memory.read_writeBytes_other hm.1 (.inr (by simpa using hx)), rfl⟩
    simpa [State.byteAt] using Memory.read_writeBytes_same hm.1 0 bytes i hi
  · intro hlen
    exact if_neg (Nat.not_le.2 hlen)

end Sys2Proof.Machine
end
